-- ==== Sys2Proof/Word.lean ====
section
/-! DEFINITION. The words of the codec block (spec/00_scope.md R8, R11): a symbol is an 8-bit byte, a register is a
32-bit word, and everything is unsigned. A bit of a Huffman stream is a `Bool` (`false` for "0", `true` for "1"). -/

namespace Sys2Proof

/-- A symbol, one text element (`SYM_W` = 8 bits, R8). -/
abbrev Byte := BitVec 8

/-- A register or command word: 32 bits, bit 0 least significant (R11, R90, section 2 of 10_state.md). -/
abbrev Word := BitVec 32

end Sys2Proof
end

