-- ==== Sys2Proof/Syntax.lean ====
section
/-! DEFINITION. The names of the block's world: its twelve commands (one constructor per row of spec/opcode_table.json),
the fields of a command word (format C, spec/30_encoding.md R90), the four codec units with their three buffers, and the
actions a host can perform on the block's bus (R36, R70, R98). Commands carry no operand of any kind (R91). -/

namespace Sys2Proof

/-- The twelve commands of `spec/30_encoding.md` R94; every operand of a command is implicit (R91). -/
inductive Instr where
  | blkRst
  | rleEnc
  | rleDec
  | hufBuild
  | hufEnc
  | hufDec
  | bwtFwd
  | bwtInv
  | lzwEnc
  | lzwDec
  | bwtrleEnc
  | bwtrleDec
deriving DecidableEq, Repr

/-- The fields of a command word, format C (R90): `rsv` is bits 31:8, `unit` bits 7:4, `fn` bits 3:0. -/
structure CommandFields where
  rsv  : BitVec 24
  unit : BitVec 4
  fn   : BitVec 4
deriving DecidableEq, Repr

/-- The four codec units (R1, R20). -/
inductive UnitId where
  | rle
  | huf
  | bwt
  | lzw
deriving DecidableEq, Repr

/-- The three buffers every codec unit has (R20, R33 to R35). -/
inductive BufKind where
  | text
  | comp
  | decomp
deriving DecidableEq, Repr

/-- One of the twelve buffer windows (R60). -/
structure Window where
  unit : UnitId
  kind : BufKind
deriving DecidableEq, Repr

/-- The twelve windows. -/
def allWindows : List Window :=
  [⟨.rle, .text⟩, ⟨.rle, .comp⟩, ⟨.rle, .decomp⟩,
   ⟨.huf, .text⟩, ⟨.huf, .comp⟩, ⟨.huf, .decomp⟩,
   ⟨.bwt, .text⟩, ⟨.bwt, .comp⟩, ⟨.bwt, .decomp⟩,
   ⟨.lzw, .text⟩, ⟨.lzw, .comp⟩, ⟨.lzw, .decomp⟩]

/-- One action of the world outside the block: a bus write or read of `size` bytes at a byte address, or the hardware
reset input. Any address and any size can be asked for; which of them have a meaning is R70's to say (log entry 19). -/
inductive HostAction where
  | write (addr : Nat) (size : Nat) (value : Word)
  | read (addr : Nat) (size : Nat)
  | hardwareReset
deriving DecidableEq, Repr

end Sys2Proof
end

