-- ==== Sys2Proof/Config.lean ====
section
/-! DEFINITION. The parameters of the block (spec/00_scope.md R8, R9) as plain data, what they derive (capacities, window
sizes, the address regions of 20_memory.md R61, R72), and the free values: constants with no body, for what the spec calls
unspecified or leaves to an arbitrary choice. A claim about the model holds for every value of the parameters its
hypotheses allow, and for every value of the free constants. -/

namespace Sys2Proof

/-- `HUF_TIE` (R8, R132): `any` is the normative reading (each pop is a free choice), `ordered` the deterministic
refinement of the test vectors. -/
inductive HufTie where
  | any
  | ordered
deriving DecidableEq, Repr

/-- A node of the Huffman arena: Leaf(character, frequency) or Internal(frequency, left, right), children named by node
id (R38). -/
inductive Node where
  | leaf (sym : Byte) (freq : Nat)
  | internal (freq left right : Nat)
deriving DecidableEq, Repr, Inhabited

/-- One platform address per codec unit. -/
structure UnitBases where
  rle : Nat
  huf : Nat
  bwt : Nat
  lzw : Nat
deriving DecidableEq, Repr

def UnitBases.of (b : UnitBases) : UnitId → Nat
  | .rle => b.rle
  | .huf => b.huf
  | .bwt => b.bwt
  | .lzw => b.lzw

/-- The parameters R8 marks OPEN: `MAX_LEN`, `HUF_TIE`, `BASE` and the twelve window bases. -/
structure Params where
  maxLen     : Nat
  hufTie     : HufTie
  base       : Nat
  textBase   : UnitBases
  compBase   : UnitBases
  decompBase : UnitBases
deriving DecidableEq, Repr

/-- `CAP = MAX_LEN + 1` (R8). -/
def Params.cap (p : Params) : Nat := p.maxLen + 1

/-- `HUF_BITS_CAP = 255 * CAP` (R8). -/
def Params.hufBitsCap (p : Params) : Nat := 255 * p.cap

/-- `DICT_CAP = 256 + CAP` (R8, R182). -/
def Params.dictCap (p : Params) : Nat := 256 + p.cap

/-- The address of a window's first byte (R60). -/
def Params.windowBase (p : Params) (w : Window) : Nat :=
  match w.kind with
  | .text => p.textBase.of w.unit
  | .comp => p.compBase.of w.unit
  | .decomp => p.decompBase.of w.unit

/-- The size of a window in bytes (R61). -/
def Params.windowSize (p : Params) (w : Window) : Nat :=
  match w.unit, w.kind with
  | .rle, .comp => 4 * p.cap
  | .lzw, .comp => 4 * p.cap
  | .huf, .comp => (p.hufBitsCap + 7) / 8
  | _, _ => p.cap

/-- The size of the register space in bytes: offsets 0x000 to 0x13F (R26). -/
def regSpaceSize : Nat := 0x140

/-- The thirteen address regions as (first address, size): the register space and the twelve windows (R60, R72). -/
def Params.regions (p : Params) : List (Nat × Nat) :=
  (p.base, regSpaceSize) :: allWindows.map fun w => (p.windowBase w, p.windowSize w)

/-- Two regions have no byte in common. -/
def regionsDisjoint (a b : Nat × Nat) : Bool := decide (a.1 + a.2 ≤ b.1) || decide (b.1 + b.2 ≤ a.1)

/-- Every two regions of a list are disjoint. -/
def pairwiseDisjoint : List (Nat × Nat) → Bool
  | [] => true
  | r :: rs => rs.all (regionsDisjoint r) && pairwiseDisjoint rs

/-- `1 <= MAX_LEN <= 2^24 - 2` (R9). -/
def Params.maxLenOk (p : Params) : Bool := decide (1 ≤ p.maxLen) && decide (p.maxLen ≤ 2 ^ 24 - 2)

/-- Every region starts at a multiple of four (DESIGN CHOICE, log entry 4). -/
def Params.basesAligned (p : Params) : Bool := p.regions.all fun r => r.1 % 4 == 0

/-- "the windows and the register space do not overlap" (R61). -/
def Params.mapOk (p : Params) : Bool := pairwiseDisjoint p.regions

/-- What the spec asks of the parameters. -/
def Params.wf (p : Params) : Bool := p.maxLenOk && p.basesAligned && p.mapOk

/-- The parameters of the machine after reset: `MAX_LEN` at its default and `HUF_TIE` at its normative value (R8); the
addresses, which R72 leaves to the platform, are DESIGN CHOICE (log entry 3). -/
def Params.default : Params where
  maxLen := 16384
  hufTie := .any
  base := 0
  textBase := ⟨0x100000, 0x400000, 0x700000, 0xA00000⟩
  compBase := ⟨0x200000, 0x500000, 0x800000, 0xB00000⟩
  decompBase := ⟨0x300000, 0x600000, 0x900000, 0xC00000⟩

/-- Free value: a byte of a window that nothing has written, or that lies at or beyond the buffer's length register, as
draw `n` finds it at offset `off` (R36, R47; U10, U12). -/
opaque Config.freeByte : (n : Nat) → Window → (off : Nat) → Byte

/-- Free value: which of the candidates a pop takes under `HUF_TIE = ANY` (R132; U5), for draw `n` and the `k`-th pop of
a command. It is used modulo the number of candidates. -/
opaque Config.tieChoice : (n k : Nat) → Nat

/-- Free value: an undefined entry of `HUF.NODE`, at or above `NNODES` (R38; U10), as draw `n` finds it. -/
opaque Config.freeNode : (n id : Nat) → Node

end Sys2Proof
end

