-- ==== Sys2Proof/Machine/State.lean ====
section
/-! DEFINITION. The state of one block instance as plain data (spec/10_state.md R20 to R48), its state after reset (R47,
R280), and the reasons a step can stop. Windows hold physical bytes (20_memory.md R60 to R65); the logical buffers the
commands work on are computed from them and the length registers (Machine/Operands.lean). -/

namespace Sys2Proof.Machine

/-- The bytes of one window that are known to have been written, by offset; offsets strictly rise (`Mem.wf`). An offset
that is not listed has an unspecified content (R47; log entry 6). -/
abbrev Mem := List Host.Cell

/-- A unit's position in its state machine (R27), in the order of the PHASE values 0 to 5. -/
inductive Phase where
  | idle
  | frequenciesComputed
  | treeBuilt
  | codesGenerated
  | encoded
  | decoded
deriving DecidableEq, Repr

/-- The eleven faults a command can raise (60_exceptions.md R240), in the order of their codes 0x01 to 0x0B. -/
inductive FaultKind where
  | seq
  | len
  | sentinel
  | composite
  | overflow
  | rleZero
  | hufNoTree
  | hufPath
  | hufNoCode
  | bwtStream
  | lzwFirst
deriving DecidableEq, Repr

/-- A `raise F_X(info)` met inside an operation (R12, R240). -/
structure Trap where
  kind : FaultKind
  info : Nat
deriving DecidableEq, Repr

/-- What every codec unit has: its PHASE, its three length registers and its three windows (R20, R26 to R35). -/
structure CodecUnit where
  phase     : Phase
  textLen   : Word
  compLen   : Word
  decompLen : Word
  text      : Mem
  comp      : Mem
  decomp    : Mem
deriving DecidableEq, Repr

/-- The state of the block, with the parameters it is built with and the host that drives it.
`params`, `host`, `readData` and `draw` are the model's own fields (log entries 1, 2, 5 and 9): the parameters of R8, the
host actions still to come, the data the last host read returned, and the counter the free values are drawn with. -/
structure State where
  params     : Params
  busy       : Bool
  done       : Bool
  fault      : Bool
  selErr     : Bool
  faultCode  : Byte
  faultInfo  : Word
  sentinel   : Byte
  rle        : CodecUnit
  huf        : CodecUnit
  bwt        : CodecUnit
  lzw        : CodecUnit
  hufRoot    : BitVec 9
  hufNnodes  : BitVec 10
  hufFreq    : Vector Nat 256
  hufNode    : List Node
  hufCode    : Vector (Option (List Bool)) 256
  bwtOpos    : Word
  bwtSufidx  : List Nat
  host       : List HostAction
  readData   : Option Word
  draw       : Nat
deriving DecidableEq, Repr

/-- The machine stops because the platform, not the block, decides what happens. -/
inductive Fault where
  /-- A host access to an address outside every window and the register space (R70: "the platform's bus decides
  (typically a bus error)"), log entry 12. Raised by a host action, never by a command. Safe: the model has no next state. -/
  | outsideMap
deriving DecidableEq, Repr

/-- An action the spec gives no meaning. -/
inductive Refusal where
  /-- An instruction whose meaning is not modelled yet, by its mnemonic. Raised by no arm of this model. Safe. -/
  | notModelled (mnemonic : String)
  /-- A host access of a width R70 does not allow there. Raised by a host action. Safe. -/
  | badWidth
  /-- A host access that is not aligned to its own size (R70). Raised by a host action. Safe. -/
  | misaligned
  /-- A host access while STATUS.BUSY = 1 other than reading STATUS (R288). Raised by a host action; never from a state
  any run reaches, since BUSY is 0 there (R14). Safe. -/
  | accessWhileBusy
deriving DecidableEq, Repr

/-- `HUF.ROOT` when there is no tree: `NONE = 0x1FF` (R8, R31). -/
def rootNone : BitVec 9 := 0x1FF

/-- `SENTINEL_RESET` = 0x24, the character `$` (R8, R25). -/
def sentinelReset : Byte := 0x24

/-- A unit after reset: Idle, every length 0, window contents unspecified (R47). -/
def CodecUnit.reset : CodecUnit where
  phase := .idle
  textLen := 0
  compLen := 0
  decompLen := 0
  text := []
  comp := []
  decomp := []

/-- The reset values of R47 for a block built with parameters `p`. `HUF.NODE`, `BWT.SUFIDX` and the windows are
"unspecified; unreachable by any rule until written": nothing of them is listed (log entries 6 and 7). -/
def State.resetWith (p : Params) : State where
  params := p
  busy := false
  done := false
  fault := false
  selErr := false
  faultCode := 0
  faultInfo := 0
  sentinel := sentinelReset
  rle := .reset
  huf := .reset
  bwt := .reset
  lzw := .reset
  hufRoot := rootNone
  hufNnodes := 0
  hufFreq := Vector.replicate 256 0
  hufNode := []
  hufCode := Vector.replicate 256 none
  bwtOpos := 0
  bwtSufidx := []
  host := []
  readData := none
  draw := 0

/-- The machine right after hardware reset (R47, R280), with the default parameters and no host action pending. -/
def State.reset : State := .resetWith .default

end Sys2Proof.Machine
end

