-- ==== Sys2Proof/Machine/Ops.lean ====
section
/-! DEFINITION. Operations the rest of the machine is written over: bytes in a window, the little-endian order of a word
(R62), access to a unit by its name, taking a fault (60_exceptions.md R243) and the only return from one, the reset of the
block (R222, R250, R281). -/

namespace Sys2Proof.Machine

/-! ### Bytes of one window -/

/-- Offsets strictly rise: the canonical form of a window's contents. -/
def Mem.wf : Mem → Bool
  | [] => true
  | [_] => true
  | (a, _) :: (b, x) :: rest => decide (a < b) && Mem.wf ((b, x) :: rest)

/-- Every listed offset is below `n`. -/
def Mem.below (n : Nat) (m : Mem) : Bool := m.all fun c => decide (c.1 < n)

/-- The byte listed at an offset, if one is. -/
def Mem.lookup : Mem → Nat → Option Byte
  | [], _ => none
  | (a, b) :: rest, off => if a = off then some b else Mem.lookup rest off

/-- The contents after one byte is written. -/
def Mem.put : Mem → Nat → Byte → Mem
  | [], off, b => [(off, b)]
  | (a, x) :: rest, off, b =>
    if off < a then (off, b) :: (a, x) :: rest
    else if off = a then (off, b) :: rest
    else (a, x) :: Mem.put rest off b

/-- The contents after several bytes are written at rising offsets, the first at `off`. -/
def Mem.putBytes : Mem → Nat → List Byte → Mem
  | m, _, [] => m
  | m, off, b :: bs => Mem.putBytes (Mem.put m off b) (off + 1) bs

/-- The contents that hold exactly the given bytes from offset `off` on: what a whole-buffer replacement leaves (R66).
Bytes of the window beyond them are unspecified afterwards (R290, R294; log entry 8). -/
def Mem.ofBytes : Nat → List Byte → Mem
  | _, [] => []
  | off, b :: bs => (off, b) :: Mem.ofBytes (off + 1) bs

/-! ### Little-endian words (R62) -/

/-- The byte at the lowest address holds bits 7:0. -/
def wordOfBytes (b0 b1 b2 b3 : Byte) : Word := b3 ++ b2 ++ b1 ++ b0

/-- The four bytes of a word in ascending address order. -/
def bytesOfWord (w : Word) : List Byte :=
  [w.extractLsb' 0 8, w.extractLsb' 8 8, w.extractLsb' 16 8, w.extractLsb' 24 8]

/-- The bytes of several words, one word after the other. -/
def bytesOfWords (ws : List Word) : List Byte := ws.flatMap bytesOfWord

/-! ### Bits of a byte, counted from the most significant as `HUF.COMP` counts them (R65) -/

/-- A byte whose first `n` bits, from the most significant down, are 1 (all of them where `n` is 8 or more). -/
def highBits (n : Nat) : Byte := ~~~((0xFF : Byte) >>> n)

/-- The first `n` bits of `a`, then the other bits of `b`. -/
def firstBits (n : Nat) (a b : Byte) : Byte := if 8 ≤ n then a else (a &&& highBits n) ||| (b &&& ~~~highBits n)

/-- `b` with bit `k` replaced by `v`, the other seven kept (`k` below 8). -/
def replaceBit (b : Byte) (k : Nat) (v : Bool) : Byte :=
  firstBits k b (firstBits (k + 1) (if v then 0xFF else 0x00) b)

/-! ### A unit by its name -/

def State.unit (s : State) : UnitId → CodecUnit
  | .rle => s.rle
  | .huf => s.huf
  | .bwt => s.bwt
  | .lzw => s.lzw

def State.setUnit (s : State) (u : UnitId) (c : CodecUnit) : State :=
  match u with
  | .rle => { s with rle := c }
  | .huf => { s with huf := c }
  | .bwt => { s with bwt := c }
  | .lzw => { s with lzw := c }

/-- `U.PHASE <- p`. -/
def State.setPhase (s : State) (u : UnitId) (p : Phase) : State := s.setUnit u { s.unit u with phase := p }

/-- The bytes listed in a window. -/
def State.mem (s : State) (w : Window) : Mem :=
  match w.kind with
  | .text => (s.unit w.unit).text
  | .comp => (s.unit w.unit).comp
  | .decomp => (s.unit w.unit).decomp

/-- One byte of a window: the one listed, else the free byte of this draw (R36, R47; log entry 6). -/
def State.byteAt (s : State) (w : Window) (off : Nat) : Byte :=
  match (s.mem w).lookup off with
  | some b => b
  | none => Config.freeByte s.draw w off

/-! ### Taking a fault -/

/-- The codes of R240. -/
def FaultKind.code : FaultKind → Byte
  | .seq => 0x01
  | .len => 0x02
  | .sentinel => 0x03
  | .composite => 0x04
  | .overflow => 0x05
  | .rleZero => 0x06
  | .hufNoTree => 0x07
  | .hufPath => 0x08
  | .hufNoCode => 0x09
  | .bwtStream => 0x0A
  | .lzwFirst => 0x0B

/-- Fault entry (R243): the code and the info are recorded, FAULT is set, BUSY cleared; DONE and SEL_ERR keep the 0 that
acceptance gave them. There is no handler: control goes nowhere. -/
def State.raiseFault (s : State) (k : FaultKind) (info : Nat) : State :=
  { s with faultCode := k.code, faultInfo := BitVec.ofNat 32 info, fault := true, busy := false }

/-- `U.COMP_LEN <- 0`, contents unspecified: what a fault leaves of a compressed destination (R245; log entry 22). -/
def State.dropComp (s : State) (u : UnitId) : State := s.setUnit u { s.unit u with compLen := 0, comp := [] }

/-- `U.DECOMP_LEN <- 0`, contents unspecified: what a fault leaves of a decompressed destination (R245). -/
def State.dropDecomp (s : State) (u : UnitId) : State := s.setUnit u { s.unit u with decompLen := 0, decomp := [] }

/-! ### The return from a fault -/

/-- Every register, flag and table at its reset value (R47): hardware reset (R280) and `BLK.RST` (R222, R281) alike. The
parameters, the host with its last read data, and the draw counter are no state of the block and stay (log entry 21). -/
def State.resetBlock (s : State) : State :=
  { State.resetWith s.params with host := s.host, readData := s.readData, draw := s.draw }

/-! ### How an operation ends -/

/-- The end of a command's rule: it ran to its end, or it raised a fault (and the fault entry has been performed). -/
inductive Ending where
  | completed (s : State)
  | raised (s : State)
deriving DecidableEq, Repr

/-- Go on after an operation that completed; "a fault ends the command where it is raised" (R216). -/
def Ending.andThen (e : Ending) (f : State → Ending) : Ending :=
  match e with
  | .completed s => f s
  | .raised s => .raised s

/-- `raise F_X(info)` (R12). -/
def raise (k : FaultKind) (info : Nat) (s : State) : Ending := .raised (s.raiseFault k info)

end Sys2Proof.Machine
end

