-- ==== Sys2Proof/Machine/Flags.lean ====
section
/-! DEFINITION. The four STATUS flags (spec/10_state.md R22): what acceptance, completion and a selection error do to them
(30_encoding.md R92, R93; 60_exceptions.md R252), and the STATUS word a host reads. -/

namespace Sys2Proof.Machine

/-- The STATUS register: bit 0 BUSY, bit 1 DONE, bit 2 FAULT, bit 3 SEL_ERR, bits 31:4 zero (R22). -/
def State.statusWord (s : State) : Word :=
  BitVec.setWidth 32
    (BitVec.ofBool s.selErr ++ BitVec.ofBool s.fault ++ BitVec.ofBool s.done ++ BitVec.ofBool s.busy)

/-- Acceptance of a command: `DONE <- 0`, `SEL_ERR <- 0`, `BUSY <- 1` (R92 case 4). -/
def State.accept (s : State) : State := { s with done := false, selErr := false, busy := true }

/-- A command's rule ran to its end: `BUSY <- 0`, `DONE <- 1` (R93). -/
def State.complete (s : State) : State := { s with busy := false, done := true }

/-- A CMD write that selects no command: `SEL_ERR <- 1`, nothing else (R92 case 3, R252). -/
def State.selectionError (s : State) : State := { s with selErr := true }

/-- An accepted command from acceptance to its end, as one step (R14; R92 case 4, R93, R243; log entry 16). Either way the block goes on to a next
state: a fault of a command is a state of the block, not a stop of the model. -/
def runCommand (rule : State → Ending) (s : State) : Host.Outcome State Fault Refusal :=
  match rule s.accept with
  | .completed t => .next t.complete
  | .raised t => .next t

end Sys2Proof.Machine
end

