-- ==== Sys2Proof/Machine/Operands.lean ====
section
/-! DEFINITION. The operands of the commands: all implicit (R91), they are the logical buffers (spec/00_scope.md R12, R13),
read from and written to the physical windows in the layouts of 20_memory.md R63 to R65, and the registers by name at the
offsets of 10_state.md R21 to R31. -/

namespace Sys2Proof.Machine

/-! ### Elements of the compressed buffers -/

/-- A run-length part (R201): a symbol and its repeat count. -/
structure Part where
  sym   : Byte
  count : Nat
deriving DecidableEq, Repr

/-- `word[7:0] = sym`, `word[31:8] = count` (R64). -/
def Part.toWord (p : Part) : Word := BitVec.ofNat 24 p.count ++ p.sym

def Part.ofWord (w : Word) : Part := ⟨w.extractLsb' 0 8, (w.extractLsb' 8 24).toNat⟩

/-- Byte `j` of a packed bit sequence: bit `k` of the sequence is at position `7 - (k mod 8)` of byte `k div 8`; the unused
low bits of the last byte are 0 (R65). -/
def packedByte (bits : List Bool) (j : Nat) : Byte :=
  BitVec.ofBoolListBE
    [bits.getD (8 * j) false, bits.getD (8 * j + 1) false, bits.getD (8 * j + 2) false, bits.getD (8 * j + 3) false,
     bits.getD (8 * j + 4) false, bits.getD (8 * j + 5) false, bits.getD (8 * j + 6) false, bits.getD (8 * j + 7) false]

/-- The bytes of a bit sequence (R65). -/
def packBits (bits : List Bool) : List Byte := (List.range ((bits.length + 7) / 8)).map (packedByte bits)

/-! ### Reading the logical buffers -/

/-- Element `i` of a buffer of bytes, for `i < n` (R63). -/
def State.bytes (s : State) (w : Window) (n : Nat) : List Byte := (List.range n).map (s.byteAt w)

/-- Word `k` of a window of words (R62, R64). -/
def State.wordAt (s : State) (w : Window) (k : Nat) : Word :=
  wordOfBytes (s.byteAt w (4 * k)) (s.byteAt w (4 * k + 1)) (s.byteAt w (4 * k + 2)) (s.byteAt w (4 * k + 3))

/-- The first `n` words of a window of words. -/
def State.words (s : State) (w : Window) (n : Nat) : List Word := (List.range n).map (s.wordAt w)

/-- `U.TEXT` (R33). -/
def State.textOf (s : State) (u : UnitId) : List Byte := s.bytes ⟨u, .text⟩ (s.unit u).textLen.toNat

/-- `U.DECOMP` (R35). -/
def State.decompOf (s : State) (u : UnitId) : List Byte := s.bytes ⟨u, .decomp⟩ (s.unit u).decompLen.toNat

/-- `RLE.COMP`, a sequence of parts (R34, R64). -/
def State.rleComp (s : State) : List Part := (s.words ⟨.rle, .comp⟩ s.rle.compLen.toNat).map Part.ofWord

/-- Bit `k` of `HUF.COMP` (R65; log entry 15). -/
def State.hufBitAt (s : State) (k : Nat) : Bool := (s.byteAt ⟨.huf, .comp⟩ (k / 8)).getLsbD (7 - k % 8)

/-- `HUF.COMP`, a sequence of bits (R34, R65). -/
def State.hufComp (s : State) : List Bool := (List.range s.huf.compLen.toNat).map s.hufBitAt

/-- `BWT.COMP`, a sequence of bytes (R34, R63). -/
def State.bwtComp (s : State) : List Byte := s.bytes ⟨.bwt, .comp⟩ s.bwt.compLen.toNat

/-- `LZW.COMP`, a sequence of codes (R34, R64). -/
def State.lzwComp (s : State) : List Nat := (s.words ⟨.lzw, .comp⟩ s.lzw.compLen.toNat).map BitVec.toNat

/-- Node `id` of `HUF.NODE`; an entry that is not defined has any value (R38; U10). -/
def State.nodeAt (s : State) (id : Nat) : Node :=
  match s.hufNode[id]? with
  | some n => n
  | none => Config.freeNode s.draw id

/-- `HUF.CODE[b]`: its bits, or `none` where `valid = 0` (R39). -/
def State.codeOf (s : State) (b : Byte) : Option (List Bool) := s.hufCode.get b.toFin

/-! ### Writing the logical buffers: `U.BUF <- seq` replaces the whole buffer and sets its length register (R12, R66) -/

def State.putText (s : State) (u : UnitId) (bs : List Byte) : State :=
  s.setUnit u { s.unit u with textLen := BitVec.ofNat 32 bs.length, text := Mem.ofBytes 0 bs }

def State.putDecomp (s : State) (u : UnitId) (bs : List Byte) : State :=
  s.setUnit u { s.unit u with decompLen := BitVec.ofNat 32 bs.length, decomp := Mem.ofBytes 0 bs }

/-- `U.COMP <- seq`, `seq` being `n` elements laid out as the bytes `bs`. -/
def State.putComp (s : State) (u : UnitId) (n : Nat) (bs : List Byte) : State :=
  s.setUnit u { s.unit u with compLen := BitVec.ofNat 32 n, comp := Mem.ofBytes 0 bs }

def State.putRleComp (s : State) (ps : List Part) : State :=
  s.putComp .rle ps.length (bytesOfWords (ps.map Part.toWord))

def State.putHufComp (s : State) (bits : List Bool) : State := s.putComp .huf bits.length (packBits bits)

def State.putBwtComp (s : State) (bs : List Byte) : State := s.putComp .bwt bs.length bs

def State.putLzwComp (s : State) (codes : List Nat) : State :=
  s.putComp .lzw codes.length (bytesOfWords (codes.map (BitVec.ofNat 32)))

/-! ### Registers (R21 to R31) -/

/-- The registers by name. An offset of the register space that no rule names is `reserved` (R26). -/
inductive Reg where
  | cmd
  | status
  | faultCode
  | faultInfo
  | sentinel
  | phase (u : UnitId)
  | textLen (u : UnitId)
  | compLen (u : UnitId)
  | decompLen (u : UnitId)
  | opos
  | root
  | nnodes
  | reserved
deriving DecidableEq, Repr

/-- The offsets of R21 to R26. -/
def regTable : List (Nat × Reg) :=
  [(0x000, .cmd), (0x004, .status), (0x008, .faultCode), (0x00C, .faultInfo), (0x010, .sentinel),
   (0x040, .phase .rle), (0x044, .textLen .rle), (0x048, .compLen .rle), (0x04C, .decompLen .rle),
   (0x080, .phase .huf), (0x084, .textLen .huf), (0x088, .compLen .huf), (0x08C, .decompLen .huf),
   (0x090, .root), (0x094, .nnodes),
   (0x0C0, .phase .bwt), (0x0C4, .textLen .bwt), (0x0C8, .compLen .bwt), (0x0CC, .decompLen .bwt),
   (0x0D0, .opos),
   (0x100, .phase .lzw), (0x104, .textLen .lzw), (0x108, .compLen .lzw), (0x10C, .decompLen .lzw)]

/-- The register at an offset from `BASE`. -/
def regAt (off : Nat) : Reg := (regTable.lookup off).getD .reserved

/-- The PHASE values of R27. -/
def Phase.code : Phase → BitVec 3
  | .idle => 0
  | .frequenciesComputed => 1
  | .treeBuilt => 2
  | .codesGenerated => 3
  | .encoded => 4
  | .decoded => 5

/-- The 32 bits a register reads as; bits not named read as 0, and CMD and the reserved offsets read 0. -/
def State.readReg (s : State) : Reg → Word
  | .cmd => 0
  | .status => s.statusWord
  | .faultCode => s.faultCode.setWidth 32
  | .faultInfo => s.faultInfo
  | .sentinel => s.sentinel.setWidth 32
  | .phase u => (s.unit u).phase.code.setWidth 32
  | .textLen u => (s.unit u).textLen
  | .compLen u => (s.unit u).compLen
  | .decompLen u => (s.unit u).decompLen
  | .opos => s.bwtOpos
  | .root => s.hufRoot.setWidth 32
  | .nnodes => s.hufNnodes.setWidth 32
  | .reserved => 0

/-- A host write to a register other than CMD, which issues a command instead of storing anything (R21). Writes to
read-only registers and to reserved offsets are ignored (R26, R36); SENTINEL ignores bits 31:8 (R25). -/
def State.writeReg (s : State) (r : Reg) (v : Word) : State :=
  match r with
  | .sentinel => { s with sentinel := v.setWidth 8 }
  | .textLen u => s.setUnit u { s.unit u with textLen := v }
  | .compLen u => s.setUnit u { s.unit u with compLen := v }
  | .opos => { s with bwtOpos := v }
  | .cmd | .status | .faultCode | .faultInfo | .phase _ | .decompLen _ | .root | .nnodes | .reserved => s

end Sys2Proof.Machine
end

