-- ==== Sys2Proof/Machine/Bwt.lean ====
section
/-! DEFINITION. The BWT unit: `BWT.FWD` and `BWT.INV` (spec/41_bwt.md R160 to R171). -/

namespace Sys2Proof.Machine

/-! ### Forward transform (R160 to R166) -/

/-- `lex_lt(a, b)` by unsigned byte value, a proper prefix being less than the longer sequence (R163). -/
def lexLt : List Byte → List Byte → Bool
  | [], [] => false
  | [], _ :: _ => true
  | _ :: _, [] => false
  | a :: as, b :: bs => if a = b then lexLt as bs else decide (a.toNat < b.toNat)

/-- The suffix at `i` does not come after the suffix at `j`. -/
def suffixLe (text : List Byte) (i j : Nat) : Bool := !lexLt (text.drop j) (text.drop i)

/-- `SUFIDX` of the sentinel-extended text: its suffixes' offsets in lexicographic order (R164). -/
def suffixIndices (ext : List Byte) : List Nat :=
  (List.range ext.length).insertionSort fun i j => suffixLe ext i j = true

/-- The character before offset `i`, wrapping to the last character when the offset is 0 (R166). -/
def charBefore (ext : List Byte) (i : Nat) : Byte := ext.getD ((i + ext.length - 1) % ext.length) 0

/-- `COMP` of R165: the character before each sorted suffix. -/
def lastColumn (ext : List Byte) : List Byte := (suffixIndices ext).map (charBefore ext)

/-- `OPOS`: the rank `r` with `SUFIDX[r] = 0` (R164). -/
def originalPos (ext : List Byte) : Nat := (suffixIndices ext).idxOf 0

/-- `S = T ++ [s]` (R160). -/
def extended (s : State) : List Byte := s.textOf .bwt ++ [s.sentinel]

/-- The body of `BWT.FWD`: R165 after its PHASE check. On F_SENTINEL, `COMP_LEN <- 0` and nothing else is written. -/
def bwtFwdBody (s : State) : Ending :=
  if s.bwt.textLen.toNat > s.params.maxLen then raise .len s.bwt.textLen.toNat s
  else if s.bwt.textLen.toNat = 0 then
    .completed ({ s.putBwtComp [] with bwtOpos := 0 }.setPhase .bwt .encoded)
  else if s.sentinel ∈ s.textOf .bwt then raise .sentinel ((s.textOf .bwt).idxOf s.sentinel) (s.dropComp .bwt)
  else
    .completed
      ({ s.putBwtComp (lastColumn (extended s)) with
          bwtSufidx := suffixIndices (extended s)
          bwtOpos := BitVec.ofNat 32 (originalPos (extended s)) }.setPhase .bwt .encoded)

def bwtFwdRule (s : State) : Ending := if s.bwt.phase ≠ .idle then raise .seq 0x30 s else bwtFwdBody s

/-- `BWT.FWD` (R165). -/
def execBwtFwd (s : State) : Host.Outcome State Fault Refusal := runCommand bwtFwdRule s

/-! ### Inverse transform (R168 to R171) -/

/-- `F`: the sequence in ascending unsigned byte order (R168). -/
def sortedColumn (l : List Byte) : List Byte := l.insertionSort fun a b => a.toNat ≤ b.toNat

/-- `Q[c]`: the positions of `c`, ascending (R168). -/
def bucket (l : List Byte) (c : Byte) : List Nat := (List.range l.length).filter fun i => l[i]? == some c

/-- The bucket queues of R168. -/
def buckets (l : List Byte) : Vector (List Nat) 256 := Vector.ofFn fun c => bucket l (BitVec.ofFin c)

/-- `LSHIFT[r] <- pop_front(Q[F[r]])` for each rank in ascending order (R169). A queue never runs empty here, because
`F` holds each byte as often as its bucket does. -/
def leftShift : (f : List Byte) → Vector (List Nat) 256 → List Nat
  | [], _ => []
  | c :: f, q =>
    match q.get c.toFin with
    | [] => leftShift f q
    | i :: rest => i :: leftShift f (q.set c.toNat rest c.isLt)

/-- `LF`, the inverse permutation of `LSHIFT`: `LF[LSHIFT[r]] = r` (R170). -/
def inversePermutation (lshift : List Nat) : List Nat :=
  (List.range lshift.length).map fun p => lshift.idxOf p

/-- The walk of R170 and R171, `n` steps from `p`: what it emits, or F_BWT_STREAM where it comes back to a position
already seen. -/
def walkBack (l : List Byte) (lf : List Nat) :
    (n : Nat) → (p : Nat) → (seen : List Nat) → (em : List Byte) → Except Trap (List Byte)
  | 0, _, _, em => .ok em
  | n + 1, p, seen, em =>
    if p ∈ seen then .error ⟨.bwtStream, 0⟩
    else walkBack l lf n (lf.getD p 0) (p :: seen) (em ++ [l.getD p 0])

/-- The inverse of R171 on a non-empty sequence: the four checks in their order, the walk, the result reversed and the
trailing sentinel dropped. -/
def bwtInverse (l : List Byte) (sentinel : Byte) (opos : Nat) : Except Trap (List Byte) :=
  if opos ≥ l.length then .error ⟨.bwtStream, 0⟩
  else if l.count sentinel ≠ 1 then .error ⟨.bwtStream, 0⟩
  else if l[opos]? ≠ some sentinel then .error ⟨.bwtStream, 0⟩
  else
    (walkBack l (inversePermutation (leftShift (sortedColumn l) (buckets l))) l.length opos [] []).map fun em =>
      em.reverse.take (l.length - 1)

/-- The body of `BWT.INV`: R171 after its PHASE check. On F_BWT_STREAM, `DECOMP_LEN <- 0` (R245). -/
def bwtInvBody (s : State) : Ending :=
  if s.bwt.compLen.toNat > s.params.cap then raise .len s.bwt.compLen.toNat s
  else if s.bwt.compLen.toNat = 0 then .completed ((s.putDecomp .bwt []).setPhase .bwt .decoded)
  else
    match bwtInverse s.bwtComp s.sentinel s.bwtOpos.toNat with
    | .error t => raise t.kind t.info (s.dropDecomp .bwt)
    | .ok out => .completed ((s.putDecomp .bwt out).setPhase .bwt .decoded)

def bwtInvRule (s : State) : Ending := if s.bwt.phase ≠ .encoded then raise .seq 0x31 s else bwtInvBody s

/-- `BWT.INV` (R171). -/
def execBwtInv (s : State) : Host.Outcome State Fault Refusal := runCommand bwtInvRule s

end Sys2Proof.Machine
end

