-- ==== Sys2Proof/Machine/Rle.lean ====
section
/-! DEFINITION. The RLE unit: `RLE.ENC` and `RLE.DEC` (spec/43_rle.md R200 to R204). -/

namespace Sys2Proof.Machine

/-- The scan of R202 with a run of `sym` open, `count` symbols long so far: each maximal run gives one part. -/
def rleScan (sym : Byte) (count : Nat) : List Byte → List Part
  | [] => [⟨sym, count⟩]
  | x :: rest => if x = sym then rleScan sym (count + 1) rest else ⟨sym, count⟩ :: rleScan x 1 rest

/-- "for each maximal run of identical symbols, emit (symbol, run length)" (R202). -/
def rleEncode : List Byte → List Part
  | [] => []
  | x :: rest => rleScan x 1 rest

/-- The text a sequence of parts stands for: "expands each part by repeating the symbol run-length times, in order". -/
def expand (ps : List Part) : List Byte := ps.flatMap fun p => List.replicate p.count p.sym

/-- The expansion of R204 from part `k` on, `out` being the text so far; the checks in R249's order. -/
def rleDecode (cap : Nat) : (k : Nat) → List Part → (out : List Byte) → Except Trap (List Byte)
  | _, [], out => .ok out
  | k, p :: rest, out =>
    if p.count = 0 then .error ⟨.rleZero, k⟩
    else if out.length + p.count > cap then .error ⟨.overflow, k⟩
    else rleDecode cap (k + 1) rest (out ++ List.replicate p.count p.sym)

/-- The body of `RLE.ENC`: R202 after its PHASE check (R215). -/
def rleEncBody (s : State) : Ending :=
  if s.rle.textLen.toNat > s.params.cap then raise .len s.rle.textLen.toNat s
  else .completed ((s.putRleComp (rleEncode (s.textOf .rle))).setPhase .rle .encoded)

/-- The body of `RLE.DEC`: R204 after its PHASE check. On F_RLE_ZERO and F_OVERFLOW, `DECOMP_LEN <- 0` (R245). -/
def rleDecBody (s : State) : Ending :=
  if s.rle.compLen.toNat > s.params.cap then raise .len s.rle.compLen.toNat s
  else
    match rleDecode s.params.cap 0 s.rleComp [] with
    | .error t => raise t.kind t.info (s.dropDecomp .rle)
    | .ok out => .completed ((s.putDecomp .rle out).setPhase .rle .decoded)

def rleEncRule (s : State) : Ending := if s.rle.phase ≠ .idle then raise .seq 0x10 s else rleEncBody s

def rleDecRule (s : State) : Ending := if s.rle.phase ≠ .encoded then raise .seq 0x11 s else rleDecBody s

/-- `RLE.ENC` (R202). -/
def execRleEnc (s : State) : Host.Outcome State Fault Refusal := runCommand rleEncRule s

/-- `RLE.DEC` (R204). -/
def execRleDec (s : State) : Host.Outcome State Fault Refusal := runCommand rleDecRule s

end Sys2Proof.Machine
end

