-- ==== Sys2Proof/Machine/Composite.lean ====
section
/-! DEFINITION. The BWT+RLE composite and the system command (spec/44_composite_system.md R215 to R222). A composite
command runs the bodies of two unit commands; a fault ends it where it is raised and what was already written stays. -/

namespace Sys2Proof.Machine

def bwtrleEncRule (s : State) : Ending :=
  if s.bwt.phase ≠ .idle ∨ s.rle.phase ≠ .idle then raise .seq 0x50 s
  else (bwtFwdBody s).andThen fun t => rleEncBody (t.putText .rle t.bwtComp)

/-- `BWTRLE.ENC` (R216). -/
def execBwtrleEnc (s : State) : Host.Outcome State Fault Refusal := runCommand bwtrleEncRule s

/-- "the least i < min(|a|, |b|) with a[i] != b[i], or min(|a|, |b|) if there is none" (R217). -/
def firstDifference : List Byte → List Byte → Nat
  | x :: a, y :: b => if x = y then firstDifference a b + 1 else 0
  | _, _ => 0

/-- The length check and the consistency check of R217 between `RLE.DECOMP` and `BWT.COMP`, then the body of `BWT.INV`
(log entry 24). -/
def checkedBwtInv (s : State) : Ending :=
  if s.bwt.compLen.toNat > s.params.cap then raise .len s.bwt.compLen.toNat s
  else if s.decompOf .rle ≠ s.bwtComp then
    raise .composite (firstDifference (s.decompOf .rle) s.bwtComp) (s.dropDecomp .bwt)
  else bwtInvBody s

def bwtrleDecRule (s : State) : Ending :=
  if s.rle.phase ≠ .encoded ∨ s.bwt.phase ≠ .encoded then raise .seq 0x51 s
  else (rleDecBody s).andThen checkedBwtInv

/-- `BWTRLE.DEC` (R217). -/
def execBwtrleDec (s : State) : Host.Outcome State Fault Refusal := runCommand bwtrleDecRule s

/-- `BLK.RST` (R222): the reset values, whatever the state; it sets no flag (R93). -/
def execBlkRst (s : State) : Host.Outcome State Fault Refusal := .next s.resetBlock

end Sys2Proof.Machine
end

