-- ==== Sys2Proof/Machine/PriorityQueue.lean ====
section
/-! DEFINITION. The priority queue of the Huffman tree builder (spec/40_huffman.md R120 to R126). Its contract, "the only
property of the queue that is normative" (R126), is `pqPop`; the tree builder uses that. The array-backed binary heap of
R120 to R125 is written out beside it, as the reference form of an implementation (log entry 14). -/

namespace Sys2Proof.Machine

/-! ### The contract (R126, R132) -/

/-- The elements no element of the queue outranks: what a pop may return. -/
def pqCandidates (outranks : Nat → Nat → Bool) (q : List Nat) : List Nat :=
  q.filter fun y => q.all fun z => !outranks z y

/-- The candidate a choice number picks; a choice number is used modulo how many candidates there are. -/
def pickCandidate (choice : Nat) : List Nat → Option Nat
  | [] => none
  | [x] => some x
  | x :: y :: rest => (x :: y :: rest)[choice % (x :: y :: rest).length]?

/-- `pop()`: an element no element outranks, and the queue without it; on the empty queue "an empty result, never an
error" (R124). -/
def pqPop (outranks : Nat → Nat → Bool) (choice : Nat) (q : List Nat) : Option (Nat × List Nat) :=
  (pickCandidate choice (pqCandidates outranks q)).map fun x => (x, q.erase x)

/-- `push(x)` "adds exactly `x`" (R126). -/
def pqPush (q : List Nat) (x : Nat) : List Nat := q ++ [x]

/-! ### The heap (R120 to R125) -/

/-- `parent(i) = (i - 1) div 2`, for `i >= 1` (R121). -/
def heapParent (i : Nat) : Nat := (i - 1) / 2

/-- `swap A[i], A[j]`. -/
def heapSwap (a : List Nat) (i j : Nat) : List Nat :=
  match a[i]?, a[j]? with
  | some x, some y => (a.set i y).set j x
  | _, _ => a

/-- `outranks(A[i], A[j])`. -/
def heapOutranks (outranks : Nat → Nat → Bool) (a : List Nat) (i j : Nat) : Bool :=
  match a[i]?, a[j]? with
  | some x, some y => outranks x y
  | _, _ => false

/-- The loop of R122, at most `fuel` turns (`i` turns are enough). -/
def heapSiftUp (outranks : Nat → Nat → Bool) : (fuel : Nat) → List Nat → (i : Nat) → List Nat
  | 0, a, _ => a
  | fuel + 1, a, i =>
    if i > 0 ∧ heapOutranks outranks a i (heapParent i) = true then
      heapSiftUp outranks fuel (heapSwap a i (heapParent i)) (heapParent i)
    else a

/-- `push(x)`: "appends then sifts up while a child outranks its parent" (R122). -/
def heapPush (outranks : Nat → Nat → Bool) (a : List Nat) (x : Nat) : List Nat :=
  heapSiftUp outranks a.length (a ++ [x]) a.length

/-- The child a sift-down selects at `i` below `bound`: the right one only if it outranks the left (R123). -/
def heapChild (outranks : Nat → Nat → Bool) (a : List Nat) (i bound : Nat) : Nat :=
  if 2 * i + 2 < bound ∧ heapOutranks outranks a (2 * i + 2) (2 * i + 1) = true then 2 * i + 2 else 2 * i + 1

/-- `sift_down(i, bound)` of R123, at most `fuel` turns (`bound` turns are enough). -/
def heapSiftDown (outranks : Nat → Nat → Bool) : (fuel : Nat) → List Nat → (i bound : Nat) → List Nat
  | 0, a, _, _ => a
  | fuel + 1, a, i, bound =>
    if 2 * i + 1 ≥ bound then a
    else if heapOutranks outranks a (heapChild outranks a i bound) i = true then
      heapSiftDown outranks fuel (heapSwap a (heapChild outranks a i bound) i) (heapChild outranks a i bound) bound
    else a

/-- `pop()`: "swaps root with the last element, shrinks, then sifts down" (R123); `none` on the empty queue (R124). -/
def heapPop (outranks : Nat → Nat → Bool) (a : List Nat) : Option (Nat × List Nat) :=
  match a with
  | [] => none
  | x :: rest =>
    let b := (heapSwap (x :: rest) 0 rest.length).take rest.length
    some (x, heapSiftDown outranks b.length b 0 b.length)

/-- The loop of R125: for `end` downward to 1, `swap A[0], A[end]; sift_down(0, end)`. -/
def heapSortLoop (outranks : Nat → Nat → Bool) : (stop : Nat) → List Nat → List Nat
  | 0, a => a
  | stop + 1, a => heapSortLoop outranks stop (heapSiftDown outranks (stop + 1) (heapSwap a 0 (stop + 1)) 0 (stop + 1))

/-- `into_sorted_vec()` (R125): ascending, the highest-ranked element last. No command uses it. -/
def heapIntoSortedVec (outranks : Nat → Nat → Bool) (a : List Nat) : List Nat :=
  heapSortLoop outranks (a.length - 1) a

/-- "the heap property kept between operations": no element outranks its parent (R120). -/
def HeapProperty (outranks : Nat → Nat → Bool) (a : List Nat) : Prop :=
  ∀ i, 1 ≤ i → i < a.length → heapOutranks outranks a i (heapParent i) = false

end Sys2Proof.Machine
end

