-- ==== Sys2Proof/Machine/Huffman.lean ====
section
/-! DEFINITION. The Huffman unit: `HUF.BUILD`, `HUF.ENC`, `HUF.DEC` (spec/40_huffman.md R127 to R149). -/

namespace Sys2Proof.Machine

/-! ### Tree builder (R127 to R136) -/

/-- `FREQ[b]` for every byte `b` (R127). -/
def frequencies (text : List Byte) : Vector Nat 256 := Vector.ofFn fun b => text.count (BitVec.ofFin b)

/-- The 256 bytes in ascending order. -/
def allBytes : List Byte := (List.range 256).map (BitVec.ofNat 8)

/-- One Leaf per byte that occurs, in ascending byte order (R128). -/
def seedLeaves (freq : Vector Nat 256) : List Node :=
  allBytes.filterMap fun b => if freq.get b.toFin > 0 then some (.leaf b (freq.get b.toFin)) else none

def nodeFreq : Node → Nat
  | .leaf _ f => f
  | .internal f _ _ => f

/-- `NODE[i].freq` of an arena under construction; only ids of the arena are asked for. -/
def arenaFreq (arena : List Node) (i : Nat) : Nat :=
  match arena[i]? with
  | some n => nodeFreq n
  | none => 0

/-- The rank of R129: by frequency under `ANY`, by (frequency, id) under `ORDERED`. -/
def outranks (tie : HufTie) (arena : List Node) (a b : Nat) : Bool :=
  match tie with
  | .any => decide (arenaFreq arena a < arenaFreq arena b)
  | .ordered =>
    decide (arenaFreq arena a < arenaFreq arena b) ||
      (decide (arenaFreq arena a = arenaFreq arena b) && decide (a < b))

/-- `pop(PQ)` under a tie mode; `choice` is read only where several nodes may be popped. -/
def popNode (tie : HufTie) (choice : Nat) (arena : List Node) (pq : List Nat) : Option (Nat × List Nat) :=
  pqPop (outranks tie arena) choice pq

/-- The merge loop of R130, at most `fuel` turns (one turn less than `PQ` holds nodes is enough). The `k`-th choice a
command makes is `choices k`; the two pops of the turn that fills `NODE[NNODES]` are numbered from `NNODES`. -/
def mergeNodes (tie : HufTie) (choices : Nat → Nat) : (fuel : Nat) → List Node → List Nat → List Node × List Nat
  | 0, arena, pq => (arena, pq)
  | fuel + 1, arena, pq =>
    if pq.length ≤ 1 then (arena, pq)
    else
      match popNode tie (choices (2 * arena.length)) arena pq with
      | none => (arena, pq)
      | some (a, pq1) =>
        match popNode tie (choices (2 * arena.length + 1)) arena pq1 with
        | none => (arena, pq)
        | some (b, pq2) =>
          mergeNodes tie choices fuel
            (arena ++ [.internal (arenaFreq arena a + arenaFreq arena b) a b]) (pqPush pq2 arena.length)

/-- Seeding and merging: the arena, and the nodes left in `PQ` (one, or none for the empty text; R130). -/
def buildTree (tie : HufTie) (choices : Nat → Nat) (freq : Vector Nat 256) : List Node × List Nat :=
  mergeNodes tie choices (seedLeaves freq).length (seedLeaves freq) (List.range (seedLeaves freq).length)

/-- `walk(i, path)` of R135: the paths to the leaves below node `i`. Children have smaller ids, so `i + 1` levels of fuel
are enough. -/
def walkCodes (arena : List Node) : (fuel : Nat) → (i : Nat) → (path : List Bool) → List (Byte × List Bool)
  | 0, _, _ => []
  | fuel + 1, i, path =>
    match arena[i]? with
    | none => []
    | some (.leaf sym _) => [(sym, path)]
    | some (.internal _ l r) =>
      walkCodes arena fuel l (path ++ [false]) ++ walkCodes arena fuel r (path ++ [true])

/-- The codes of a tree: the single leaf has the one-bit code `0` (R136), every other leaf its path (R135), and where
there is no tree there is no code (R134). -/
def treeCodes (arena : List Node) : (root : Option Nat) → List (Byte × List Bool)
  | none => []
  | some r =>
    match arena[r]? with
    | some (.leaf sym _) => [(sym, [false])]
    | _ => walkCodes arena (r + 1) r []

/-- `HUF.CODE`: valid exactly for the bytes that have a code (R39, R140). -/
def codeTable (codes : List (Byte × List Bool)) : Vector (Option (List Bool)) 256 :=
  Vector.ofFn fun b => codes.lookup (BitVec.ofFin b)

/-- `HUF.ROOT` for what the merge loop leaves in `PQ`: the one node, or `NONE` (R130). -/
def rootOf (pq : List Nat) : BitVec 9 :=
  match pq with
  | [] => rootNone
  | r :: _ => BitVec.ofNat 9 r

/-- The root a ROOT register value names. -/
def rootId (root : BitVec 9) : Option Nat := if root = rootNone then none else some root.toNat

/-- Step 1 of R140: the frequencies; PHASE FrequenciesComputed. -/
def hufCount (s : State) : State :=
  { s with hufFreq := frequencies (s.textOf .huf) }.setPhase .huf .frequenciesComputed

/-- Steps 2 and 3 of R140: the tree; PHASE TreeBuilt. -/
def hufGrow (s : State) : State :=
  let tree := buildTree s.params.hufTie (Config.tieChoice s.draw) s.hufFreq
  { s with hufNode := tree.1, hufNnodes := BitVec.ofNat 10 tree.1.length, hufRoot := rootOf tree.2 }.setPhase
    .huf .treeBuilt

/-- Step 4 of R140: the code table; PHASE CodesGenerated. -/
def hufAssign (s : State) : State :=
  { s with hufCode := codeTable (treeCodes s.hufNode (rootId s.hufRoot)) }.setPhase .huf .codesGenerated

/-- R140. The intermediate PHASEs are passed through inside this one step and never seen (R27). -/
def hufBuildRule (s : State) : Ending :=
  if s.huf.phase ≠ .idle then raise .seq 0x20 s
  else if s.huf.textLen.toNat > s.params.cap then raise .len s.huf.textLen.toNat s
  else .completed (hufAssign (hufGrow (hufCount s)))

/-- `HUF.BUILD` (R140). -/
def execHufBuild (s : State) : Host.Outcome State Fault Refusal := runCommand hufBuildRule s

/-! ### Encoder (R145) -/

/-- "concatenate each input character's code, in order", from byte `i` on. -/
def hufEncode (code : Byte → Option (List Bool)) : (i : Nat) → List Byte → (out : List Bool) → Except Trap (List Bool)
  | _, [], out => .ok out
  | i, b :: rest, out =>
    match code b with
    | none => .error ⟨.hufNoCode, i⟩
    | some bits => hufEncode code (i + 1) rest (out ++ bits)

def hufEncRule (s : State) : Ending :=
  if s.huf.phase ≠ .codesGenerated then raise .seq 0x21 s
  else if s.huf.textLen.toNat > s.params.cap then raise .len s.huf.textLen.toNat s
  else
    match hufEncode s.codeOf 0 (s.textOf .huf) [] with
    | .error t => raise t.kind t.info (s.dropComp .huf)
    | .ok out => .completed ((s.putHufComp out).setPhase .huf .encoded)

/-- `HUF.ENC` (R145). -/
def execHufEnc (s : State) : Host.Outcome State Fault Refusal := runCommand hufEncRule s

/-! ### Decoder (R148, R149) -/

/-- Decoding with a tree that is one leaf: each 0 bit gives the symbol, a 1 bit is F_HUF_PATH. -/
def hufDecodeLeaf (cap : Nat) (sym : Byte) : (k : Nat) → List Bool → (out : List Byte) → Except Trap (List Byte)
  | _, [], out => .ok out
  | k, b :: rest, out =>
    if b then .error ⟨.hufPath, k⟩
    else if out.length = cap then .error ⟨.overflow, k⟩
    else hufDecodeLeaf cap sym (k + 1) rest (out ++ [sym])

/-- Decoding with a tree whose root is Internal: `cur` is the node the walk is at, with its children `l` and `r`; at a
leaf the symbol is emitted and the walk is back at the root (`root`, `rl`, `rr`). -/
def hufDecodeTree (node : Nat → Node) (cap m root rl rr : Nat) :
    (k : Nat) → List Bool → (cur l r : Nat) → (out : List Byte) → Except Trap (List Byte)
  | _, [], cur, _, _, out => if cur ≠ root then .error ⟨.hufPath, m⟩ else .ok out
  | k, b :: rest, _, l, r, out =>
    match node (if b then r else l) with
    | .leaf sym _ =>
      if out.length = cap then .error ⟨.overflow, k⟩
      else hufDecodeTree node cap m root rl rr (k + 1) rest root rl rr (out ++ [sym])
    | .internal _ l' r' => hufDecodeTree node cap m root rl rr (k + 1) rest (if b then r else l) l' r' out

/-- The decoder of R148 on a whole bit sequence; an empty one gives the empty text whatever the tree. -/
def hufDecode (node : Nat → Node) (cap : Nat) (root : BitVec 9) (bits : List Bool) : Except Trap (List Byte) :=
  match bits with
  | [] => .ok []
  | _ :: _ =>
    if root = rootNone then .error ⟨.hufNoTree, 0⟩
    else
      match node root.toNat with
      | .leaf sym _ => hufDecodeLeaf cap sym 0 bits []
      | .internal _ l r => hufDecodeTree node cap bits.length root.toNat l r 0 bits root.toNat l r []

def hufDecRule (s : State) : Ending :=
  if s.huf.phase ≠ .encoded then raise .seq 0x22 s
  else if s.huf.compLen.toNat > s.params.hufBitsCap then raise .len s.huf.compLen.toNat s
  else
    match hufDecode s.nodeAt s.params.cap s.hufRoot s.hufComp with
    | .error t => raise t.kind t.info (s.dropDecomp .huf)
    | .ok out => .completed ((s.putDecomp .huf out).setPhase .huf .decoded)

/-- `HUF.DEC` (R148). -/
def execHufDec (s : State) : Host.Outcome State Fault Refusal := runCommand hufDecRule s

end Sys2Proof.Machine
end

