-- ==== Sys2Proof/Machine/Lzw.lean ====
section
/-! DEFINITION. The LZW unit: `LZW.ENC` and `LZW.DEC` (spec/42_lzw.md R180 to R189). The dictionary is the list of its
patterns in code order: the pattern of code `k` is the `k`-th, and `NEXT`, the next assignable code, is its length, since
"at any moment the codes present are exactly `0 .. NEXT-1`" (R181). -/

namespace Sys2Proof.Machine

/-- The seed: for each byte `b`, pattern `[b]` has code `b` (R180). -/
def lzwSeed : List (List Byte) := (List.range 256).map fun b => [BitVec.ofNat 8 b]

/-- The code of a pattern of the dictionary. -/
def lzwCode (dict : List (List Byte)) (p : List Byte) : Nat := dict.idxOf p

/-- The loop of R184 with the candidate pattern `p`; the end of the text flushes the final pattern. -/
def lzwEncodeLoop : (dict : List (List Byte)) → (p : List Byte) → List Byte → List Nat
  | dict, p, [] => [lzwCode dict p]
  | dict, p, c :: rest =>
    if p ++ [c] ∈ dict then lzwEncodeLoop dict (p ++ [c]) rest
    else lzwCode dict p :: lzwEncodeLoop (dict ++ [p ++ [c]]) [c] rest

/-- `LZW.ENC` on a text (R184); the empty text emits no code. -/
def lzwEncode : List Byte → List Nat
  | [] => []
  | c :: rest => lzwEncodeLoop lzwSeed [c] rest

/-- The string of code `k`: its pattern where it is present (`k < NEXT`), else the previous string and its first
character (R186, R187). -/
def lzwString (dict : List (List Byte)) (prev : List Byte) (k : Nat) : List Byte :=
  match dict[k]? with
  | some p => p
  | none => prev ++ prev.take 1

/-- The loop of R188 from code `j` on. -/
def lzwDecodeLoop (cap : Nat) :
    (dict : List (List Byte)) → (prev out : List Byte) → (j : Nat) → List Nat → Except Trap (List Byte)
  | _, _, out, _, [] => .ok out
  | dict, prev, out, j, k :: rest =>
    let cur := lzwString dict prev k
    if out.length + cur.length > cap then .error ⟨.overflow, j⟩
    else lzwDecodeLoop cap (dict ++ [prev ++ cur.take 1]) cur (out ++ cur) (j + 1) rest

/-- `LZW.DEC` on a sequence of codes (R188): the guard of the empty sequence, the first code, the loop. -/
def lzwDecode (cap : Nat) : List Nat → Except Trap (List Byte)
  | [] => .ok []
  | k0 :: rest =>
    if k0 ≥ 256 then .error ⟨.lzwFirst, k0⟩
    else lzwDecodeLoop cap lzwSeed [BitVec.ofNat 8 k0] [BitVec.ofNat 8 k0] 1 rest

def lzwEncRule (s : State) : Ending :=
  if s.lzw.phase ≠ .idle then raise .seq 0x40 s
  else if s.lzw.textLen.toNat > s.params.cap then raise .len s.lzw.textLen.toNat s
  else .completed ((s.putLzwComp (lzwEncode (s.textOf .lzw))).setPhase .lzw .encoded)

/-- `LZW.ENC` (R184). -/
def execLzwEnc (s : State) : Host.Outcome State Fault Refusal := runCommand lzwEncRule s

/-- On F_LZW_FIRST and F_OVERFLOW, `DECOMP_LEN <- 0` (R189). -/
def lzwDecRule (s : State) : Ending :=
  if s.lzw.phase ≠ .encoded then raise .seq 0x41 s
  else if s.lzw.compLen.toNat > s.params.cap then raise .len s.lzw.compLen.toNat s
  else
    match lzwDecode s.params.cap s.lzwComp with
    | .error t => raise t.kind t.info (s.dropDecomp .lzw)
    | .ok out => .completed ((s.putDecomp .lzw out).setPhase .lzw .decoded)

/-- `LZW.DEC` (R188). -/
def execLzwDec (s : State) : Host.Outcome State Fault Refusal := runCommand lzwDecRule s

end Sys2Proof.Machine
end

