-- ==== Sys2Proof/WellFormed.lean ====
section
/-! DEFINITION. Which fields make a command word that selects a command (spec/30_encoding.md R90, R94, R95). A command
itself has no operand, so there is nothing ill-formed to write in `Instr`; what can be ill-formed is the word. -/

namespace Sys2Proof

/-- Bits 31:8 "reserved, must be 0" (R90). -/
def CommandFields.rsvZero (f : CommandFields) : Bool := f.rsv == 0

/-- The unit groups of R90: 0 system, 1 RLE, 2 HUF, 3 BWT, 4 LZW, 5 composite. -/
def CommandFields.unitKnown (f : CommandFields) : Bool := decide (f.unit.toNat ≤ 5)

/-- The functions each group has in R94. -/
def CommandFields.fnKnown (f : CommandFields) : Bool :=
  match f.unit.toNat with
  | 0 => f.fn == 0xF
  | 2 => decide (f.fn.toNat ≤ 2)
  | _ => decide (f.fn.toNat ≤ 1)

/-- The three checks together. -/
def CommandFields.wf (f : CommandFields) : Bool := f.rsvZero && f.unitKnown && f.fnKnown

/-- The fields of each command, read off the `unit` and `fn` columns of R94. -/
def Instr.fields : Instr → CommandFields
  | .blkRst => ⟨0, 0x0, 0xF⟩
  | .rleEnc => ⟨0, 0x1, 0x0⟩
  | .rleDec => ⟨0, 0x1, 0x1⟩
  | .hufBuild => ⟨0, 0x2, 0x0⟩
  | .hufEnc => ⟨0, 0x2, 0x1⟩
  | .hufDec => ⟨0, 0x2, 0x2⟩
  | .bwtFwd => ⟨0, 0x3, 0x0⟩
  | .bwtInv => ⟨0, 0x3, 0x1⟩
  | .lzwEnc => ⟨0, 0x4, 0x0⟩
  | .lzwDec => ⟨0, 0x4, 0x1⟩
  | .bwtrleEnc => ⟨0, 0x5, 0x0⟩
  | .bwtrleDec => ⟨0, 0x5, 0x1⟩

/-- A command is well formed when its word's fields are. -/
def Instr.wf (i : Instr) : Bool := i.fields.wf

end Sys2Proof
end

