-- ==== Sys2Proof/Decode.lean ====
section
/-! DEFINITION. The decoder of a command word, and after it the encoder (spec/30_encoding.md R90, R94 to R96). The decoder
compares the whole word with the rows of R94 (mask 0xFFFFFFFF in every row); the encoder is written apart from it, from
the field columns (`unit`, `fn`) of the same table. -/

namespace Sys2Proof

/-- One row of R94: the whole word and the command it selects. -/
structure OpcodeRow where
  word  : Word
  instr : Instr
deriving DecidableEq, Repr

/-- The opcode map of R94, in its order. -/
def opcodeRows : List OpcodeRow :=
  [⟨0x0000000F, .blkRst⟩,
   ⟨0x00000010, .rleEnc⟩, ⟨0x00000011, .rleDec⟩,
   ⟨0x00000020, .hufBuild⟩, ⟨0x00000021, .hufEnc⟩, ⟨0x00000022, .hufDec⟩,
   ⟨0x00000030, .bwtFwd⟩, ⟨0x00000031, .bwtInv⟩,
   ⟨0x00000040, .lzwEnc⟩, ⟨0x00000041, .lzwDec⟩,
   ⟨0x00000050, .bwtrleEnc⟩, ⟨0x00000051, .bwtrleDec⟩]

/-- The command a word selects, if any: "decoded by equality with a row of rule R94" (R96). -/
def decode (w : Word) : Option Instr :=
  (opcodeRows.find? fun row => row.word == w).map OpcodeRow.instr

/-- Why a word selects no command (R95), or why bytes make no word. -/
inductive Unselected where
  /-- fewer than the four bytes of a command word -/
  | tooShort
  /-- `w[31:8] != 0` -/
  | reservedBitsSet
  /-- `w[31:8] = 0` and the opcode `w[7:0]` is none of R94's -/
  | unknownOpcode (opcode : Byte)
deriving DecidableEq, Repr

/-- Decoding with the reason of a rejection; every word not in R94 is an *unselected* encoding (R95). -/
def decodeWord (w : Word) : Except Unselected Instr :=
  match decode w with
  | some i => .ok i
  | none => if w.extractLsb' 8 24 = 0 then .error (.unknownOpcode (w.extractLsb' 0 8)) else .error .reservedBitsSet

/-- Decoding from bytes in ascending address order, little-endian (R62): the command and the bytes after its word. -/
def decodeBytes : List Byte → Except Unselected (Instr × List Byte)
  | b0 :: b1 :: b2 :: b3 :: rest => (decodeWord (b3 ++ b2 ++ b1 ++ b0)).map fun i => (i, rest)
  | _ => .error .tooShort

/-- A command word from its fields: `rsv` in bits 31:8, `unit` in 7:4, `fn` in 3:0 (R90). -/
def CommandFields.word (f : CommandFields) : Word := f.rsv ++ f.unit ++ f.fn

/-- The word of a command, from the field columns of R94. -/
def encode (i : Instr) : Word := i.fields.word

/-- The word of a command as the four bytes a little-endian bus carries (R62). -/
def encodeBytes (i : Instr) : List Byte :=
  [(encode i).extractLsb' 0 8, (encode i).extractLsb' 8 8, (encode i).extractLsb' 16 8, (encode i).extractLsb' 24 8]

/-- The 32-bit command word whose low `nbits` bits are those of `w` and whose other bits are 0. -/
def tableWord (nbits w : Nat) : Word := BitVec.ofNat 32 (w % 2 ^ nbits)

/-- What the decoder reads from an instruction of the opcode table, numbered as the table numbers its bits. -/
def decodeTableWord (nbits w : Nat) : Option Instr := decode (tableWord nbits w)

end Sys2Proof
end

