-- ==== Sys2Proof/Machine/HostPort.lean ====
section
/-! DEFINITION. What the block does with one host action: the address map (spec/20_memory.md R60, R61, R72), the accesses
that have a meaning (R70, R288), reads (10_state.md R36), writes, and the acceptance of a CMD write (30_encoding.md R92). -/

namespace Sys2Proof.Machine

/-- Where an address points: an offset of the register space, or an offset of a window. -/
inductive Place where
  | register (off : Nat)
  | window (w : Window) (off : Nat)
deriving DecidableEq, Repr

/-- The region an address is in, if it is in one (R60, R72). -/
def placeOf (p : Params) (addr : Nat) : Option Place :=
  if p.base ≤ addr ∧ addr < p.base + regSpaceSize then some (.register (addr - p.base))
  else
    (allWindows.find? fun w =>
        decide (p.windowBase w ≤ addr) && decide (addr < p.windowBase w + p.windowSize w)).map fun w =>
      .window w (addr - p.windowBase w)

/-- Why an access has no meaning. -/
inductive BadAccess where
  | fault (f : Fault)
  | refusal (r : Refusal)
deriving DecidableEq, Repr

def BadAccess.outcome : BadAccess → Host.Outcome State Fault Refusal
  | .fault f => .fault f
  | .refusal r => .refused r

/-- The place of an access of `size` bytes, if the access has a meaning (R70): registers by aligned 32-bit accesses only,
windows by aligned 8-, 16- or 32-bit accesses that lie inside the window (log entries 11 and 12). -/
def accessOf (p : Params) (addr size : Nat) : Except BadAccess Place :=
  match placeOf p addr with
  | none => .error (.fault .outsideMap)
  | some (.register off) =>
    if size ≠ 4 then .error (.refusal .badWidth)
    else if off % 4 ≠ 0 then .error (.refusal .misaligned)
    else .ok (.register off)
  | some (.window w off) =>
    if size ≠ 1 ∧ size ≠ 2 ∧ size ≠ 4 then .error (.refusal .badWidth)
    else if off % size ≠ 0 then .error (.refusal .misaligned)
    else if off + size > p.windowSize w then .error (.fault .outsideMap)
    else .ok (.window w off)

/-! ### Reads -/

/-- How many bits of a window hold an element below its buffer's length register (R63 to R65). The bits of a window are
counted from its first byte, in each byte from the most significant bit down, as R65 counts those of `HUF.COMP`. -/
def State.liveBits (s : State) (w : Window) : Nat :=
  match w.unit, w.kind with
  | u, .text => 8 * (s.unit u).textLen.toNat
  | u, .decomp => 8 * (s.unit u).decompLen.toNat
  | .rle, .comp => 32 * s.rle.compLen.toNat
  | .lzw, .comp => 32 * s.lzw.compLen.toNat
  | .bwt, .comp => 8 * s.bwt.compLen.toNat
  | .huf, .comp => s.huf.compLen.toNat

/-- The byte a host read finds: "Reading an element at or beyond a buffer's length register returns an unspecified
value" (R36), even where something was written there (log entry 13). A byte of `HUF.COMP` holds eight elements, and each
bit is below COMP_LEN or is not (log entry 15). -/
def State.hostByteAt (s : State) (w : Window) (off : Nat) : Byte :=
  firstBits (s.liveBits w - 8 * off) (s.byteAt w off) (Config.freeByte s.draw w off)

/-- The data of a host read of 1, 2 or 4 bytes, little-endian, zero above (R62). -/
def State.hostRead (s : State) (w : Window) (off size : Nat) : Word :=
  wordOfBytes (s.hostByteAt w off)
    (if size ≥ 2 then s.hostByteAt w (off + 1) else 0)
    (if size ≥ 4 then s.hostByteAt w (off + 2) else 0)
    (if size ≥ 4 then s.hostByteAt w (off + 3) else 0)

/-- The data a read of a place returns; it changes no state of the block (R69). -/
def State.readPlace (s : State) (pl : Place) (size : Nat) : Word :=
  match pl with
  | .register off => s.readReg (regAt off)
  | .window w off => s.hostRead w off size

/-! ### Writes -/

/-- Replace the listed bytes of a window. -/
def State.setMem (s : State) (w : Window) (m : Mem) : State :=
  match w.kind with
  | .text => s.setUnit w.unit { s.unit w.unit with text := m }
  | .comp => s.setUnit w.unit { s.unit w.unit with comp := m }
  | .decomp => s.setUnit w.unit { s.unit w.unit with decomp := m }

/-- A host write of 1, 2 or 4 bytes to a window; `U.DECOMP` windows ignore writes (R36). -/
def State.hostWrite (s : State) (w : Window) (off size : Nat) (v : Word) : State :=
  match w.kind with
  | .decomp => s
  | _ => s.setMem w ((s.mem w).putBytes off ((bytesOfWord v).take size))

/-! ### CMD writes -/

/-- What the block's side of a step is: an answer of its own, or a command to run in a state. -/
inductive Served where
  | answered (o : Host.Outcome State Fault Refusal)
  | run (i : Instr) (s : State)
deriving Repr

/-- A CMD write of `w` with BUSY = 0: the four cases of R92, in order. -/
def issue (w : Word) (s : State) : Served :=
  if w = 0x0000000F then .run .blkRst s
  else if s.fault then .answered (.next s)
  else
    match decode w with
    | none => .answered (.next s.selectionError)
    | some i => .run i s

/-! ### One host action -/

/-- The host performs its next action: it leaves the script, and the free values move on to a new draw (log entries 2
and 9). -/
def State.takeAction (s : State) (rest : List HostAction) : State := { s with host := rest, draw := s.draw + 1 }

/-- The answer to a read (log entry 5: the data stands in `readData`). -/
def serveRead (addr size : Nat) (s : State) : Host.Outcome State Fault Refusal :=
  match accessOf s.params addr size with
  | .error e => e.outcome
  | .ok pl =>
    if s.busy ∧ pl ≠ .register 0x004 then .refused .accessWhileBusy
    else .next { s with readData := some (s.readPlace pl size) }

/-- The answer to a write. -/
def serveWrite (addr size : Nat) (v : Word) (s : State) : Served :=
  match accessOf s.params addr size with
  | .error e => .answered e.outcome
  | .ok pl =>
    if s.busy then .answered (.refused .accessWhileBusy)
    else
      match pl with
      | .register off => if regAt off = .cmd then issue v s else .answered (.next (s.writeReg (regAt off) v))
      | .window w off => .answered (.next (s.hostWrite w off size v))

/-- One action, already taken from the host's script. -/
def serveAction (a : HostAction) (s : State) : Served :=
  match a with
  | .hardwareReset => .answered (.next s.resetBlock)
  | .read addr size => .answered (serveRead addr size s)
  | .write addr size v => serveWrite addr size v s

/-- The host's next action, if it has one; otherwise the block "does nothing until the host writes CMD" (R282; log entry 18). -/
def serveHost (s : State) : Served :=
  match s.host with
  | [] => .answered (.next s)
  | a :: rest => serveAction a (s.takeAction rest)

end Sys2Proof.Machine
end

