-- ==== Sys2Proof/Machine/Step.lean ====
section
/-! DEFINITION. One step: the host's next action, whole, and the command it issues if it issues one ("a single total order
of host accesses and whole commands", spec/20_memory.md R73). -/

namespace Sys2Proof.Machine

/-- One step of the machine. -/
def step (s : State) : Host.Outcome State Fault Refusal :=
  match serveHost s with
  | .answered o => o
  | .run i t => exec i t

/-- The state whose next step is the CMD write of the given command word: that write stands first in the host's script
(log entry 2). -/
def State.withFetchWord (s : State) (nbits w : Nat) : State :=
  { s with host := .write s.params.base 4 (tableWord nbits w) :: s.host }

end Sys2Proof.Machine
end

