-- ==== Sys2Proof/Machine/Script.lean ====
section
/-! DEFINITION. The host's side: the host-script lines of spec/30_encoding.md R98 and the pseudo-commands of R99 as lists of
host actions, the codec variants of 00_scope.md R17, and the two host reads of an accessor. A script is what `State.host`
holds; nothing here is state or behaviour of the block. -/

namespace Sys2Proof.Machine

/-- The offset of a register, the first of `regTable` that names it (`reserved` has none). -/
def regOffset (r : Reg) : Option Nat := (regTable.find? fun e => e.2 = r).map Prod.fst

/-- `WRREG REG, v`: an aligned 32-bit write at the register's address. -/
def wrReg (p : Params) (r : Reg) (v : Word) : List HostAction :=
  match regOffset r with
  | some off => [.write (p.base + off) 4 v]
  | none => []

/-- `CMD <mnemonic>`: the mnemonic's word written to CMD, at `BASE + 0x000`. -/
def cmdWrite (p : Params) (i : Instr) : HostAction := .write p.base 4 (encode i)

/-- Byte writes at rising addresses. -/
def writeBytes : (addr : Nat) → List Byte → List HostAction
  | _, [] => []
  | addr, b :: bs => .write addr 1 (b.setWidth 32) :: writeBytes (addr + 1) bs

/-- The length register of a buffer the host may write (TEXT or COMP). -/
def lengthReg (w : Window) : Reg :=
  match w.kind with
  | .text => .textLen w.unit
  | .comp => .compLen w.unit
  | .decomp => .decompLen w.unit

/-- `WRBUF U.BUF, seq` for `n` elements laid out as the bytes `bs`: the elements from element 0, then the length. -/
def wrBuf (p : Params) (w : Window) (n : Nat) (bs : List Byte) : List HostAction :=
  writeBytes (p.windowBase w) bs ++ wrReg p (lengthReg w) (BitVec.ofNat 32 n)

/-- `WRBUF` for a buffer of bytes. -/
def wrBytes (p : Params) (w : Window) (bs : List Byte) : List HostAction := wrBuf p w bs.length bs

/-- `WRBUF RLE.COMP`. -/
def wrParts (p : Params) (ps : List Part) : List HostAction :=
  wrBuf p ⟨.rle, .comp⟩ ps.length (bytesOfWords (ps.map Part.toWord))

/-- `WRBUF HUF.COMP`. The bus writes whole bytes (R70) and an element is one bit (R34): the bits of the last byte beyond
the sequence keep what they are in `s`, the state in which the line is performed (log entry 28). -/
def wrBits (s : State) (bits : List Bool) : List HostAction :=
  wrBuf s.params ⟨.huf, .comp⟩ bits.length
    ((List.range ((bits.length + 7) / 8)).map fun j =>
      firstBits (bits.length - 8 * j) (packedByte bits j) (s.byteAt ⟨.huf, .comp⟩ j))

/-- `WRBUF LZW.COMP`. -/
def wrCodes (p : Params) (codes : List Word) : List HostAction :=
  wrBuf p ⟨.lzw, .comp⟩ codes.length (bytesOfWords codes)

/-- `POKE U.BUF[i], b` for a buffer of bytes: one element, the length unchanged. -/
def pokeByte (p : Params) (w : Window) (i : Nat) (b : Byte) : HostAction :=
  .write (p.windowBase w + i) 1 (b.setWidth 32)

/-- `POKE U.BUF[k], v` for a buffer of words. -/
def pokeWord (p : Params) (w : Window) (k : Nat) (v : Word) : HostAction := .write (p.windowBase w + 4 * k) 4 v

/-- `POKE HUF.COMP[i], v`: the byte that holds bit `i`, written with that bit replaced and its other seven bits as they are
in `s`, the state in which the line is performed (log entry 28). -/
def pokeBit (s : State) (i : Nat) (v : Bool) : HostAction :=
  pokeByte s.params ⟨.huf, .comp⟩ (i / 8) (replaceBit (s.byteAt ⟨.huf, .comp⟩ (i / 8)) (i % 8) v)

/-- The pseudo-commands of R99; they have no opcode. -/
inductive Pseudo where
  | encodeOf (u : UnitId)
  | decodeOf (u : UnitId)
  | newCodec
deriving DecidableEq, Repr

/-- Their expansions (R99). -/
def Pseudo.expansion : Pseudo → List Instr
  | .encodeOf .rle => [.rleEnc]
  | .encodeOf .huf => [.hufBuild, .hufEnc]
  | .encodeOf .bwt => [.bwtFwd]
  | .encodeOf .lzw => [.lzwEnc]
  | .decodeOf .rle => [.rleDec]
  | .decodeOf .huf => [.hufDec]
  | .decodeOf .bwt => [.bwtInv]
  | .decodeOf .lzw => [.lzwDec]
  | .newCodec => [.blkRst]

/-- A sequence of commands as CMD writes. -/
def cmdWrites (p : Params) (is : List Instr) : List HostAction := is.map (cmdWrite p)

/-! ### The codec variants (R17, R218) -/

/-- The variants of the source's codec contract. -/
inductive Variant where
  | rle
  | huffman
  | bwt
  | lzw
  | bwtRle
deriving DecidableEq, Repr

/-- The unit whose TEXT the codec is constructed over, and whose DECOMP is `decompressed()`. -/
def Variant.unit : Variant → UnitId
  | .rle => .rle
  | .huffman => .huf
  | .bwt => .bwt
  | .lzw => .lzw
  | .bwtRle => .bwt

/-- The unit whose COMP is `compressed()`: for the composite the output of its last encode stage (R218). -/
def Variant.compUnit : Variant → UnitId
  | .bwtRle => .rle
  | v => v.unit

/-- `encode()`. -/
def Variant.encode : Variant → List Instr
  | .rle => Pseudo.expansion (.encodeOf .rle)
  | .huffman => Pseudo.expansion (.encodeOf .huf)
  | .bwt => Pseudo.expansion (.encodeOf .bwt)
  | .lzw => Pseudo.expansion (.encodeOf .lzw)
  | .bwtRle => [.bwtrleEnc]

/-- `decode()`. -/
def Variant.decode : Variant → List Instr
  | .rle => Pseudo.expansion (.decodeOf .rle)
  | .huffman => Pseudo.expansion (.decodeOf .huf)
  | .bwt => Pseudo.expansion (.decodeOf .bwt)
  | .lzw => Pseudo.expansion (.decodeOf .lzw)
  | .bwtRle => [.bwtrleDec]

end Sys2Proof.Machine
end

