-- ==== Sys2Proof/Safety.lean ====
section
/-! DEFINITION. What counts as a run that has gone right (spec/70_reset_and_hazards.md R294, 60_exceptions.md R246), and the
predicates on states that claims use: the invariants the spec states of the block's registers, tables and windows. -/

namespace Sys2Proof.Machine

/-- "A run of a host script ends when its last action has been performed and STATUS.BUSY = 0" (R294). -/
def State.finished (s : State) : Bool := s.host.isEmpty && !s.busy

/-- "The run has gone right iff STATUS.FAULT = 0 at its end" (R294). -/
def State.goneRight (s : State) : Bool := s.finished && !s.fault

/-- `n` steps of the machine, stopping at the first that has no next state. -/
def runSteps (n : Nat) (s : State) : Host.Outcome State Fault Refusal := Host.Core.run Sys2Proof.core n s

/-! ### How a command ended -/

/-- The command ran to its end: DONE, no fault (R93). -/
def Completed (s t : State) : Prop :=
  t.busy = false ∧ t.done = true ∧ t.selErr = false ∧ t.fault = s.fault ∧ t.faultCode = s.faultCode ∧
    t.faultInfo = s.faultInfo

/-- The command took the fault `k` with `FAULT_INFO = info` (R243). -/
def Faulted (k : FaultKind) (info : Nat) (t : State) : Prop :=
  t.busy = false ∧ t.done = false ∧ t.selErr = false ∧ t.fault = true ∧ t.faultCode = k.code ∧
    t.faultInfo = BitVec.ofNat 32 info

/-- The state a fault leaves where the command has written nothing else (R245, F_SEQ and F_LEN). -/
def State.faultOnly (s : State) (k : FaultKind) (info : Nat) : State :=
  { s with busy := false, done := false, selErr := false, fault := true, faultCode := k.code,
           faultInfo := BitVec.ofNat 32 info }

/-- `s` with the STATUS flags and the fault registers of `t`: what every command may write (R67). -/
def State.withStatusOf (s t : State) : State :=
  { s with busy := t.busy, done := t.done, fault := t.fault, selErr := t.selErr, faultCode := t.faultCode,
           faultInfo := t.faultInfo }

/-- The PHASEs a command requires (R247). -/
def requiredPhases : Instr → List (UnitId × Phase)
  | .blkRst => []
  | .rleEnc => [(.rle, .idle)]
  | .rleDec => [(.rle, .encoded)]
  | .hufBuild => [(.huf, .idle)]
  | .hufEnc => [(.huf, .codesGenerated)]
  | .hufDec => [(.huf, .encoded)]
  | .bwtFwd => [(.bwt, .idle)]
  | .bwtInv => [(.bwt, .encoded)]
  | .lzwEnc => [(.lzw, .idle)]
  | .lzwDec => [(.lzw, .encoded)]
  | .bwtrleEnc => [(.bwt, .idle), (.rle, .idle)]
  | .bwtrleDec => [(.bwt, .encoded), (.rle, .encoded)]

/-- The PHASEs a command writes on completion (R247). -/
def phasesAfter : Instr → List (UnitId × Phase)
  | .blkRst => [(.rle, .idle), (.huf, .idle), (.bwt, .idle), (.lzw, .idle)]
  | .rleEnc => [(.rle, .encoded)]
  | .rleDec => [(.rle, .decoded)]
  | .hufBuild => [(.huf, .codesGenerated)]
  | .hufEnc => [(.huf, .encoded)]
  | .hufDec => [(.huf, .decoded)]
  | .bwtFwd => [(.bwt, .encoded)]
  | .bwtInv => [(.bwt, .decoded)]
  | .lzwEnc => [(.lzw, .encoded)]
  | .lzwDec => [(.lzw, .decoded)]
  | .bwtrleEnc => [(.bwt, .encoded), (.rle, .encoded)]
  | .bwtrleDec => [(.bwt, .decoded), (.rle, .decoded)]

/-- The units a command uses are in the PHASEs it requires. -/
def inPhase (i : Instr) (s : State) : Prop := ∀ r ∈ requiredPhases i, (s.unit r.1).phase = r.2

/-- The source length register a command checks after its PHASE check, and its limit (R248). `BLK.RST` checks none. -/
def lengthCheck (s : State) : Instr → Option (Word × Nat)
  | .blkRst => none
  | .rleEnc => some (s.rle.textLen, s.params.cap)
  | .rleDec => some (s.rle.compLen, s.params.cap)
  | .hufBuild => some (s.huf.textLen, s.params.cap)
  | .hufEnc => some (s.huf.textLen, s.params.cap)
  | .hufDec => some (s.huf.compLen, s.params.hufBitsCap)
  | .bwtFwd => some (s.bwt.textLen, s.params.maxLen)
  | .bwtInv => some (s.bwt.compLen, s.params.cap)
  | .lzwEnc => some (s.lzw.textLen, s.params.cap)
  | .lzwDec => some (s.lzw.compLen, s.params.cap)
  | .bwtrleEnc => some (s.bwt.textLen, s.params.maxLen)
  | .bwtrleDec => some (s.rle.compLen, s.params.cap)

/-- The commands of one unit, and the state with their destination buffer emptied (R245). -/
def dropDestination (s : State) : Instr → State
  | .rleEnc => s.dropComp .rle
  | .rleDec => s.dropDecomp .rle
  | .hufEnc => s.dropComp .huf
  | .hufDec => s.dropDecomp .huf
  | .bwtFwd => s.dropComp .bwt
  | .bwtInv => s.dropDecomp .bwt
  | .lzwEnc => s.dropComp .lzw
  | .lzwDec => s.dropDecomp .lzw
  | .blkRst | .hufBuild | .bwtrleEnc | .bwtrleDec => s

/-- The codes of the faults a command can raise, from the "raised by" column of R240. -/
def raisableCodes : Instr → List Byte
  | .blkRst => []
  | .rleEnc | .hufBuild | .lzwEnc => [0x01, 0x02]
  | .rleDec => [0x01, 0x02, 0x05, 0x06]
  | .hufEnc => [0x01, 0x02, 0x09]
  | .hufDec => [0x01, 0x02, 0x05, 0x07, 0x08]
  | .bwtFwd => [0x01, 0x02, 0x03]
  | .bwtInv => [0x01, 0x02, 0x0A]
  | .lzwDec => [0x01, 0x02, 0x05, 0x0B]
  | .bwtrleEnc => [0x01, 0x02, 0x03]
  | .bwtrleDec => [0x01, 0x02, 0x04, 0x05, 0x06, 0x0A]

/-! ### The LZW dictionary as the phrases met so far make it (R181, R184, R188) -/

/-- The entries inserted while the phrases go by: each phrase with the first byte of the next. -/
def lzwEntries : List (List Byte) → List (List Byte)
  | p :: q :: rest => (p ++ q.take 1) :: lzwEntries (q :: rest)
  | _ => []

/-- The dictionary when the last of the given phrases is under way. -/
def lzwDictionary (phrases : List (List Byte)) : List (List Byte) := lzwSeed ++ lzwEntries phrases

/-- The greedy parse of R183 and its codes: each phrase is a pattern of the dictionary of its moment and has its code
there, a code the first `j` insertions have made present (R185); a phrase with the next byte is no pattern yet. -/
def LzwParse (phrases : List (List Byte)) (codes : List Nat) : Prop :=
  codes.length = phrases.length ∧
    ∀ j p, phrases[j]? = some p →
      p ≠ [] ∧
        (∃ k, codes[j]? = some k ∧ k < 256 + j ∧ (lzwDictionary (phrases.take (j + 1)))[k]? = some p) ∧
          ∀ q, phrases[j + 1]? = some q → p ++ q.take 1 ∉ lzwDictionary (phrases.take (j + 1))

/-- The strings codes stand for (R186, R187): the first code its byte; a code present its pattern; an absent code the
previous string with its own first byte. -/
def LzwExpansion (codes : List Nat) (strs : List (List Byte)) : Prop :=
  strs.length = codes.length ∧
    (∀ k, codes[0]? = some k → k < 256 ∧ strs[0]? = some [BitVec.ofNat 8 k]) ∧
      ∀ j k prev, codes[j + 1]? = some k → strs[j]? = some prev →
        strs[j + 1]? = some
          (match (lzwDictionary (strs.take (j + 1)))[k]? with
            | some p => p
            | none => prev ++ prev.take 1)

/-! ### Invariants -/

/-- A window's contents are in canonical form and lie inside the window (R61). -/
def State.memOk (s : State) (w : Window) : Bool := (s.mem w).wf && (s.mem w).below (s.params.windowSize w)

/-- All twelve windows. -/
def State.windowsOk (s : State) : Bool := allWindows.all s.memOk

/-- The flags and the fault registers fit together: BUSY is 0 (R14), DONE and FAULT are not both set, SEL_ERR is never set
with FAULT, and FAULT_CODE is 0 exactly where FAULT is 0 and else one of R240's codes, FAULT_INFO being 0 with it (R22 to
R24, R243, R244). -/
def State.statusOk (s : State) : Bool :=
  !s.busy && !(s.done && s.fault) && !(s.selErr && s.fault) &&
    (if s.fault then decide (1 ≤ s.faultCode.toNat ∧ s.faultCode.toNat ≤ 0x0B)
      else s.faultCode == 0 && s.faultInfo == 0)

/-- "the other codecs use the subset Idle → Encoded → Decoded" (R27). -/
def Phase.plain : Phase → Bool
  | .idle | .encoded | .decoded => true
  | .frequenciesComputed | .treeBuilt | .codesGenerated => false

/-- The PHASEs a host can see (R27): 1 and 2 nowhere, 3 at the Huffman unit only. -/
def State.phasesOk (s : State) : Bool :=
  s.rle.phase.plain && s.bwt.phase.plain && s.lzw.phase.plain &&
    (s.huf.phase.plain || s.huf.phase == .codesGenerated)

/-- No decoder's output is longer than its buffer (R35, R240 F_OVERFLOW). -/
def State.decompOk (s : State) : Bool :=
  decide (s.rle.decompLen.toNat ≤ s.params.cap) && decide (s.huf.decompLen.toNat ≤ s.params.cap) &&
    decide (s.bwt.decompLen.toNat ≤ s.params.cap) && decide (s.lzw.decompLen.toNat ≤ s.params.cap)

/-- The bytes of a window below `n` have all been written. -/
def State.written (s : State) (w : Window) (n : Nat) : Prop := ∀ off, off < n → ((s.mem w).lookup off).isSome = true

/-! ### The Huffman tree (R38 to R40, R131, R137) -/

/-- The children a node names. -/
def nodeChildren : Node → List Nat
  | .leaf _ _ => []
  | .internal _ l r => [l, r]

/-- "every child id is smaller than its parent's id" (R38). -/
def arenaDescending (arena : List Node) : Prop :=
  ∀ i n, arena[i]? = some n → ∀ c, c ∈ nodeChildren n → c < i

/-- "every node other than the root is the left or right of exactly one Internal node" (R38), and the root of none. -/
def arenaTreeShaped (arena : List Node) (root : Nat) : Prop :=
  ∀ c, c < arena.length → (arena.flatMap nodeChildren).count c = if c = root then 0 else 1

/-- The arena as the registers and the code table see it: without a tree no node and no code; with one, `NNODES` nodes in
a tree whose root is the last (R31, R38, R40, R131). -/
def State.hufTreeOk (s : State) : Prop :=
  s.hufNnodes.toNat = s.hufNode.length ∧
  s.hufNode.length ≤ 511 ∧
  (s.hufRoot = rootNone ↔ s.hufNode = []) ∧
  (s.hufNode ≠ [] → s.hufRoot.toNat + 1 = s.hufNode.length) ∧
  arenaDescending s.hufNode ∧
  (s.hufNode ≠ [] → arenaTreeShaped s.hufNode s.hufRoot.toNat)

/-- The bit path `bits` leads from node `i` down to node `j`, 0 to the left and 1 to the right (R135). -/
inductive TreePath (arena : List Node) : Nat → List Bool → Nat → Prop where
  | here (i : Nat) : TreePath arena i [] i
  | left {i l r j f : Nat} {bits : List Bool} :
      arena[i]? = some (.internal f l r) → TreePath arena l bits j → TreePath arena i (false :: bits) j
  | right {i l r j f : Nat} {bits : List Bool} :
      arena[i]? = some (.internal f l r) → TreePath arena r bits j → TreePath arena i (true :: bits) j

/-- The nodes waiting in the queue when node `c` is made: those before it that are nobody's child yet (R130). -/
def waitingAt (arena : List Node) (c : Nat) : List Nat :=
  (List.range c).filter fun i => !((arena.take c).flatMap nodeChildren).contains i

/-- Every valid code is the path from the root to a leaf of its byte (R135), or the one-bit code of a tree that is a single
leaf (R136). -/
def State.codesArePaths (s : State) : Prop :=
  ∀ b bits, s.codeOf b = some bits →
    (∃ f, s.hufNode[s.hufRoot.toNat]? = some (.leaf b f) ∧ bits = [false]) ∨
      ((∃ f l r, s.hufNode[s.hufRoot.toNat]? = some (.internal f l r)) ∧
        ∃ j f, TreePath s.hufNode s.hufRoot.toNat bits j ∧ s.hufNode[j]? = some (.leaf b f))

/-- The bit sequences of the list are paths from the root to leaves of their bytes (R148), in a tree whose root is
Internal. -/
def State.leafPaths (s : State) (pieces : List (List Bool × Byte)) : Prop :=
  s.hufRoot ≠ rootNone ∧ (∃ f l r, s.hufNode[s.hufRoot.toNat]? = some (.internal f l r)) ∧
    ∀ x, x ∈ pieces → ∃ j f, TreePath s.hufNode s.hufRoot.toNat x.1 j ∧ s.hufNode[j]? = some (.leaf x.2 f)

/-- The tree is one leaf, of byte `b` (R133). -/
def State.singleLeaf (s : State) (b : Byte) : Prop :=
  s.hufRoot ≠ rootNone ∧ ∃ f, s.hufNode[s.hufRoot.toNat]? = some (.leaf b f)

/-- No valid code is a prefix of another valid code, and every valid code has 1 to 255 bits (R137). -/
def State.codesOk (s : State) : Prop :=
  (∀ b bits, s.codeOf b = some bits → 1 ≤ bits.length ∧ bits.length ≤ 255) ∧
  (∀ b c bits, s.codeOf b = some bits → ∀ more, s.codeOf c = some (bits ++ more) → b = c)

/-- The Huffman tables, whatever command runs next. -/
def State.hufInv (s : State) : Prop := s.hufTreeOk ∧ s.codesArePaths ∧ s.codesOk

/-- The windows, with what their bounds rest on: `MAX_LEN` in its range (R9), no code longer than 255 bits. -/
def State.memInv (s : State) : Prop :=
  s.params.maxLenOk = true ∧ s.windowsOk = true ∧ ∀ b bits, s.codeOf b = some bits → bits.length ≤ 255

/-! ### Host actions -/

/-- The step has no next state: the action has no meaning (R70, R288). -/
def NoNextState (s : State) : Prop := ∀ t, step s ≠ .next t

/-- The access is one of the bus accesses of `size` bytes at `addr`. -/
def isAccess (a : HostAction) (addr size : Nat) : Prop := a = .read addr size ∨ ∃ v, a = .write addr size v

/-- An address is in a region. -/
def inRegion (addr : Nat) (r : Nat × Nat) : Prop := r.1 ≤ addr ∧ addr < r.1 + r.2

/-- A register at an offset reads as a value: the next step returns it and changes nothing of the block. -/
def readsAs (s : State) (off : Nat) (v : Word) : Prop :=
  ∀ rest, s.host = .read (s.params.base + off) 4 :: rest →
    step s = .next { s.takeAction rest with readData := some v }

/-- A write of a register has an effect on the block. -/
def writeGives (s : State) (off : Nat) (v : Word) (effect : State → State) : Prop :=
  ∀ rest, s.host = .write (s.params.base + off) 4 v :: rest → step s = .next (effect (s.takeAction rest))

end Sys2Proof.Machine
end

