-- ==== Sys2Proof/Certificates/Slice0/Obligations.lean ====
section
/-! DEFINITION. The statements for the provers. Every statement holds for every value of the parameters its hypotheses
allow, for both tie modes where it does not name one, and for every value of the free constants of Config (log entries 6
and 7). A premise `maxLenOk` is R9's constraint on `MAX_LEN`; a premise `written` is the host's duty of R290. -/

open Sys2Proof Sys2Proof.Machine

/-! ### The command word -/

/-- Words of R94 written out bit by bit decode to their commands, and through the bytes of a little-endian bus (R62) the
bytes after the word are left over. -/
def Obligations.OpcodeWordsDecode : Prop :=
  decode 0b00000000000000000000000000001111 = some .blkRst ∧
  decode 0b00000000000000000000000000010000 = some .rleEnc ∧
  decode 0b00000000000000000000000000100010 = some .hufDec ∧
  decode 0b00000000000000000000000000110001 = some .bwtInv ∧
  decode 0b00000000000000000000000001000000 = some .lzwEnc ∧
  decode 0b00000000000000000000000001010001 = some .bwtrleDec ∧
  (∀ i rest, decodeBytes (encodeBytes i ++ rest) = .ok (i, rest))

/-- R94, R96: a word decodes to a command exactly if it is that command's row of the table, whose `unit` and `fn` columns
are the fields of R90 and whose `rsv` bits are 0; R95: a word that is none is rejected by its reason. -/
def Obligations.DecodeIsExactlyTheTable : Prop :=
  (∀ (w : Word) (i : Instr),
    decode w = some i ↔
      (w, i) ∈ [(0x0F, Instr.blkRst), (0x10, .rleEnc), (0x11, .rleDec), (0x20, .hufBuild), (0x21, .hufEnc), (0x22, .hufDec),
        (0x30, .bwtFwd), (0x31, .bwtInv), (0x40, .lzwEnc), (0x41, .lzwDec), (0x50, .bwtrleEnc), (0x51, .bwtrleDec)]) ∧
  (∀ (w : Word) (i : Instr), decode w = some i ↔ w = encode i) ∧
  (∀ f : CommandFields, f.wf = true ↔ ∃ i, decode f.word = some i) ∧
  (∀ w : Word, decodeWord w = .error .reservedBitsSet ↔ w.extractLsb' 8 24 ≠ 0) ∧
  (∀ (w : Word) (b : Byte),
    decodeWord w = .error (.unknownOpcode b) ↔
      w = b.setWidth 32 ∧
        b ∉ [0x0F, 0x10, 0x11, 0x20, 0x21, 0x22, 0x30, 0x31, 0x40, 0x41, 0x50, 0x51])

/-! ### Steps and acceptance -/

/-- When the host's next action writes a word to CMD that decodes to a command, with BUSY = 0, and the block is not
faulted or the command is `BLK.RST`, the step is that command's effect once the action has left the script; the word
placed by `withFetchWord` is run so. -/
def Obligations.StepRunsTheDecodedCommand : Prop :=
  (∀ (s : State) (w : Word) (i : Instr) (rest : List HostAction),
    s.host = .write s.params.base 4 w :: rest → s.busy = false → decode w = some i →
      (s.fault = false ∨ i = .blkRst) → step s = exec i (s.takeAction rest)) ∧
  (∀ (s : State) (nbits w : Nat) (i : Instr),
    s.busy = false → decodeTableWord nbits w = some i → (s.fault = false ∨ i = .blkRst) →
      step (s.withFetchWord nbits w) = exec i (s.takeAction s.host))

/-- R92 case 2, R246: while FAULT = 1 a CMD write of any word but `BLK.RST`'s changes nothing. -/
def Obligations.FaultedBlockIgnoresCommands : Prop :=
  ∀ (s : State) (w : Word) (rest : List HostAction),
    s.host = .write s.params.base 4 w :: rest → s.busy = false → s.fault = true → w ≠ 0x0000000F →
      step s = .next (s.takeAction rest)

/-- R95, R252: with FAULT = 0, a word whose bits 31:8 are not 0 or whose opcode is not in the table sets SEL_ERR and
changes nothing else; the next accepted command clears the flag. -/
def Obligations.UnselectedWordSetsSelErr : Prop :=
  (∀ (s : State) (w : Word) (rest : List HostAction),
    s.host = .write s.params.base 4 w :: rest → s.busy = false → s.fault = false →
      (w.extractLsb' 8 24 ≠ 0 ∨
        w.extractLsb' 0 8 ∉ [0x0F, 0x10, 0x11, 0x20, 0x21, 0x22, 0x30, 0x31, 0x40, 0x41, 0x50, 0x51]) →
          step s = .next { s.takeAction rest with selErr := true }) ∧
  (∀ (s t : State) (i : Instr), exec i s = .next t → t.selErr = false)

/-- R22, R93: every accepted command ends, with BUSY and SEL_ERR 0 and exactly one of DONE and FAULT 1; after `BLK.RST`
both are 0. -/
def Obligations.AcceptedCommandsEnd : Prop :=
  ∀ (s : State) (i : Instr), s.fault = false →
    ∃ t, exec i s = .next t ∧ t.busy = false ∧ t.selErr = false ∧
      (if i = .blkRst then t.done = false ∧ t.fault = false else t.done = !t.fault)

/-- R250, R246, R244: a step keeps FAULT, FAULT_CODE and FAULT_INFO of a faulted block, unless it is `BLK.RST` or the
hardware reset, which discard the whole state. -/
def Obligations.FaultSticksUntilReset : Prop :=
  ∀ (s t : State), s.fault = true → step s = .next t →
    (t.fault = true ∧ t.faultCode = s.faultCode ∧ t.faultInfo = s.faultInfo) ∨
      ∃ rest, (s.host = .hardwareReset :: rest ∨ s.host = .write s.params.base 4 0x0000000F :: rest) ∧
        t = (s.takeAction rest).resetBlock

/-- The codes of R240. -/
def Obligations.FaultCodes : Prop :=
  FaultKind.seq.code = 0x01 ∧ FaultKind.len.code = 0x02 ∧ FaultKind.sentinel.code = 0x03 ∧
  FaultKind.composite.code = 0x04 ∧ FaultKind.overflow.code = 0x05 ∧ FaultKind.rleZero.code = 0x06 ∧
  FaultKind.hufNoTree.code = 0x07 ∧ FaultKind.hufPath.code = 0x08 ∧ FaultKind.hufNoCode.code = 0x09 ∧
  FaultKind.bwtStream.code = 0x0A ∧ FaultKind.lzwFirst.code = 0x0B

/-- The "raised by" column of R240: a command that faults raises one of its own faults, and the fault entry of R243 has
been performed. -/
def Obligations.OnlyListedFaults : Prop :=
  ∀ (s t : State) (i : Instr), s.fault = false → exec i s = .next t → t.fault = true →
    t.faultCode ∈ raisableCodes i ∧ t.busy = false ∧ t.done = false ∧ t.selErr = false

/-! ### Reset -/

/-- The values R47 gives for reset. The parameters the reset state carries are the model's choice (log entries 1 and 3)
and are not stated. -/
def Obligations.ResetState : Prop :=
  State.reset.statusWord = 0 ∧ State.reset.faultCode = 0 ∧ State.reset.faultInfo = 0 ∧ State.reset.sentinel = 0x24 ∧
  (∀ u, (State.reset.unit u).phase = .idle ∧ (State.reset.unit u).textLen = 0 ∧ (State.reset.unit u).compLen = 0 ∧
    (State.reset.unit u).decompLen = 0) ∧
  State.reset.bwtOpos = 0 ∧ State.reset.hufRoot = 0x1FF ∧ State.reset.hufNnodes = 0 ∧
  (∀ b : Fin 256, State.reset.hufFreq.get b = 0 ∧ State.reset.hufCode.get b = none)

/-- R47, R281: `BLK.RST` completes from every state and leaves every register, flag and table at its reset value and
every logical buffer empty; the hardware reset leaves the same state. -/
def Obligations.BlkRstRestoresResetValues : Prop :=
  (∀ s : State, ∃ t, exec .blkRst s = .next t ∧
    t.statusWord = 0 ∧ t.faultCode = 0 ∧ t.faultInfo = 0 ∧ t.sentinel = 0x24 ∧
    (∀ u, (t.unit u).phase = .idle ∧ t.textOf u = [] ∧ (t.unit u).compLen = 0 ∧ t.decompOf u = []) ∧
    t.rleComp = [] ∧ t.hufComp = [] ∧ t.bwtComp = [] ∧ t.lzwComp = [] ∧
    t.bwtOpos = 0 ∧ t.hufRoot = 0x1FF ∧ t.hufNnodes = 0 ∧
    (∀ b : Fin 256, t.hufFreq.get b = 0 ∧ t.hufCode.get b = none)) ∧
  (∀ (s : State) (rest : List HostAction), s.host = .hardwareReset :: rest → step s = exec .blkRst (s.takeAction rest))

/-! ### The checks every command makes -/

/-- R247: a command whose PHASE requirement is not met takes F_SEQ, with the opcode as FAULT_INFO, and changes nothing
else; a command that ends without fault was in its PHASE and has written the PHASEs of its row, the PHASE of every other
unit being unchanged. -/
def Obligations.PhasesGateAndAdvance : Prop :=
  (∀ (s : State) (i : Instr), ¬ inPhase i s → exec i s = .next (s.faultOnly .seq (encode i).toNat)) ∧
  (∀ (s t : State) (i : Instr), s.fault = false → exec i s = .next t → t.fault = false →
    inPhase i s ∧ (∀ r, r ∈ phasesAfter i → (t.unit r.1).phase = r.2) ∧
      ∀ u, u ∉ (phasesAfter i).map Prod.fst → (t.unit u).phase = (s.unit u).phase)

/-- R248: a command in its PHASE whose source length exceeds its limit takes F_LEN, with the length as FAULT_INFO, and
changes nothing else; `BWTRLE.DEC` checks BWT.COMP_LEN too, after its RLE stage. -/
def Obligations.LengthAboveLimitIsLenFault : Prop :=
  (∀ (s : State) (i : Instr) (len : Word) (limit : Nat), inPhase i s → lengthCheck s i = some (len, limit) →
    limit < len.toNat → exec i s = .next (s.faultOnly .len len.toNat)) ∧
  (∀ s a : State, inPhase .bwtrleDec s → exec .rleDec s = .next a → a.fault = false →
    s.params.cap < s.bwt.compLen.toNat →
      ∃ t, exec .bwtrleDec s = .next t ∧ Faulted .len s.bwt.compLen.toNat t)

/-- R242, R245 for the commands of one unit: after a fault the state is the state before, but for the STATUS flags, the
fault registers and, unless the fault is F_SEQ or F_LEN, the destination buffer, which is empty. -/
def Obligations.UnitCommandFaultFrame : Prop :=
  ∀ (s t : State) (i : Instr), i ∉ [.blkRst, .bwtrleEnc, .bwtrleDec] → s.fault = false → exec i s = .next t →
    t.fault = true →
      (t.faultCode ∈ [0x01, 0x02] → t = s.withStatusOf t) ∧
        (t.faultCode ∉ [0x01, 0x02] → t = (dropDestination s i).withStatusOf t)

/-! ### RLE -/

/-- R202, R203: `RLE.ENC` completes; the parts expand to the text, every count is at least 1 and adjacent parts have
different symbols, so each maximal run has given one part, in order. -/
def Obligations.RleEncEmitsMaximalRuns : Prop :=
  ∀ s : State, s.params.maxLenOk = true → inPhase .rleEnc s → s.rle.textLen.toNat ≤ s.params.cap →
    ∃ t, exec .rleEnc s = .next t ∧ Completed s t ∧ t.rle.phase = .encoded ∧
      t.rleComp.flatMap (fun p => List.replicate p.count p.sym) = s.textOf .rle ∧
      (∀ p, p ∈ t.rleComp → 1 ≤ p.count) ∧
      (∀ k p q, t.rleComp[k]? = some p → t.rleComp[k + 1]? = some q → p.sym ≠ q.sym) ∧
      (t.rleComp.map Part.count).sum = s.rle.textLen.toNat ∧ t.rle.compLen.toNat ≤ s.rle.textLen.toNat

/-- R204: `RLE.DEC` completes on parts of counts at least 1 whose expansion fits, and DECOMP is the expansion. -/
def Obligations.RleDecExpandsParts : Prop :=
  ∀ s : State, s.params.maxLenOk = true → inPhase .rleDec s → s.rle.compLen.toNat ≤ s.params.cap →
    (∀ p, p ∈ s.rleComp → 1 ≤ p.count) →
      (s.rleComp.flatMap fun p => List.replicate p.count p.sym).length ≤ s.params.cap →
        ∃ t, exec .rleDec s = .next t ∧ Completed s t ∧ t.rle.phase = .decoded ∧
          t.decompOf .rle = s.rleComp.flatMap fun p => List.replicate p.count p.sym

/-- R204, R249: the first part of count 0 is F_RLE_ZERO, the first whose expansion would pass `CAP` bytes F_OVERFLOW, with
its index as FAULT_INFO; on one part F_RLE_ZERO goes first. DECOMP_LEN becomes 0 and nothing else changes. -/
def Obligations.RleDecFaultsAtFirstBadPart : Prop :=
  ∀ (s : State) (good rest : List Part) (p : Part), inPhase .rleDec s → s.rle.compLen.toNat ≤ s.params.cap →
    s.rleComp = good ++ p :: rest → (∀ q, q ∈ good → 1 ≤ q.count) →
      (good.flatMap fun q => List.replicate q.count q.sym).length ≤ s.params.cap →
        (p.count = 0 → exec .rleDec s = .next ((s.dropDecomp .rle).faultOnly .rleZero good.length)) ∧
        (p.count ≠ 0 → s.params.cap < (good.flatMap fun q => List.replicate q.count q.sym).length + p.count →
          exec .rleDec s = .next ((s.dropDecomp .rle).faultOnly .overflow good.length))

/-! ### Huffman -/

/-- R40, R37, R128, R131, R133, R134: what `HUF.BUILD` leaves, with the `k` bytes that occur in TEXT listed in ascending
order. The seeding order is the spec's (R128). -/
def Obligations.HufBuildBuildsATree : Prop :=
  ∀ s : State, inPhase .hufBuild s → s.huf.textLen.toNat ≤ s.params.cap →
    ∃ t, exec .hufBuild s = .next t ∧ Completed s t ∧ t.huf.phase = .codesGenerated ∧
      (∀ b : Byte, t.hufFreq.get b.toFin = (s.textOf .huf).count b) ∧
      (∀ b : Byte, (t.codeOf b).isSome = true ↔ b ∈ s.textOf .huf) ∧
      (let present := allBytes.filter fun b => b ∈ s.textOf .huf
       let k := present.length
       (k = 0 → t.hufNnodes = 0 ∧ t.hufNode = [] ∧ t.hufRoot = rootNone) ∧
       (1 ≤ k →
         t.hufNnodes.toNat = 2 * k - 1 ∧ t.hufNode.length = 2 * k - 1 ∧ t.hufRoot.toNat = 2 * k - 2 ∧
         t.hufNode.take k = present.map (fun b => Node.leaf b ((s.textOf .huf).count b)) ∧
         (∀ i, k ≤ i → i < 2 * k - 1 → ∃ l r, t.hufNode[i]? =
           some (.internal (arenaFreq t.hufNode l + arenaFreq t.hufNode r) l r) ∧ l < i ∧ r < i) ∧
         arenaTreeShaped t.hufNode (2 * k - 2) ∧
         arenaFreq t.hufNode (2 * k - 2) = s.huf.textLen.toNat))

/-- R129, R130, R132: each Internal node was made of the two lowest-frequency nodes then waiting, left the first popped,
right the second; under ORDERED each of the two had the least (frequency, id). -/
def Obligations.HufBuildMergesLowestTwo : Prop :=
  ∀ s t : State, s.fault = false → exec .hufBuild s = .next t → t.fault = false →
    ∀ c f l r, t.hufNode[c]? = some (.internal f l r) →
      l ∈ waitingAt t.hufNode c ∧ r ∈ waitingAt t.hufNode c ∧ l ≠ r ∧
      (∀ z, z ∈ waitingAt t.hufNode c → arenaFreq t.hufNode l ≤ arenaFreq t.hufNode z) ∧
      (∀ z, z ∈ waitingAt t.hufNode c → z ≠ l → arenaFreq t.hufNode r ≤ arenaFreq t.hufNode z) ∧
      (s.params.hufTie = .ordered →
        (∀ z, z ∈ waitingAt t.hufNode c → arenaFreq t.hufNode z = arenaFreq t.hufNode l → l ≤ z) ∧
        (∀ z, z ∈ waitingAt t.hufNode c → z ≠ l → arenaFreq t.hufNode z = arenaFreq t.hufNode r → r ≤ z))

/-- R135, R136, R137: after `HUF.BUILD` every code is the path from the root to its byte's leaf, 0 left and 1 right, or
the one-bit code 0 of a single leaf; no code is a prefix of another; every code has 1 to 255 bits. -/
def Obligations.HufBuildCodesArePaths : Prop :=
  ∀ s t : State, s.fault = false → exec .hufBuild s = .next t → t.fault = false → t.codesArePaths ∧ t.codesOk

/-- R132: under ORDERED the tree does not depend on any choice, and it is one of the trees of ANY. -/
def Obligations.OrderedBuildIsOneOfAny : Prop :=
  (∀ (choices choices' : Nat → Nat) (freq : Vector Nat 256),
    buildTree .ordered choices freq = buildTree .ordered choices' freq) ∧
  (∀ (choices : Nat → Nat) (freq : Vector Nat 256),
    ∃ choices', buildTree .any choices' freq = buildTree .ordered choices freq)

/-- R145: `HUF.ENC` completes where every byte of the text has a code, and COMP is the codes one after the other; at the
first byte without a code it takes F_HUF_NO_CODE, COMP_LEN becoming 0. The codes' length bound is R39's. -/
def Obligations.HufEncConcatenatesCodes : Prop :=
  ∀ s : State, s.params.maxLenOk = true → inPhase .hufEnc s → s.huf.textLen.toNat ≤ s.params.cap →
    (∀ b bits, s.codeOf b = some bits → bits.length ≤ 255) →
      ((∀ b, b ∈ s.textOf .huf → (s.codeOf b).isSome = true) →
        ∃ t, exec .hufEnc s = .next t ∧ Completed s t ∧ t.huf.phase = .encoded ∧
          t.hufComp = (s.textOf .huf).flatMap fun b => (s.codeOf b).getD []) ∧
      (∀ good b rest, s.textOf .huf = good ++ b :: rest → (∀ c, c ∈ good → (s.codeOf c).isSome = true) →
        s.codeOf b = none → exec .hufEnc s = .next ((s.dropComp .huf).faultOnly .hufNoCode good.length))

/-- R148: `HUF.DEC` completes on the empty sequence whatever the tree, on zeros under a single leaf, and on paths to
leaves, one after the other, under a tree whose root is Internal; DECOMP is the leaves' bytes. -/
def Obligations.HufDecWalksTheTree : Prop :=
  ∀ s : State, s.params.maxLenOk = true → inPhase .hufDec s → s.huf.compLen.toNat ≤ s.params.hufBitsCap →
    (s.hufComp = [] →
      ∃ t, exec .hufDec s = .next t ∧ Completed s t ∧ t.huf.phase = .decoded ∧ t.decompOf .huf = []) ∧
    (∀ b n, s.singleLeaf b → n ≤ s.params.cap → s.hufComp = List.replicate n false →
      ∃ t, exec .hufDec s = .next t ∧ Completed s t ∧ t.huf.phase = .decoded ∧
        t.decompOf .huf = List.replicate n b) ∧
    (∀ pieces, s.leafPaths pieces → pieces.length ≤ s.params.cap → s.hufComp = pieces.flatMap Prod.fst →
      ∃ t, exec .hufDec s = .next t ∧ Completed s t ∧ t.huf.phase = .decoded ∧
        t.decompOf .huf = pieces.map Prod.snd)

/-- R148, R149: where `HUF.DEC` faults and with which index; DECOMP_LEN becomes 0 and nothing else changes. -/
def Obligations.HufDecFaults : Prop :=
  ∀ s : State, inPhase .hufDec s → s.huf.compLen.toNat ≤ s.params.hufBitsCap →
    (s.hufComp ≠ [] → s.hufRoot = rootNone →
      exec .hufDec s = .next ((s.dropDecomp .huf).faultOnly .hufNoTree 0)) ∧
    (∀ b n rest, s.singleLeaf b → n ≤ s.params.cap → s.hufComp = List.replicate n false ++ true :: rest →
      exec .hufDec s = .next ((s.dropDecomp .huf).faultOnly .hufPath n)) ∧
    (∀ b rest, s.singleLeaf b → s.hufComp = List.replicate (s.params.cap + 1) false ++ rest →
      exec .hufDec s = .next ((s.dropDecomp .huf).faultOnly .overflow s.params.cap)) ∧
    (∀ pieces path j f l r, s.leafPaths pieces → arenaDescending s.hufNode → pieces.length ≤ s.params.cap →
      path ≠ [] → TreePath s.hufNode s.hufRoot.toNat path j → s.hufNode[j]? = some (.internal f l r) →
        s.hufComp = pieces.flatMap Prod.fst ++ path →
          exec .hufDec s = .next ((s.dropDecomp .huf).faultOnly .hufPath s.huf.compLen.toNat)) ∧
    (∀ pieces rest, s.leafPaths pieces → pieces.length = s.params.cap + 1 →
      s.hufComp = pieces.flatMap Prod.fst ++ rest →
        exec .hufDec s =
          .next ((s.dropDecomp .huf).faultOnly .overflow ((pieces.flatMap Prod.fst).length - 1)))

/-- R120 to R126: on an array with the heap property, for any strict order of ranks, `push` adds exactly its element and
`pop` removes an element no element outranks, or answers none on the empty queue; both keep the property; the sorted
vector is the same elements, none outranked by an earlier one. Beyond the contract of R126, the layout is the spec's
reference form (R121, R123; log entry 14). -/
def Obligations.HeapMeetsContract : Prop :=
  ∀ (o : Nat → Nat → Bool) (a : List Nat), (∀ x, o x x = false) →
    (∀ x y z, o x y = true → o y z = true → o x z = true) →
      (∀ x y z, o x z = true → o x y = true ∨ o y z = true) → HeapProperty o a →
        (∀ x, (heapPush o a x).Perm (x :: a) ∧ HeapProperty o (heapPush o a x)) ∧
        (a = [] → heapPop o a = none) ∧
        (a ≠ [] → ∃ x b, heapPop o a = some (x, b) ∧ a.Perm (x :: b) ∧ HeapProperty o b ∧
          ∀ y, y ∈ a → o y x = false) ∧
        (heapIntoSortedVec o a).Perm a ∧
        (heapIntoSortedVec o a).Pairwise (fun x y => o x y = false)

/-! ### BWT -/

/-- R163: unsigned byte order at the first difference, a proper prefix before the longer sequence. -/
def Obligations.LexLtIsTheSpecs : Prop :=
  ∀ a b : List Byte,
    lexLt a b = true ↔
      ∃ j, (∀ i, i < j → a[i]? = b[i]?) ∧
        ((∃ x y, a[j]? = some x ∧ b[j]? = some y ∧ x.toNat < y.toNat) ∨ (j = a.length ∧ a.length < b.length))

/-- R164, R165, R166: `BWT.FWD` completes on a text without the sentinel; SUFIDX is the permutation of the offsets of the
sentinel-extended text's suffixes in strictly rising lexicographic order, OPOS the rank of offset 0, and COMP the
character before each offset, the last one for offset 0. The empty text gives the empty COMP and OPOS 0. -/
def Obligations.BwtFwdSortsSuffixes : Prop :=
  ∀ s : State, s.params.maxLenOk = true → inPhase .bwtFwd s → s.bwt.textLen.toNat ≤ s.params.maxLen →
    s.sentinel ∉ s.textOf .bwt →
      ∃ t, exec .bwtFwd s = .next t ∧ Completed s t ∧ t.bwt.phase = .encoded ∧
        (s.bwt.textLen = 0 → t.bwtComp = [] ∧ t.bwtOpos = 0 ∧ t.bwtSufidx = s.bwtSufidx) ∧
        (s.bwt.textLen ≠ 0 →
          let ext := s.textOf .bwt ++ [s.sentinel]
          t.bwtSufidx.Perm (List.range ext.length) ∧
          (∀ r i j : Nat, t.bwtSufidx[r]? = some i → t.bwtSufidx[r + 1]? = some j →
            lexLt (ext.drop i) (ext.drop j) = true) ∧
          t.bwtSufidx[t.bwtOpos.toNat]? = some 0 ∧
          t.bwtComp.length = ext.length ∧
          (∀ r i : Nat, t.bwtSufidx[r]? = some i → t.bwtComp[r]? = if i = 0 then some s.sentinel else ext[i - 1]?))

/-- R161, R165: a text that contains the sentinel is F_SENTINEL with the least index; COMP_LEN becomes 0 and nothing else
is written. -/
def Obligations.BwtFwdRejectsSentinel : Prop :=
  ∀ (s : State) (good rest : List Byte), inPhase .bwtFwd s → s.bwt.textLen.toNat ≤ s.params.maxLen →
    s.textOf .bwt = good ++ s.sentinel :: rest → s.sentinel ∉ good →
      exec .bwtFwd s = .next ((s.dropComp .bwt).faultOnly .sentinel good.length)

/-- R167: after a `BWT.FWD` that completes on a text that is not empty, COMP is a permutation of the sentinel-extended
text, one longer than the text, and holds the sentinel exactly once, at index OPOS. -/
def Obligations.BwtFwdOutputHoldsSentinelOnce : Prop :=
  ∀ s t : State, s.params.maxLenOk = true → s.fault = false → s.bwt.textLen ≠ 0 → exec .bwtFwd s = .next t →
    t.fault = false →
      t.bwt.compLen.toNat = s.bwt.textLen.toNat + 1 ∧ t.bwtComp.Perm (s.textOf .bwt ++ [s.sentinel]) ∧
        t.bwtComp.count s.sentinel = 1 ∧ t.bwtComp[t.bwtOpos.toNat]? = some s.sentinel

/-- R168, R169: F is the sequence in ascending byte order; LSHIFT is a permutation of the positions with
`L[LSHIFT[r]] = F[r]` that takes the positions of each byte value in ascending order. -/
def Obligations.LeftShiftTakesBucketsInOrder : Prop :=
  ∀ l : List Byte,
    (sortedColumn l).Perm l ∧ (sortedColumn l).Pairwise (fun a b => a.toNat ≤ b.toNat) ∧
    (leftShift (sortedColumn l) (buckets l)).Perm (List.range l.length) ∧
    (∀ r i : Nat, (leftShift (sortedColumn l) (buckets l))[r]? = some i → l[i]? = (sortedColumn l)[r]?) ∧
    (∀ r r' i i' : Nat, r < r' → (leftShift (sortedColumn l) (buckets l))[r]? = some i →
      (leftShift (sortedColumn l) (buckets l))[r']? = some i' → l[i]? = l[i']? → i < i')

/-- R170, R171: `BWT.INV` completes where the four checks hold, and DECOMP is the bytes met walking by the inverse of
LSHIFT from OPOS, reversed, without the last; the empty COMP gives the empty text. -/
def Obligations.BwtInvWalksBack : Prop :=
  ∀ s : State, s.params.maxLenOk = true → inPhase .bwtInv s → s.bwt.compLen.toNat ≤ s.params.cap →
    (s.bwt.compLen = 0 →
      ∃ t, exec .bwtInv s = .next t ∧ Completed s t ∧ t.bwt.phase = .decoded ∧ t.decompOf .bwt = []) ∧
    (∀ lf : Nat → Nat,
      (∀ r i : Nat, (leftShift (sortedColumn s.bwtComp) (buckets s.bwtComp))[r]? = some i → lf i = r) →
        s.bwtComp.count s.sentinel = 1 → s.bwtComp[s.bwtOpos.toNat]? = some s.sentinel →
          (∀ a b, a < b → b < s.bwtComp.length → lf^[a] s.bwtOpos.toNat ≠ lf^[b] s.bwtOpos.toNat) →
            ∃ t, exec .bwtInv s = .next t ∧ Completed s t ∧ t.bwt.phase = .decoded ∧
              t.decompOf .bwt =
                (((List.range s.bwtComp.length).map fun k => s.bwtComp.getD (lf^[k] s.bwtOpos.toNat) 0).reverse).take
                  (s.bwtComp.length - 1))

/-- R171, R245: each failing check is F_BWT_STREAM with FAULT_INFO 0; DECOMP_LEN becomes 0 and nothing else changes. -/
def Obligations.BwtInvRejects : Prop :=
  ∀ s : State, inPhase .bwtInv s → s.bwt.compLen.toNat ≤ s.params.cap → s.bwt.compLen ≠ 0 →
    (s.bwt.compLen.toNat ≤ s.bwtOpos.toNat ∨ s.bwtComp.count s.sentinel ≠ 1 ∨
      s.bwtComp[s.bwtOpos.toNat]? ≠ some s.sentinel ∨
      (∃ (lf : Nat → Nat) (a b : Nat),
        (∀ r i : Nat, (leftShift (sortedColumn s.bwtComp) (buckets s.bwtComp))[r]? = some i → lf i = r) ∧
          a < b ∧ b < s.bwtComp.length ∧ lf^[a] s.bwtOpos.toNat = lf^[b] s.bwtOpos.toNat)) →
      exec .bwtInv s = .next ((s.dropDecomp .bwt).faultOnly .bwtStream 0)

/-- R173: the text a completed `BWT.INV` gives never holds the sentinel. -/
def Obligations.BwtInvNeverEmitsSentinel : Prop :=
  ∀ s t : State, s.params.maxLenOk = true → s.fault = false → exec .bwtInv s = .next t → t.fault = false →
    s.sentinel ∉ t.decompOf .bwt

/-! ### LZW -/

/-- R183, R184, R185: `LZW.ENC` completes; the text splits into the phrases of the greedy parse and COMP is their codes. -/
def Obligations.LzwEncGreedyParse : Prop :=
  ∀ s : State, s.params.maxLenOk = true → inPhase .lzwEnc s → s.lzw.textLen.toNat ≤ s.params.cap →
    ∃ t phrases, exec .lzwEnc s = .next t ∧ Completed s t ∧ t.lzw.phase = .encoded ∧
      phrases.flatten = s.textOf .lzw ∧ LzwParse phrases t.lzwComp

/-- R186, R187, R188: `LZW.DEC` completes where the first code is a byte's and the strings fit, and DECOMP is the strings
one after the other. -/
def Obligations.LzwDecExpandsCodes : Prop :=
  ∀ (s : State) (strs : List (List Byte)), s.params.maxLenOk = true → inPhase .lzwDec s →
    s.lzw.compLen.toNat ≤ s.params.cap → LzwExpansion s.lzwComp strs → strs.flatten.length ≤ s.params.cap →
      ∃ t, exec .lzwDec s = .next t ∧ Completed s t ∧ t.lzw.phase = .decoded ∧ t.decompOf .lzw = strs.flatten

/-- R188, R189: a first code of 256 or more is F_LZW_FIRST with the code; the first code whose string would pass `CAP`
bytes is F_OVERFLOW with its index. DECOMP_LEN becomes 0 and nothing else changes. -/
def Obligations.LzwDecFaults : Prop :=
  ∀ s : State, inPhase .lzwDec s → s.lzw.compLen.toNat ≤ s.params.cap →
    (∀ k rest, s.lzwComp = k :: rest → 256 ≤ k →
      exec .lzwDec s = .next ((s.dropDecomp .lzw).faultOnly .lzwFirst k)) ∧
    (∀ (codes rest : List Nat) (strs : List (List Byte)) (last : List Byte), s.lzwComp = codes ++ rest →
      LzwExpansion codes (strs ++ [last]) → strs.flatten.length ≤ s.params.cap →
        s.params.cap < (strs ++ [last]).flatten.length →
          exec .lzwDec s = .next ((s.dropDecomp .lzw).faultOnly .overflow strs.length))

/-! ### The composite -/

/-- R216, R219: with both units Idle, `BWTRLE.ENC` is `BWT.FWD`, a copy of BWT.COMP to RLE.TEXT, `RLE.ENC`, and ends with
the fault of `BWT.FWD` if that faults; it completes on a text without the sentinel. -/
def Obligations.BwtrleEncIsFwdThenRle : Prop :=
  ∀ s : State, s.params.maxLenOk = true → inPhase .bwtrleEnc s → s.fault = false →
    (∃ a, exec .bwtFwd s = .next a ∧
      exec .bwtrleEnc s = if a.fault then .next a else exec .rleEnc (a.putText .rle a.bwtComp)) ∧
    (s.bwt.textLen.toNat ≤ s.params.maxLen → s.sentinel ∉ s.textOf .bwt →
      ∃ t, exec .bwtrleEnc s = .next t ∧ Completed s t ∧ t.bwt.phase = .encoded ∧ t.rle.phase = .encoded ∧
        t.textOf .rle = t.bwtComp ∧
          t.rleComp.flatMap (fun p => List.replicate p.count p.sym) = t.bwtComp)

/-- R217, R219: with both units Encoded, `BWTRLE.DEC` is `RLE.DEC`, the length check of BWT.COMP (the RLE stage's writes
stay, log entry 24), the comparison of RLE.DECOMP with BWT.COMP, `BWT.INV`; a mismatch is F_COMPOSITE with the least
differing index, BWT.DECOMP_LEN becoming 0. It completes, with the text, on the parts and the column of a text without the
sentinel. -/
def Obligations.BwtrleDecChecksAndInverts : Prop :=
  ∀ s : State, s.params.maxLenOk = true → inPhase .bwtrleDec s → s.fault = false →
    (∃ a, exec .rleDec s = .next a ∧
      (a.fault = true → exec .bwtrleDec s = .next a) ∧
      (a.fault = false → s.params.cap < s.bwt.compLen.toNat →
        exec .bwtrleDec s = .next (a.faultOnly .len s.bwt.compLen.toNat)) ∧
      (a.fault = false → s.bwt.compLen.toNat ≤ s.params.cap → a.decompOf .rle ≠ s.bwtComp →
        ∃ d, exec .bwtrleDec s = .next ((a.dropDecomp .bwt).faultOnly .composite d) ∧
          (a.decompOf .rle).take d = s.bwtComp.take d ∧ d ≤ min (a.decompOf .rle).length s.bwtComp.length ∧
          (d < min (a.decompOf .rle).length s.bwtComp.length → (a.decompOf .rle)[d]? ≠ s.bwtComp[d]?)) ∧
      (a.fault = false → s.bwt.compLen.toNat ≤ s.params.cap → a.decompOf .rle = s.bwtComp →
        exec .bwtrleDec s = exec .bwtInv a)) ∧
    (∀ text : List Byte, text.length ≤ s.params.maxLen → s.sentinel ∉ text → (text = [] → s.bwtComp = []) →
      (text ≠ [] → s.bwtComp = lastColumn (text ++ [s.sentinel]) ∧
        s.bwtOpos.toNat = originalPos (text ++ [s.sentinel])) →
        (∀ p, p ∈ s.rleComp → 1 ≤ p.count) → s.rle.compLen.toNat ≤ s.params.cap →
          (s.rleComp.flatMap fun p => List.replicate p.count p.sym) = s.bwtComp →
            ∃ t, exec .bwtrleDec s = .next t ∧ Completed s t ∧ t.rle.phase = .decoded ∧ t.bwt.phase = .decoded ∧
              t.decompOf .bwt = text)

/-! ### Round trips: the commands written to CMD one after the other, no other host action between them -/

/-- R205. -/
def Obligations.RoundTripRle : Prop :=
  ∀ (s : State) (rest : List HostAction), s.params.maxLenOk = true → s.busy = false → s.fault = false →
    s.host = cmdWrites s.params (Variant.rle.encode ++ Variant.rle.decode) ++ rest → s.rle.phase = .idle →
      s.rle.textLen.toNat ≤ s.params.cap → s.written ⟨.rle, .text⟩ s.rle.textLen.toNat →
        ∃ t, runSteps 2 s = .next t ∧ t.host = rest ∧ t.fault = false ∧ t.done = true ∧ t.rle.phase = .decoded ∧
          t.decompOf .rle = s.textOf .rle

/-- R150, under either tie mode and every choice. -/
def Obligations.RoundTripHuffman : Prop :=
  ∀ (s : State) (rest : List HostAction), s.params.maxLenOk = true → s.busy = false → s.fault = false →
    s.host = cmdWrites s.params (Variant.huffman.encode ++ Variant.huffman.decode) ++ rest → s.huf.phase = .idle →
      s.huf.textLen.toNat ≤ s.params.cap → s.written ⟨.huf, .text⟩ s.huf.textLen.toNat →
        ∃ t, runSteps 3 s = .next t ∧ t.host = rest ∧ t.fault = false ∧ t.done = true ∧ t.huf.phase = .decoded ∧
          t.decompOf .huf = s.textOf .huf

/-- R172. -/
def Obligations.RoundTripBwt : Prop :=
  ∀ (s : State) (rest : List HostAction), s.params.maxLenOk = true → s.busy = false → s.fault = false →
    s.host = cmdWrites s.params (Variant.bwt.encode ++ Variant.bwt.decode) ++ rest → s.bwt.phase = .idle →
      s.bwt.textLen.toNat ≤ s.params.maxLen → s.written ⟨.bwt, .text⟩ s.bwt.textLen.toNat →
        s.sentinel ∉ s.textOf .bwt →
          ∃ t, runSteps 2 s = .next t ∧ t.host = rest ∧ t.fault = false ∧ t.done = true ∧ t.bwt.phase = .decoded ∧
            t.decompOf .bwt = s.textOf .bwt

/-- R190: the text comes back, and the strings the decoder gives the codes are the phrases of the encoder's parse, so both
insert the same entries in the same order. -/
def Obligations.RoundTripLzw : Prop :=
  ∀ (s : State) (rest : List HostAction), s.params.maxLenOk = true → s.busy = false → s.fault = false →
    s.host = cmdWrites s.params (Variant.lzw.encode ++ Variant.lzw.decode) ++ rest → s.lzw.phase = .idle →
      s.lzw.textLen.toNat ≤ s.params.cap → s.written ⟨.lzw, .text⟩ s.lzw.textLen.toNat →
        ∃ t phrases, runSteps 2 s = .next t ∧ t.host = rest ∧ t.fault = false ∧ t.done = true ∧
          t.lzw.phase = .decoded ∧ t.decompOf .lzw = s.textOf .lzw ∧
            LzwParse phrases t.lzwComp ∧ LzwExpansion t.lzwComp phrases

/-- R220. -/
def Obligations.RoundTripComposite : Prop :=
  ∀ (s : State) (rest : List HostAction), s.params.maxLenOk = true → s.busy = false → s.fault = false →
    s.host = cmdWrites s.params (Variant.bwtRle.encode ++ Variant.bwtRle.decode) ++ rest → s.bwt.phase = .idle →
      s.rle.phase = .idle → s.bwt.textLen.toNat ≤ s.params.maxLen →
        s.written ⟨.bwt, .text⟩ s.bwt.textLen.toNat → s.sentinel ∉ s.textOf .bwt →
          ∃ t, runSteps 2 s = .next t ∧ t.host = rest ∧ t.fault = false ∧ t.done = true ∧
            t.bwt.phase = .decoded ∧ t.rle.phase = .decoded ∧ t.decompOf .bwt = s.textOf .bwt

/-! ### Frames (R67): what a command leaves alone, whether it completes or faults. A command stores to one window, whose
bytes at and beyond the new length are unspecified afterwards (log entry 8); every byte of every other window reads as
before. -/

/-- `RLE.ENC`, `HUF.ENC`, `BWT.FWD`, `LZW.ENC`: their unit's PHASE, COMP_LEN and COMP, for `BWT.FWD` also OPOS and SUFIDX,
the STATUS flags and the fault registers. -/
def Obligations.EncodeFrames : Prop :=
  ∀ s t : State,
    (exec .rleEnc s = .next t →
      t = { s.withStatusOf t with
            rle := { s.rle with phase := t.rle.phase, compLen := t.rle.compLen, comp := t.rle.comp } } ∧
        ∀ w off, w ≠ ⟨.rle, .comp⟩ → t.byteAt w off = s.byteAt w off) ∧
    (exec .hufEnc s = .next t →
      t = { s.withStatusOf t with
            huf := { s.huf with phase := t.huf.phase, compLen := t.huf.compLen, comp := t.huf.comp } } ∧
        ∀ w off, w ≠ ⟨.huf, .comp⟩ → t.byteAt w off = s.byteAt w off) ∧
    (exec .bwtFwd s = .next t →
      t = { s.withStatusOf t with
            bwt := { s.bwt with phase := t.bwt.phase, compLen := t.bwt.compLen, comp := t.bwt.comp },
            bwtOpos := t.bwtOpos, bwtSufidx := t.bwtSufidx } ∧
        ∀ w off, w ≠ ⟨.bwt, .comp⟩ → t.byteAt w off = s.byteAt w off) ∧
    (exec .lzwEnc s = .next t →
      t = { s.withStatusOf t with
            lzw := { s.lzw with phase := t.lzw.phase, compLen := t.lzw.compLen, comp := t.lzw.comp } } ∧
        ∀ w off, w ≠ ⟨.lzw, .comp⟩ → t.byteAt w off = s.byteAt w off)

/-- `RLE.DEC`, `HUF.DEC`, `BWT.INV`, `LZW.DEC`: their unit's PHASE, DECOMP_LEN and DECOMP, the STATUS flags and the fault
registers. -/
def Obligations.DecodeFrames : Prop :=
  ∀ s t : State,
    (exec .rleDec s = .next t →
      t = { s.withStatusOf t with
            rle := { s.rle with phase := t.rle.phase, decompLen := t.rle.decompLen, decomp := t.rle.decomp } } ∧
        ∀ w off, w ≠ ⟨.rle, .decomp⟩ → t.byteAt w off = s.byteAt w off) ∧
    (exec .hufDec s = .next t →
      t = { s.withStatusOf t with
            huf := { s.huf with phase := t.huf.phase, decompLen := t.huf.decompLen, decomp := t.huf.decomp } } ∧
        ∀ w off, w ≠ ⟨.huf, .decomp⟩ → t.byteAt w off = s.byteAt w off) ∧
    (exec .bwtInv s = .next t →
      t = { s.withStatusOf t with
            bwt := { s.bwt with phase := t.bwt.phase, decompLen := t.bwt.decompLen, decomp := t.bwt.decomp } } ∧
        ∀ w off, w ≠ ⟨.bwt, .decomp⟩ → t.byteAt w off = s.byteAt w off) ∧
    (exec .lzwDec s = .next t →
      t = { s.withStatusOf t with
            lzw := { s.lzw with phase := t.lzw.phase, decompLen := t.lzw.decompLen, decomp := t.lzw.decomp } } ∧
        ∀ w off, w ≠ ⟨.lzw, .decomp⟩ → t.byteAt w off = s.byteAt w off)

/-- `HUF.BUILD` writes the Huffman tables, ROOT, NNODES, its PHASE, the STATUS flags and the fault registers, and no
window; the composites write what their two stages write, `BWTRLE.ENC` also RLE.TEXT. -/
def Obligations.BuildAndCompositeFrames : Prop :=
  ∀ s t : State,
    (exec .hufBuild s = .next t →
      t = { s.withStatusOf t with
            huf := { s.huf with phase := t.huf.phase }, hufRoot := t.hufRoot, hufNnodes := t.hufNnodes,
            hufFreq := t.hufFreq, hufNode := t.hufNode, hufCode := t.hufCode } ∧
        ∀ w off, t.byteAt w off = s.byteAt w off) ∧
    (exec .bwtrleEnc s = .next t →
      t = { s.withStatusOf t with
            rle := { t.rle with decompLen := s.rle.decompLen, decomp := s.rle.decomp },
            bwt := { s.bwt with phase := t.bwt.phase, compLen := t.bwt.compLen, comp := t.bwt.comp },
            bwtOpos := t.bwtOpos, bwtSufidx := t.bwtSufidx } ∧
        ∀ w off, w ∉ [⟨.bwt, .comp⟩, ⟨.rle, .text⟩, ⟨.rle, .comp⟩] → t.byteAt w off = s.byteAt w off) ∧
    (exec .bwtrleDec s = .next t →
      t = { s.withStatusOf t with
            rle := { s.rle with phase := t.rle.phase, decompLen := t.rle.decompLen, decomp := t.rle.decomp },
            bwt := { s.bwt with phase := t.bwt.phase, decompLen := t.bwt.decompLen, decomp := t.bwt.decomp } } ∧
        ∀ w off, w ∉ [⟨.rle, .decomp⟩, ⟨.bwt, .decomp⟩] → t.byteAt w off = s.byteAt w off)

/-! ### Host accesses -/

/-- R21 to R31: what a host read of each register offset returns, and that it changes nothing; CMD and every offset that
no rule names read 0. The data stands in `readData` (log entry 5). -/
def Obligations.HostReadsReturnRegisters : Prop :=
  ∀ s : State, s.busy = false →
    readsAs s 0x000 0 ∧
    readsAs s 0x004 (BitVec.ofNat 32 (2 * s.done.toNat + 4 * s.fault.toNat + 8 * s.selErr.toNat)) ∧
    readsAs s 0x008 (s.faultCode.setWidth 32) ∧ readsAs s 0x00C s.faultInfo ∧
    readsAs s 0x010 (s.sentinel.setWidth 32) ∧
    (∀ g u, (g, u) ∈ [(0x040, UnitId.rle), (0x080, .huf), (0x0C0, .bwt), (0x100, .lzw)] →
      readsAs s g (match (s.unit u).phase with
        | .idle => 0
        | .frequenciesComputed => 1
        | .treeBuilt => 2
        | .codesGenerated => 3
        | .encoded => 4
        | .decoded => 5) ∧
      readsAs s (g + 0x04) (s.unit u).textLen ∧ readsAs s (g + 0x08) (s.unit u).compLen ∧
      readsAs s (g + 0x0C) (s.unit u).decompLen) ∧
    readsAs s 0x0D0 s.bwtOpos ∧ readsAs s 0x090 (s.hufRoot.setWidth 32) ∧
    readsAs s 0x094 (s.hufNnodes.setWidth 32) ∧
    (∀ off, off % 4 = 0 → off < 0x140 →
      off ∉ [0x000, 0x004, 0x008, 0x00C, 0x010, 0x040, 0x044, 0x048, 0x04C, 0x080, 0x084, 0x088, 0x08C, 0x090, 0x094,
        0x0C0, 0x0C4, 0x0C8, 0x0CC, 0x0D0, 0x100, 0x104, 0x108, 0x10C] → readsAs s off 0)

/-- R25, R26, R28, R29, R31, R36: what a host write of each register offset but CMD's does; SENTINEL keeps bits 7:0,
read-only registers and offsets no rule names ignore the write. -/
def Obligations.HostWritesToRegisters : Prop :=
  ∀ (s : State) (v : Word), s.busy = false →
    writeGives s 0x010 v (fun t => { t with sentinel := v.setWidth 8 }) ∧
    writeGives s 0x044 v (fun t => { t with rle := { t.rle with textLen := v } }) ∧
    writeGives s 0x048 v (fun t => { t with rle := { t.rle with compLen := v } }) ∧
    writeGives s 0x084 v (fun t => { t with huf := { t.huf with textLen := v } }) ∧
    writeGives s 0x088 v (fun t => { t with huf := { t.huf with compLen := v } }) ∧
    writeGives s 0x0C4 v (fun t => { t with bwt := { t.bwt with textLen := v } }) ∧
    writeGives s 0x0C8 v (fun t => { t with bwt := { t.bwt with compLen := v } }) ∧
    writeGives s 0x0D0 v (fun t => { t with bwtOpos := v }) ∧
    writeGives s 0x104 v (fun t => { t with lzw := { t.lzw with textLen := v } }) ∧
    writeGives s 0x108 v (fun t => { t with lzw := { t.lzw with compLen := v } }) ∧
    (∀ off, off % 4 = 0 → off < 0x140 →
      off ∉ [0x000, 0x010, 0x044, 0x048, 0x084, 0x088, 0x0C4, 0x0C8, 0x0D0, 0x104, 0x108] →
        writeGives s off v fun t => t)

/-- R36, R62, R63 to R65, R69: an aligned host read of 1, 2 or 4 bytes of a window returns, little-endian and zero above,
every bit that was written and belongs to an element below the length register (in `HUF.COMP` an element is one bit, the
most significant of a byte first); it changes nothing else. (The data stands in `readData`, log entry 5. Of the other bits
nothing is said: they are free values, log entries 6, 13 and 15.) -/
def Obligations.HostReadsWrittenBytes : Prop :=
  ∀ (s : State) (w : Window) (off size : Nat) (rest : List HostAction), s.params.wf = true → s.busy = false →
    size ∈ [1, 2, 4] → off % size = 0 → off + size ≤ s.params.windowSize w →
      s.host = .read (s.params.windowBase w + off) size :: rest →
        ∃ v, step s = .next { s.takeAction rest with readData := some v } ∧
          (∀ k i b, k < size → i < 8 → 8 * (off + k) + (7 - i) < s.liveBits w →
            (s.mem w).lookup (off + k) = some b → v.getLsbD (8 * k + i) = b.getLsbD i) ∧
          ∀ j, 8 * size ≤ j → v.getLsbD j = false

/-- R36, R62, R70: a host write of 1, 2 or 4 bytes to a TEXT or COMP window, aligned, stores those bytes, the lowest
address holding bits 7:0, and no other byte of any window changes, nor a register; a DECOMP window ignores the write. -/
def Obligations.HostWritesToWindows : Prop :=
  ∀ (s : State) (w : Window) (off size : Nat) (v : Word) (rest : List HostAction), s.params.wf = true →
    s.busy = false → size ∈ [1, 2, 4] → off % size = 0 → off + size ≤ s.params.windowSize w →
      s.host = .write (s.params.windowBase w + off) size v :: rest →
        (w.kind = .decomp → step s = .next (s.takeAction rest)) ∧
        (w.kind ≠ .decomp →
          ∃ m, step s = .next ((s.takeAction rest).setMem w m) ∧
            ∀ a, m.lookup a =
              if off ≤ a ∧ a < off + size then some (v.extractLsb' (8 * (a - off)) 8) else (s.mem w).lookup a)

/-- R98: a `POKE` overwrites one element of a TEXT or COMP window and no register: a byte, the word of a part or of a code,
or one bit of HUF.COMP, the other seven of its byte kept (log entry 28). -/
def Obligations.PokeOverwritesOneElement : Prop :=
  ∀ (s : State) (rest : List HostAction), s.params.wf = true → s.busy = false →
    (∀ (w : Window) (i : Nat) (b : Byte), (w.kind = .text ∨ w = ⟨.bwt, .comp⟩) → i < s.params.cap →
      s.host = pokeByte s.params w i b :: rest →
        ∃ t, step s = .next t ∧ t = (s.takeAction rest).setMem w (t.mem w) ∧ t.byteAt w i = b ∧
          ∀ a, a ≠ i → (t.mem w).lookup a = (s.mem w).lookup a) ∧
    (∀ (w : Window) (k : Nat) (v : Word), (w = ⟨.rle, .comp⟩ ∨ w = ⟨.lzw, .comp⟩) → k < s.params.cap →
      s.host = pokeWord s.params w k v :: rest →
        ∃ t, step s = .next t ∧ t = (s.takeAction rest).setMem w (t.mem w) ∧ t.wordAt w k = v ∧
          ∀ a, a / 4 ≠ k → (t.mem w).lookup a = (s.mem w).lookup a) ∧
    (∀ (i : Nat) (v : Bool), i < s.params.hufBitsCap → s.host = pokeBit s i v :: rest →
      ∃ t, step s = .next t ∧ t = (s.takeAction rest).setMem ⟨.huf, .comp⟩ t.huf.comp ∧ t.hufBitAt i = v ∧
        (∀ k, k ≠ i → k / 8 = i / 8 → t.hufBitAt k = s.hufBitAt k) ∧
        ∀ a, a ≠ i / 8 → t.huf.comp.lookup a = s.huf.comp.lookup a)

/-- R70, R288: an access outside every region, of a width not allowed there, misaligned or past a window's end (log entry
11) has no next state, and neither has any access while BUSY = 1 but a read of STATUS. -/
def Obligations.MeaninglessAccessesHaveNoNextState : Prop :=
  ∀ (s : State) (a : HostAction) (addr size : Nat) (rest : List HostAction), s.params.wf = true →
    s.host = a :: rest → isAccess a addr size →
      ((∀ r, r ∈ s.params.regions → ¬ inRegion addr r) → NoNextState s) ∧
      (inRegion addr (s.params.base, 0x140) → size ≠ 4 ∨ addr % 4 ≠ 0 → NoNextState s) ∧
      (∀ w, inRegion addr (s.params.windowBase w, s.params.windowSize w) →
        size ∉ [1, 2, 4] ∨ addr % size ≠ 0 ∨ s.params.windowBase w + s.params.windowSize w < addr + size →
          NoNextState s) ∧
      (s.busy = true → a ≠ .read (s.params.base + 0x004) 4 → NoNextState s)

/-- R69: a read that has a next state changes nothing of the block. -/
def Obligations.ReadsChangeNoBlockState : Prop :=
  ∀ (s t : State) (addr size : Nat) (rest : List HostAction), s.host = .read addr size :: rest → step s = .next t →
    t = { s.takeAction rest with readData := t.readData }

/-- R63, R64, R65: where the elements of the buffers lie, and the 0 that `HUF.ENC` leaves in the unused low bits of the
last byte. -/
def Obligations.ElementLayouts : Prop :=
  (∀ (s : State) (u : UnitId) (i : Nat), i < (s.unit u).textLen.toNat →
    (s.textOf u)[i]? = some (s.byteAt ⟨u, .text⟩ i)) ∧
  (∀ (s : State) (u : UnitId) (i : Nat), i < (s.unit u).decompLen.toNat →
    (s.decompOf u)[i]? = some (s.byteAt ⟨u, .decomp⟩ i)) ∧
  (∀ (s : State) (i : Nat), i < s.bwt.compLen.toNat → s.bwtComp[i]? = some (s.byteAt ⟨.bwt, .comp⟩ i)) ∧
  (∀ (s : State) (k : Nat), k < s.rle.compLen.toNat →
    s.rleComp[k]? = some ⟨s.byteAt ⟨.rle, .comp⟩ (4 * k),
      (s.byteAt ⟨.rle, .comp⟩ (4 * k + 1)).toNat + 0x100 * (s.byteAt ⟨.rle, .comp⟩ (4 * k + 2)).toNat +
        0x10000 * (s.byteAt ⟨.rle, .comp⟩ (4 * k + 3)).toNat⟩) ∧
  (∀ (s : State) (k : Nat), k < s.lzw.compLen.toNat →
    s.lzwComp[k]? = some ((s.byteAt ⟨.lzw, .comp⟩ (4 * k)).toNat +
      0x100 * (s.byteAt ⟨.lzw, .comp⟩ (4 * k + 1)).toNat + 0x10000 * (s.byteAt ⟨.lzw, .comp⟩ (4 * k + 2)).toNat +
        0x1000000 * (s.byteAt ⟨.lzw, .comp⟩ (4 * k + 3)).toNat)) ∧
  (∀ (s : State) (k : Nat), k < s.huf.compLen.toNat →
    s.hufComp[k]? = some ((s.byteAt ⟨.huf, .comp⟩ (k / 8)).getLsbD (7 - k % 8))) ∧
  (∀ (s t : State) (k : Nat), s.memInv → s.fault = false → exec .hufEnc s = .next t → t.fault = false →
    t.huf.compLen.toNat ≤ k → k < 8 * ((t.huf.compLen.toNat + 7) / 8) →
      (t.byteAt ⟨.huf, .comp⟩ (k / 8)).getLsbD (7 - k % 8) = false)

/-! ### Invariants -/

/-- R73, R46, R282: a step performs the host's next action, whole, and with none left changes nothing; the parameters
never change. (That the script and the draw counter stand in State is the model's form: log entries 2 and 9.) -/
def Obligations.StepTakesOneHostAction : Prop :=
  ∀ s t : State, step s = .next t →
    t.params = s.params ∧
      ((s.host = [] ∧ t = s) ∨ (∃ a, s.host = a :: t.host) ∧ t.draw = s.draw + 1)

/-- R14, R22, R23, R24, R27, R35: every step keeps the flags and the fault registers consistent, the PHASEs among those a
host can see, and every DECOMP_LEN within the buffer. -/
def Obligations.StepKeepsStatusAndPhases : Prop :=
  ∀ s t : State, s.params.maxLenOk = true → s.statusOk = true → s.phasesOk = true → s.decompOk = true →
    step s = .next t → t.statusOk = true ∧ t.phasesOk = true ∧ t.decompOk = true

/-- Every step keeps the twelve windows in canonical form and inside their sizes (R61; the form is the model's, log entry
6). -/
def Obligations.StepKeepsWindowsCanonical : Prop :=
  ∀ s t : State, s.memInv → step s = .next t → t.memInv

/-- R38, R40, R135 to R137: every step keeps the arena a tree, the codes its paths, and no code a prefix of another. -/
def Obligations.StepKeepsHuffmanTree : Prop :=
  ∀ s t : State, s.hufInv → step s = .next t → t.hufInv

/-- The reset state meets the invariants; its parameters are well formed, the addresses being the model's choice (log entry
3). -/
def Obligations.ResetMeetsInvariants : Prop :=
  State.reset.statusOk = true ∧ State.reset.phasesOk = true ∧ State.reset.decompOk = true ∧ State.reset.memInv ∧
    State.reset.hufInv ∧ State.reset.params.wf = true
end

