-- ==== Sys2Proof/Laws/Bwt.lean ====
section
/-! SUPPORT. The Burrows-Wheeler transform of the model and its inverse (spec/41_bwt.md R160 to R173), as facts about lists:
the suffix order, the permutation it gives, and that the walk of R170 inverts the transform. -/

namespace Sys2Proof.Machine

/-! ### The order of R163 -/

/-- `lexLt` is the lexicographic order of the byte values. -/
theorem lexLt_iff (a b : List Byte) : lexLt a b = true ↔ a.map BitVec.toNat < b.map BitVec.toNat := by
  induction a generalizing b with
  | nil => cases b <;> simp [lexLt]
  | cons x xs ih =>
    cases b with
    | nil => simp [lexLt]
    | cons y ys =>
      rw [lexLt, List.map_cons, List.map_cons, List.cons_lt_cons_iff]
      by_cases h : x = y
      · subst h; simp [ih]
      · have : x.toNat ≠ y.toNat := fun e => h (BitVec.eq_of_toNat_eq e)
        simp [h, this]

theorem map_toNat_injective {a b : List Byte} (h : a.map BitVec.toNat = b.map BitVec.toNat) : a = b :=
  List.map_injective_iff.2 (fun _ _ e => BitVec.eq_of_toNat_eq e) h

theorem suffixLe_iff (t : List Byte) (i j : Nat) :
    suffixLe t i j = true ↔ (t.drop i).map BitVec.toNat ≤ (t.drop j).map BitVec.toNat := by
  have h := lexLt_iff (t.drop j) (t.drop i)
  rw [suffixLe]
  cases hl : lexLt (t.drop j) (t.drop i) with
  | true => simpa [hl] using h
  | false => simpa [hl] using h

/-! ### The sorted suffixes -/

theorem suffixIndices_perm (t : List Byte) : (suffixIndices t).Perm (List.range t.length) :=
  List.perm_insertionSort _ _

@[simp] theorem suffixIndices_length (t : List Byte) : (suffixIndices t).length = t.length := by
  simpa using (suffixIndices_perm t).length_eq

theorem mem_suffixIndices {t : List Byte} {i : Nat} : i ∈ suffixIndices t ↔ i < t.length := by
  simpa using (suffixIndices_perm t).mem_iff (a := i)

theorem suffixIndices_nodup (t : List Byte) : (suffixIndices t).Nodup :=
  (suffixIndices_perm t).nodup_iff.2 List.nodup_range

/-- Two suffixes at different offsets of a text are different. -/
theorem drop_ne {t : List Byte} {i j : Nat} (hi : i < t.length) (hij : i ≠ j) : t.drop i ≠ t.drop j := fun e => by
  have := congrArg List.length e
  simp at this
  omega

/-- `lex_lt(S[SUFIDX[r] ..], S[SUFIDX[r+1] ..])` for every rank (R164). -/
theorem suffixIndices_sorted (t : List Byte) :
    (suffixIndices t).Pairwise fun i j => (t.drop i).map BitVec.toNat < (t.drop j).map BitVec.toNat := by
  have hle : (suffixIndices t).Pairwise fun i j => suffixLe t i j = true := by
    have : Std.Total fun i j => suffixLe t i j = true := ⟨fun i j => by
      rw [suffixLe_iff, suffixLe_iff]; exact le_total _ _⟩
    have : IsTrans Nat fun i j => suffixLe t i j = true := ⟨fun i j k => by
      rw [suffixLe_iff, suffixLe_iff, suffixLe_iff]; exact le_trans⟩
    exact List.pairwise_insertionSort _ _
  refine (hle.and (suffixIndices_nodup t)).imp_of_mem ?_
  intro i j hi _ h
  refine lt_of_le_of_ne ((suffixLe_iff _ _ _).1 h.1) fun e => ?_
  exact drop_ne (mem_suffixIndices.1 hi) h.2 (map_toNat_injective e)

/-- The rank of a start offset. -/
def rankOf (t : List Byte) (i : Nat) : Nat := (suffixIndices t).idxOf i

theorem rankOf_lt {t : List Byte} {i : Nat} (h : i < t.length) : rankOf t i < t.length := by
  simpa [rankOf] using List.idxOf_lt_length_of_mem (mem_suffixIndices.2 h)

theorem getElem?_rankOf {t : List Byte} {i : Nat} (h : i < t.length) : (suffixIndices t)[rankOf t i]? = some i := by
  have hlt := List.idxOf_lt_length_of_mem (mem_suffixIndices.2 h)
  rw [rankOf, List.getElem?_eq_getElem hlt, List.getElem_idxOf hlt]

theorem rankOf_inj {t : List Byte} {i j : Nat} (hi : i < t.length) (hj : j < t.length) (h : rankOf t i = rankOf t j) :
    i = j := by
  have h1 := getElem?_rankOf hi
  rw [h, getElem?_rankOf hj] at h1
  exact (Option.some.inj h1).symm

theorem rankOf_of_getElem? {t : List Byte} {r i : Nat} (h : (suffixIndices t)[r]? = some i) : rankOf t i = r := by
  obtain ⟨hr, rfl⟩ := List.getElem?_eq_some_iff.1 h
  exact List.Nodup.idxOf_getElem (suffixIndices_nodup t) r hr

theorem rankOf_lt_rankOf {t : List Byte} {i j : Nat} (hi : i < t.length) (hj : j < t.length)
    (h : (t.drop i).map BitVec.toNat < (t.drop j).map BitVec.toNat) : rankOf t i < rankOf t j := by
  rcases Nat.lt_trichotomy (rankOf t i) (rankOf t j) with hlt | heq | hgt
  · exact hlt
  · cases rankOf_inj hi hj heq; exact absurd h (lt_irrefl _)
  · have hs := List.pairwise_iff_getElem.1 (suffixIndices_sorted t)
    have hri : rankOf t i < (suffixIndices t).length := by simpa using rankOf_lt hi
    have hrj : rankOf t j < (suffixIndices t).length := by simpa using rankOf_lt hj
    have h1 := hs _ _ hrj hri hgt
    have ei := (List.getElem?_eq_some_iff.1 (getElem?_rankOf hi)).2
    have ej := (List.getElem?_eq_some_iff.1 (getElem?_rankOf hj)).2
    rw [ei, ej] at h1
    exact absurd h (lt_asymm h1)

/-! ### A text with the sentinel at its end and nowhere else -/

/-- What R161 leaves of an accepted text: `S = T ++ [s]` with `s` not in `T`. -/
structure Terminated (t : List Byte) (s : Byte) (ext : List Byte) : Prop where
  eq : ext = t ++ [s]
  fresh : s ∉ t

variable {t ext : List Byte} {s : Byte}

theorem Terminated.length (h : Terminated t s ext) : ext.length = t.length + 1 := by simp [h.eq]

theorem Terminated.pos (h : Terminated t s ext) : 0 < ext.length := by simp [h.eq]

/-- The sentinel stands only at the last offset. -/
theorem Terminated.eq_last (h : Terminated t s ext) {i : Nat} (hi : ext[i]? = some s) : i + 1 = ext.length := by
  rw [h.eq] at hi ⊢
  by_cases hlt : i < t.length
  · rw [List.getElem?_append_left hlt] at hi
    exact absurd (List.mem_of_getElem? hi) h.fresh
  · have := (List.getElem?_eq_some_iff.1 hi).1
    simp at this ⊢
    omega

theorem Terminated.getLast (h : Terminated t s ext) : ext[ext.length - 1]? = some s := by simp [h.eq]

theorem charBefore_eq {i : Nat} (hi : i < ext.length) :
    ext[(i + ext.length - 1) % ext.length]? = some (charBefore ext i) := by
  have : (i + ext.length - 1) % ext.length < ext.length := Nat.mod_lt _ (by omega)
  simp [charBefore, List.getD_eq_getElem?_getD, List.getElem?_eq_getElem this]

theorem lastColumn_length (ext : List Byte) : (lastColumn ext).length = ext.length := by simp [lastColumn]

theorem lastColumn_rankOf {i : Nat} (hi : i < ext.length) : (lastColumn ext)[rankOf ext i]? = some (charBefore ext i) := by
  simp [lastColumn, getElem?_rankOf hi]

/-- Stepping back and forth along the cyclic text. -/
theorem cyclic_pred_succ {m i : Nat} (hi : i < m) : ((i + m - 1) % m + 1) % m = i := by
  rcases Nat.eq_zero_or_pos i with rfl | hpos
  · rw [Nat.zero_add, Nat.mod_eq_of_lt (show m - 1 < m by omega)]
    have : m - 1 + 1 = m := by omega
    rw [this, Nat.mod_self]
  · have : (i + m - 1) % m = i - 1 := by
      have : i + m - 1 = (i - 1) + m := by omega
      rw [this, Nat.add_mod_right, Nat.mod_eq_of_lt (by omega)]
    rw [this, Nat.mod_eq_of_lt (by omega)]
    omega

theorem cyclic_succ_pred {m i : Nat} (hi : i < m) : ((i + 1) % m + m - 1) % m = i := by
  by_cases h : i + 1 = m
  · rw [h, Nat.mod_self, Nat.mod_eq_of_lt (by omega)]
    omega
  · rw [Nat.mod_eq_of_lt (a := i + 1) (by omega)]
    have : i + 1 + m - 1 = i + m := by omega
    rw [this, Nat.add_mod_right, Nat.mod_eq_of_lt hi]

/-- The transform permutes the extended text (R167). -/
theorem lastColumn_perm (ext : List Byte) : (lastColumn ext).Perm ext := by
  have h1 : (lastColumn ext).Perm ((List.range ext.length).map (charBefore ext)) := (suffixIndices_perm ext).map _
  refine h1.trans ?_
  have h2 : ((List.range ext.length).map fun i => (i + ext.length - 1) % ext.length).Perm (List.range ext.length) := by
    refine (List.perm_ext_iff_of_nodup ?_ List.nodup_range).2 ?_
    · refine List.Nodup.map_on ?_ List.nodup_range
      intro a ha b hb e
      rw [← cyclic_pred_succ (List.mem_range.1 ha), e, cyclic_pred_succ (List.mem_range.1 hb)]
    · intro a
      constructor
      · intro ha
        obtain ⟨b, hb, rfl⟩ := List.mem_map.1 ha
        exact List.mem_range.2 (Nat.mod_lt _ (by have := List.mem_range.1 hb; omega))
      · intro ha
        have ha := List.mem_range.1 ha
        exact List.mem_map.2 ⟨(a + 1) % ext.length, List.mem_range.2 (Nat.mod_lt _ (by omega)), cyclic_succ_pred ha⟩
  have h3 := h2.map fun i => ext.getD i 0
  have h4 : (List.range ext.length).map (fun i => ext.getD i 0) = ext := by
    refine List.ext_getElem? fun i => ?_
    by_cases hi : i < ext.length
    · simp [hi, List.getD_eq_getElem?_getD]
    · simp [hi]
  rw [h4, List.map_map] at h3
  exact h3

/-! ### The sorted column and the buckets (R168, R169) -/

/-- The first column of the sorted rotations. -/
def firstColumn (ext : List Byte) : List Byte := (suffixIndices ext).map fun i => ext.getD i 0

theorem drop_eq_cons {i : Nat} (hi : i < ext.length) : ext.drop i = ext.getD i 0 :: ext.drop (i + 1) := by
  rw [List.drop_eq_getElem_cons hi]
  simp [List.getD_eq_getElem?_getD, hi]

theorem sortedColumn_perm (l : List Byte) : (sortedColumn l).Perm l := List.perm_insertionSort _ _

theorem sortedColumn_sorted (l : List Byte) : (sortedColumn l).Pairwise fun a b => a.toNat ≤ b.toNat := by
  have : Std.Total fun a b : Byte => a.toNat ≤ b.toNat := ⟨fun a b => Nat.le_total _ _⟩
  have : IsTrans Byte fun a b => a.toNat ≤ b.toNat := ⟨fun a b c => Nat.le_trans⟩
  exact List.pairwise_insertionSort _ _

/-- Two lists in ascending byte order with the same bytes are the same. -/
theorem eq_of_perm_of_ascending {a b : List Byte} (hp : a.Perm b) (ha : a.Pairwise fun x y => x.toNat ≤ y.toNat)
    (hb : b.Pairwise fun x y => x.toNat ≤ y.toNat) : a = b :=
  hp.eq_of_pairwise (fun _ _ _ _ h1 h2 => BitVec.eq_of_toNat_eq (Nat.le_antisymm h1 h2)) ha hb

theorem firstColumn_perm (ext : List Byte) : (firstColumn ext).Perm ext := by
  have h := (suffixIndices_perm ext).map fun i => ext.getD i 0
  have h4 : (List.range ext.length).map (fun i => ext.getD i 0) = ext := by
    refine List.ext_getElem? fun i => ?_
    by_cases hi : i < ext.length
    · simp [hi, List.getD_eq_getElem?_getD]
    · simp [hi]
  rwa [h4] at h

theorem firstColumn_sorted (ext : List Byte) : (firstColumn ext).Pairwise fun a b => a.toNat ≤ b.toNat := by
  refine List.pairwise_map.2 ((suffixIndices_sorted ext).imp_of_mem ?_)
  intro i j hi hj h
  rw [drop_eq_cons (mem_suffixIndices.1 hi), drop_eq_cons (mem_suffixIndices.1 hj), List.map_cons, List.map_cons,
    List.cons_lt_cons_iff] at h
  rcases h with h | h
  · exact Nat.le_of_lt h
  · exact Nat.le_of_eq h.1

/-- `F` of the transformed text is the first column of its sorted rotations. -/
theorem sortedColumn_lastColumn (ext : List Byte) : sortedColumn (lastColumn ext) = firstColumn ext :=
  eq_of_perm_of_ascending
    ((sortedColumn_perm _).trans ((lastColumn_perm ext).trans (firstColumn_perm ext).symm))
    (sortedColumn_sorted _) (firstColumn_sorted ext)

/-- The bucket loop of R169, said once: if each queue holds, in order, the positions wanted for its byte, the loop hands
them out as wanted. -/
theorem leftShift_eq (zs : List (Byte × Nat)) (q : Vector (List Nat) 256)
    (h : ∀ c : Byte, q.get c.toFin = (zs.filter fun z => z.1 = c).map Prod.snd) :
    leftShift (zs.map Prod.fst) q = zs.map Prod.snd := by
  induction zs generalizing q with
  | nil => rfl
  | cons z zs ih =>
    obtain ⟨c, i⟩ := z
    have hc := h c
    simp at hc
    rw [List.map_cons, List.map_cons, leftShift]
    split
    · rename_i e; rw [e] at hc; simp at hc
    · rename_i j rest e
      rw [e] at hc
      obtain ⟨rfl, hrest⟩ := List.cons.inj hc
      congr 1
      refine ih _ fun d => ?_
      by_cases hd : c = d
      · subst hd
        rw [hrest]
        simp [Vector.get_eq_getElem]
      · have hd' : c.toNat ≠ d.toNat := fun e => hd (BitVec.eq_of_toNat_eq e)
        have := h d
        simp [hd] at this
        rw [← this]
        simp [Vector.get_eq_getElem, hd']

/-- Two strictly ascending lists of positions with the same members are the same. -/
theorem eq_of_strictly_ascending {a b : List Nat} (ha : a.Pairwise (· < ·)) (hb : b.Pairwise (· < ·))
    (h : ∀ x, x ∈ a ↔ x ∈ b) : a = b :=
  List.Perm.eq_of_pairwise (le := (· < ·)) (fun _ _ _ _ h1 h2 => absurd h1 (Nat.lt_asymm h2)) ha hb
    ((List.perm_ext_iff_of_nodup (ha.imp Nat.ne_of_lt) (hb.imp Nat.ne_of_lt)).2 h)

/-- Row `r` moved one character to the left. -/
def shiftedRank (ext : List Byte) (i : Nat) : Nat := rankOf ext ((i + 1) % ext.length)

theorem bucket_lastColumn (h : Terminated t s ext) (c : Byte) :
    bucket (lastColumn ext) c =
      ((suffixIndices ext).filter fun i => ext.getD i 0 = c).map (shiftedRank ext) := by
  have hpos := h.pos
  refine eq_of_strictly_ascending ?_ ?_ ?_
  · exact List.Pairwise.filter _ List.pairwise_lt_range
  · refine List.pairwise_map.2 (((suffixIndices_sorted ext).filter _).imp_of_mem ?_)
    intro i j hi hj hlt
    obtain ⟨hi, ci⟩ := List.mem_filter.1 hi
    obtain ⟨hj, cj⟩ := List.mem_filter.1 hj
    have hi := mem_suffixIndices.1 hi
    have hj := mem_suffixIndices.1 hj
    simp only [decide_eq_true_eq] at ci cj
    have hij : i ≠ j := fun e => by subst e; exact absurd hlt (lt_irrefl _)
    have gi : ext[i]? = some c := by rw [← ci]; simp [List.getD_eq_getElem?_getD, hi]
    have gj : ext[j]? = some c := by rw [← cj]; simp [List.getD_eq_getElem?_getD, hj]
    have hcs : c ≠ s := fun e => by
      subst e
      have := h.eq_last gi
      have := h.eq_last gj
      omega
    have last {k : Nat} (hk : k < ext.length) (gk : ext[k]? = some c) : k + 1 < ext.length := by
      by_contra hcon
      have : k = ext.length - 1 := by omega
      rw [this, h.getLast] at gk
      exact hcs (Option.some.inj gk).symm
    have li := last hi gi
    have lj := last hj gj
    rw [drop_eq_cons hi, drop_eq_cons hj, ci, cj, List.map_cons, List.map_cons, List.cons_lt_cons_iff] at hlt
    rw [shiftedRank, shiftedRank, Nat.mod_eq_of_lt li, Nat.mod_eq_of_lt lj]
    exact rankOf_lt_rankOf li lj (by simpa using hlt)
  · intro x
    rw [bucket, List.mem_filter, List.mem_range, lastColumn_length]
    constructor
    · rintro ⟨hx, hc⟩
      have hc : (lastColumn ext)[x]? = some c := by simpa using hc
      obtain ⟨i, hi⟩ : ∃ i, (suffixIndices ext)[x]? = some i :=
        ⟨_, List.getElem?_eq_getElem (by simpa using hx)⟩
      have hil := mem_suffixIndices.1 (List.mem_of_getElem? hi)
      have hr := rankOf_of_getElem? hi
      rw [← hr, lastColumn_rankOf hil] at hc
      have hcb := Option.some.inj hc
      have hplt : (i + ext.length - 1) % ext.length < ext.length := Nat.mod_lt _ hpos
      refine List.mem_map.2 ⟨(i + ext.length - 1) % ext.length,
        List.mem_filter.2 ⟨mem_suffixIndices.2 hplt, by simpa [charBefore] using hcb⟩, ?_⟩
      rw [shiftedRank, cyclic_pred_succ hil, hr]
    · intro hx
      obtain ⟨i, hi, rfl⟩ := List.mem_map.1 hx
      obtain ⟨hi, ci⟩ := List.mem_filter.1 hi
      have hi := mem_suffixIndices.1 hi
      have hslt : (i + 1) % ext.length < ext.length := Nat.mod_lt _ hpos
      refine ⟨rankOf_lt hslt, ?_⟩
      rw [shiftedRank, lastColumn_rankOf hslt, charBefore, cyclic_succ_pred hi]
      simpa using ci

/-- `LSHIFT` of the transformed text: each row's left rotation. -/
theorem leftShift_lastColumn (h : Terminated t s ext) :
    leftShift (sortedColumn (lastColumn ext)) (buckets (lastColumn ext)) =
      (suffixIndices ext).map (shiftedRank ext) := by
  have hz := leftShift_eq ((suffixIndices ext).map fun i => (ext.getD i 0, shiftedRank ext i)) (buckets (lastColumn ext))
    fun c => by
      simp only [buckets, Vector.get_eq_getElem, Vector.getElem_ofFn]
      rw [show BitVec.ofFin (⟨c.toFin.val, c.toFin.isLt⟩ : Fin (2 ^ 8)) = c from rfl, bucket_lastColumn h]
      simp [List.filter_map, Function.comp_def]
  rw [sortedColumn_lastColumn]
  simpa [firstColumn, List.map_map, Function.comp_def] using hz

/-- `LF` of the transformed text: each row's right rotation (R170). -/
theorem inversePermutation_lastColumn (h : Terminated t s ext) {i : Nat} (hi : i < ext.length) :
    (inversePermutation (leftShift (sortedColumn (lastColumn ext)) (buckets (lastColumn ext)))).getD (rankOf ext i) 0 =
      rankOf ext ((i + ext.length - 1) % ext.length) := by
  rw [leftShift_lastColumn h, inversePermutation]
  have hr := rankOf_lt hi
  have hp : (i + ext.length - 1) % ext.length < ext.length := Nat.mod_lt _ h.pos
  have hnd : ((suffixIndices ext).map (shiftedRank ext)).Nodup := by
    refine List.Nodup.map_on ?_ (suffixIndices_nodup ext)
    intro a ha b hb e
    have ha := mem_suffixIndices.1 ha
    have hb := mem_suffixIndices.1 hb
    have := rankOf_inj (Nat.mod_lt _ h.pos) (Nat.mod_lt _ h.pos) e
    rw [← cyclic_succ_pred ha, this, cyclic_succ_pred hb]
  have hat : ((suffixIndices ext).map (shiftedRank ext))[rankOf ext ((i + ext.length - 1) % ext.length)]? =
      some (rankOf ext i) := by
    rw [List.getElem?_map, getElem?_rankOf hp]
    simp [shiftedRank, cyclic_pred_succ hi]
  obtain ⟨hlt, hget⟩ := List.getElem?_eq_some_iff.1 hat
  have hidx := List.Nodup.idxOf_getElem hnd _ hlt
  rw [hget] at hidx
  rw [List.getD_eq_getElem?_getD, List.getElem?_map, List.getElem?_range (by simpa using hr)]
  simpa using hidx

/-! ### The walk (R170, R171) -/

/-- Reading the text backwards from the unrotated row: with `n` characters to go the walk stands at the row of the
rotation at `n mod m`. -/
theorem walkBack_lastColumn (h : Terminated t s ext) (n : Nat) (hn : n ≤ ext.length) (seen : List Nat) (em : List Byte)
    (hseen : ∀ p ∈ seen, ∃ j, n < j ∧ j ≤ ext.length ∧ p = rankOf ext (j % ext.length)) :
    walkBack (lastColumn ext)
        (inversePermutation (leftShift (sortedColumn (lastColumn ext)) (buckets (lastColumn ext)))) n
        (rankOf ext (n % ext.length)) seen em = .ok (em ++ (ext.take n).reverse) := by
  induction n generalizing seen em with
  | zero => simp [walkBack]
  | succ n ih =>
    have hpos := h.pos
    have hmod : (n + 1) % ext.length < ext.length := Nat.mod_lt _ hpos
    have hback : ((n + 1) % ext.length + ext.length - 1) % ext.length = n := cyclic_succ_pred (by omega)
    have hnot : rankOf ext ((n + 1) % ext.length) ∉ seen := fun hmem => by
      obtain ⟨j, h1, h2, h3⟩ := hseen _ hmem
      have hjm := rankOf_inj hmod (Nat.mod_lt _ hpos) h3
      by_cases hj : j = ext.length
      · rw [hj, Nat.mod_self, Nat.mod_eq_of_lt (by omega)] at hjm
        omega
      · rw [Nat.mod_eq_of_lt (a := j) (by omega), Nat.mod_eq_of_lt (by omega)] at hjm
        omega
    rw [walkBack, if_neg hnot, inversePermutation_lastColumn h hmod, hback]
    have hchar : (lastColumn ext).getD (rankOf ext ((n + 1) % ext.length)) 0 = ext.getD n 0 := by
      rw [List.getD_eq_getElem?_getD, lastColumn_rankOf hmod]
      simp [charBefore, hback]
    have hn' : n % ext.length = n := Nat.mod_eq_of_lt (by omega)
    have := ih (by omega) (rankOf ext ((n + 1) % ext.length) :: seen) (em ++ [ext.getD n 0]) fun p hp => by
      rcases List.mem_cons.1 hp with rfl | hp
      · exact ⟨n + 1, by omega, hn, rfl⟩
      · obtain ⟨j, h1, h2, h3⟩ := hseen p hp
        exact ⟨j, by omega, h2, h3⟩
    rw [hn'] at this
    rw [hchar, this]
    have hget : ext[n]? = some (ext.getD n 0) := by
      simp [List.getD_eq_getElem?_getD, show n < ext.length by omega]
    rw [List.take_add_one, hget]
    simp

theorem originalPos_lt (h : Terminated t s ext) : originalPos ext < ext.length := rankOf_lt h.pos

/-- `COMP[OPOS] = s` (R167). -/
theorem lastColumn_originalPos (h : Terminated t s ext) : (lastColumn ext)[originalPos ext]? = some s := by
  have hlast := charBefore_eq h.pos
  rw [show (0 + ext.length - 1) % ext.length = ext.length - 1 from by
    rw [Nat.zero_add]; exact Nat.mod_eq_of_lt (by have := h.pos; omega), h.getLast] at hlast
  rw [show originalPos ext = rankOf ext 0 from rfl, lastColumn_rankOf h.pos, hlast]

/-- `s` occurs in `COMP` exactly once (R167). -/
theorem lastColumn_count (h : Terminated t s ext) : (lastColumn ext).count s = 1 := by
  rw [(lastColumn_perm ext).count_eq, h.eq]
  simp [List.count_eq_zero.2 h.fresh]

/-- The round trip of the pure transform (R172). -/
theorem bwtInverse_lastColumn (h : Terminated t s ext) :
    bwtInverse (lastColumn ext) s (originalPos ext) = .ok t := by
  have hw := walkBack_lastColumn h ext.length (Nat.le_refl _) [] [] (by simp)
  rw [Nat.mod_self] at hw
  have hlt := originalPos_lt h
  rw [bwtInverse, if_neg (by rw [lastColumn_length]; omega), if_neg (by rw [lastColumn_count h]; simp),
    if_neg (by rw [lastColumn_originalPos h]; simp), lastColumn_length]
  rw [show originalPos ext = rankOf ext 0 from rfl, hw]
  simp only [Except.map, List.nil_append, List.take_length, List.reverse_reverse]
  rw [h.length, h.eq]
  simp

/-! ### The inverse on any stream -/

theorem walkBack_ok {l : List Byte} {lf : List Nat} {n p : Nat} {seen : List Nat} {em r : List Byte}
    (h : walkBack l lf n p seen em = .ok r) : r.length = em.length + n ∧ em <+: r := by
  induction n generalizing p seen em with
  | zero => cases h; exact ⟨by simp, List.prefix_refl _⟩
  | succ n ih =>
    rw [walkBack] at h
    split at h
    · cases h
    · have := ih h
      exact ⟨by simp at this; omega, (List.prefix_append _ _).trans this.2⟩

theorem walkBack_error {l : List Byte} {lf : List Nat} {n p : Nat} {seen : List Nat} {em : List Byte} {t : Trap}
    (h : walkBack l lf n p seen em = .error t) : t = ⟨.bwtStream, 0⟩ := by
  induction n generalizing p seen em with
  | zero => cases h
  | succ n ih =>
    rw [walkBack] at h
    split at h
    · cases h; rfl
    · exact ih h

theorem bwtInverse_error {l : List Byte} {s : Byte} {o : Nat} {t : Trap} (h : bwtInverse l s o = .error t) :
    t = ⟨.bwtStream, 0⟩ := by
  rw [bwtInverse] at h
  split at h
  · cases h; rfl
  split at h
  · cases h; rfl
  split at h
  · cases h; rfl
  · cases hw : walkBack l (inversePermutation (leftShift (sortedColumn l) (buckets l))) l.length o [] [] with
    | ok r => rw [hw] at h; cases h
    | error e => rw [hw] at h; cases h; exact walkBack_error hw

theorem bwtInverse_ok_length {l r : List Byte} {s : Byte} {o : Nat} (h : bwtInverse l s o = .ok r) :
    r.length = l.length - 1 := by
  rw [bwtInverse] at h
  split at h
  · cases h
  split at h
  · cases h
  split at h
  · cases h
  · cases hw : walkBack l (inversePermutation (leftShift (sortedColumn l) (buckets l))) l.length o [] [] with
    | ok em => rw [hw] at h; cases h; simp [(walkBack_ok hw).1]
    | error e => rw [hw] at h; cases h

end Sys2Proof.Machine
end

