-- ==== Sys2Proof/Laws/BwtWalk.lean ====
section
/-! SUPPORT. The inverse transform on any sequence (spec/41_bwt.md R168 to R171), whether a text gave it or not: what the
bucket loop hands out, what the walk emits, and when it comes back to a position already seen. -/

namespace Sys2Proof.Machine

/-- The positions of a sequence, byte value by byte value, each value's positions ascending. -/
def positionsByByte (l : List Byte) : List Nat := ((List.range 256).map (BitVec.ofNat 8)).flatMap (bucket l)

theorem mem_bucket {l : List Byte} {c : Byte} {i : Nat} : i ∈ bucket l c ↔ l[i]? = some c := by
  rw [bucket, List.mem_filter, List.mem_range]
  constructor
  · rintro ⟨_, h⟩; simpa using h
  · intro h; exact ⟨(List.getElem?_eq_some_iff.1 h).1, by simpa using h⟩

theorem bucket_ascending (l : List Byte) (c : Byte) : (bucket l c).Pairwise (· < ·) :=
  List.Pairwise.filter _ List.pairwise_lt_range

theorem byteValues_ascending : ((List.range 256).map (BitVec.ofNat 8)).Pairwise fun a b => a.toNat < b.toNat := by
  refine List.pairwise_map.2 (List.pairwise_lt_range.imp_of_mem fun {a b} ha hb h => ?_)
  simp at ha hb ⊢
  omega

theorem mem_byteValues (c : Byte) : c ∈ (List.range 256).map (BitVec.ofNat 8) :=
  List.mem_map.2 ⟨c.toNat, List.mem_range.2 c.isLt, by simp⟩

/-- Positions of one byte value come in ascending order. -/
theorem positionsByByte_stable (l : List Byte) :
    (positionsByByte l).Pairwise fun i j => l[i]? = l[j]? → i < j := by
  refine List.pairwise_flatMap.2 ⟨fun c _ => (bucket_ascending l c).imp fun {i j} h => fun _ => h, ?_⟩
  refine byteValues_ascending.imp fun {c d} hcd i hi j hj e => ?_
  rw [mem_bucket.1 hi, mem_bucket.1 hj] at e
  cases Option.some.inj e
  exact absurd hcd (lt_irrefl _)

theorem positionsByByte_ascending (l : List Byte) :
    ((positionsByByte l).map fun i => l.getD i 0).Pairwise fun a b => a.toNat ≤ b.toNat := by
  refine List.pairwise_map.2 (List.pairwise_flatMap.2 ⟨fun c _ => ?_, ?_⟩)
  · refine (bucket_ascending l c).imp_of_mem fun {i j} hi hj _ => ?_
    simp [List.getD_eq_getElem?_getD, mem_bucket.1 hi, mem_bucket.1 hj]
  · refine byteValues_ascending.imp fun {c d} hcd i hi j hj => ?_
    simp only [List.getD_eq_getElem?_getD, mem_bucket.1 hi, mem_bucket.1 hj, Option.getD_some]
    exact Nat.le_of_lt hcd

theorem mem_positionsByByte {l : List Byte} {i : Nat} : i ∈ positionsByByte l ↔ i < l.length := by
  rw [positionsByByte, List.mem_flatMap]
  constructor
  · rintro ⟨c, _, h⟩; exact (List.getElem?_eq_some_iff.1 (mem_bucket.1 h)).1
  · intro h; exact ⟨l[i], mem_byteValues _, mem_bucket.2 (List.getElem?_eq_getElem h)⟩

theorem positionsByByte_nodup (l : List Byte) : (positionsByByte l).Nodup := by
  refine (positionsByByte_stable l).imp fun {i j} h e => ?_
  subst e
  exact absurd (h rfl) (Nat.lt_irrefl _)

theorem positionsByByte_perm (l : List Byte) : (positionsByByte l).Perm (List.range l.length) :=
  (List.perm_ext_iff_of_nodup (positionsByByte_nodup l) List.nodup_range).2 fun i => by
    rw [mem_positionsByByte, List.mem_range]

theorem sortedColumn_eq (l : List Byte) : sortedColumn l = (positionsByByte l).map fun i => l.getD i 0 := by
  refine eq_of_perm_of_ascending ?_ (sortedColumn_sorted l) (positionsByByte_ascending l)
  refine (sortedColumn_perm l).trans (List.Perm.symm ?_)
  refine ((positionsByByte_perm l).map _).trans (List.Perm.of_eq ?_)
  refine List.ext_getElem (by simp) fun i h1 h2 => ?_
  simp [List.getD_eq_getElem?_getD, h2]

/-- Everything about the bucket loop of R169: it hands out the positions byte value by byte value. -/
theorem leftShift_eq_positions (l : List Byte) : leftShift (sortedColumn l) (buckets l) = positionsByByte l := by
  have one : ∀ (cs : List Byte) (c : Byte), cs.Nodup →
      ((cs.flatMap fun d => (bucket l d).map fun i => (d, i)).filter fun z => z.1 = c).map Prod.snd =
        if c ∈ cs then bucket l c else [] := by
    intro cs c hn
    induction cs with
    | nil => simp
    | cons d cs ih =>
      obtain ⟨hd, hn⟩ := List.nodup_cons.1 hn
      rw [List.flatMap_cons, List.filter_append, List.map_append, ih hn]
      by_cases hcd : d = c
      · subst hcd
        simp [hd, List.filter_map, Function.comp_def]
      · simp [hcd, Ne.symm hcd, List.filter_map, Function.comp_def]
  have hz := leftShift_eq (((List.range 256).map (BitVec.ofNat 8)).flatMap fun d => (bucket l d).map fun i => (d, i))
    (buckets l) fun c => by
      rw [one _ _ (byteValues_ascending.imp fun h e => by subst e; exact absurd h (lt_irrefl _)),
        if_pos (mem_byteValues c), buckets, Vector.get_eq_getElem, Vector.getElem_ofFn]
  rw [List.map_flatMap, List.map_flatMap] at hz
  have hsnd : (fun d => ((bucket l d).map fun i => (d, i)).map Prod.snd) = bucket l := by
    funext d; simp [Function.comp_def]
  rw [hsnd] at hz
  rw [sortedColumn_eq, positionsByByte, List.map_flatMap, ← hz]
  congr 1
  refine List.flatMap_congr fun d _ => ?_
  rw [List.map_map]
  refine List.map_congr_left fun i hi => ?_
  simp [List.getD_eq_getElem?_getD, mem_bucket.1 hi]

/-! ### The inverse permutation -/

/-- `LF[LSHIFT[r]] = r` (R170) for any function that says so of every rank. -/
theorem inversePermutation_getD {l : List Byte} {lf : Nat → Nat}
    (h : ∀ r i : Nat, (leftShift (sortedColumn l) (buckets l))[r]? = some i → lf i = r) {p : Nat} (hp : p < l.length) :
    (inversePermutation (leftShift (sortedColumn l) (buckets l))).getD p 0 = lf p ∧ lf p < l.length := by
  rw [leftShift_eq_positions] at h ⊢
  have hlen : (positionsByByte l).length = l.length := by simpa using (positionsByByte_perm l).length_eq
  have hlt := List.idxOf_lt_length_of_mem (mem_positionsByByte.2 hp)
  have hr := h _ p (by rw [List.getElem?_eq_getElem hlt, List.getElem_idxOf hlt])
  rw [hr, inversePermutation, List.getD_eq_getElem?_getD, List.getElem?_map, List.getElem?_range (by omega)]
  exact ⟨rfl, by omega⟩

/-- Such a function there is. -/
theorem inversePermutation_spec (l : List Byte) :
    ∀ r i : Nat, (leftShift (sortedColumn l) (buckets l))[r]? = some i →
      (leftShift (sortedColumn l) (buckets l)).idxOf i = r := by
  intro r i h
  rw [leftShift_eq_positions] at h ⊢
  obtain ⟨hr, rfl⟩ := List.getElem?_eq_some_iff.1 h
  exact (positionsByByte_nodup l).idxOf_getElem r hr

/-! ### The walk -/

/-- A walk that meets no position twice emits the bytes at the positions it meets. -/
theorem walkBack_eq {l : List Byte} {tab : List Nat} {lf : Nat → Nat}
    (htab : ∀ p, p < l.length → tab.getD p 0 = lf p ∧ lf p < l.length) (n : Nat) (p : Nat) (hp : p < l.length)
    (seen : List Nat) (em : List Byte) (hseen : ∀ k, k < n → lf^[k] p ∉ seen)
    (hne : ∀ a b, a < b → b < n → lf^[a] p ≠ lf^[b] p) :
    walkBack l tab n p seen em = .ok (em ++ (List.range n).map fun k => l.getD (lf^[k] p) 0) := by
  induction n generalizing p seen em with
  | zero => simp [walkBack]
  | succ n ih =>
    rw [walkBack, if_neg (show p ∉ seen from hseen 0 (by omega)), (htab p hp).1,
      ih (lf p) (htab p hp).2 (p :: seen) (em ++ [l.getD p 0]) ?_ ?_]
    · simp [List.range_succ_eq_map, Function.comp_def]
    · intro k hk hmem
      rcases List.mem_cons.1 hmem with e | hmem
      · exact hne 0 (k + 1) (by omega) (by omega) e.symm
      · exact hseen (k + 1) (by omega) hmem
    · intro a b hab hb
      exact hne (a + 1) (b + 1) (by omega) (by omega)

/-- A walk that ends has met no position twice. -/
theorem walkBack_distinct {l : List Byte} {tab : List Nat} {lf : Nat → Nat}
    (htab : ∀ p, p < l.length → tab.getD p 0 = lf p ∧ lf p < l.length) {n p : Nat} (hp : p < l.length)
    {seen : List Nat} {em r : List Byte} (h : walkBack l tab n p seen em = .ok r) :
    (∀ k, k < n → lf^[k] p ∉ seen) ∧ ∀ a b, a < b → b < n → lf^[a] p ≠ lf^[b] p := by
  induction n generalizing p seen em with
  | zero => exact ⟨fun k hk => by omega, fun a b _ hb => by omega⟩
  | succ n ih =>
    rw [walkBack] at h
    split at h
    · cases h
    rename_i hps
    rw [(htab p hp).1] at h
    obtain ⟨h1, h2⟩ := ih (htab p hp).2 h
    constructor
    · intro k hk
      cases k with
      | zero => exact hps
      | succ k => exact fun hm => h1 k (by omega) (List.mem_cons_of_mem _ hm)
    · intro a b hab hb
      cases b with
      | zero => omega
      | succ b =>
        cases a with
        | zero => exact fun e => h1 b (by omega) (by rw [← Function.iterate_succ_apply, ← e]; simp)
        | succ a => exact h2 a b (by omega) (by omega)

/-- A byte that occurs once occurs at one position. -/
theorem position_unique {l : List Byte} {c : Byte} (h : l.count c = 1) {i j : Nat} (hi : l[i]? = some c)
    (hj : l[j]? = some c) : i = j := by
  induction l generalizing i j with
  | nil => simp at hi
  | cons x l ih =>
    have none_after : x = c → ∀ k, l[k]? ≠ some c := fun e k hk => by
      subst e
      have : l.count x = 0 := by simpa using h
      exact List.count_eq_zero.1 this (List.mem_of_getElem? hk)
    cases i with
    | zero =>
      cases j with
      | zero => rfl
      | succ j => exact absurd (by simpa using hj) (none_after (by simpa using hi) j)
    | succ i =>
      cases j with
      | zero => exact absurd (by simpa using hi) (none_after (by simpa using hj) i)
      | succ j =>
        have hx : x ≠ c := fun e => none_after e i (by simpa using hi)
        exact congrArg Nat.succ (ih (by simpa [hx] using h) (by simpa using hi) (by simpa using hj))

end Sys2Proof.Machine
end

