-- ==== Sys2Proof/Laws/State.lean ====
section
/-! SUPPORT. One lemma per field per update of the state, each true by the definitions: what an update leaves of every other
field, and the value it gives the field it is for. -/

namespace Sys2Proof.Machine

/-! ### Units by name -/
@[simp] theorem State.unit_rle (s : State) : s.unit .rle = s.rle := rfl
@[simp] theorem State.unit_huf (s : State) : s.unit .huf = s.huf := rfl
@[simp] theorem State.unit_bwt (s : State) : s.unit .bwt = s.bwt := rfl
@[simp] theorem State.unit_lzw (s : State) : s.unit .lzw = s.lzw := rfl

@[simp] theorem State.unit_setUnit (s : State) (u : UnitId) (c : CodecUnit) : (s.setUnit u c).unit u = c := by
  cases u <;> rfl

theorem State.unit_setUnit_ne (s : State) {u v : UnitId} (h : v ≠ u) (c : CodecUnit) :
    (s.setUnit u c).unit v = s.unit v := by
  cases u <;> cases v <;> first | rfl | exact absurd rfl h

@[simp] theorem State.setUnit_rle_rle (s : State) (c : CodecUnit) : (s.setUnit .rle c).rle = c := rfl
@[simp] theorem State.setUnit_rle_huf (s : State) (c : CodecUnit) : (s.setUnit .rle c).huf = s.huf := rfl
@[simp] theorem State.setUnit_rle_bwt (s : State) (c : CodecUnit) : (s.setUnit .rle c).bwt = s.bwt := rfl
@[simp] theorem State.setUnit_rle_lzw (s : State) (c : CodecUnit) : (s.setUnit .rle c).lzw = s.lzw := rfl
@[simp] theorem State.setUnit_huf_rle (s : State) (c : CodecUnit) : (s.setUnit .huf c).rle = s.rle := rfl
@[simp] theorem State.setUnit_huf_huf (s : State) (c : CodecUnit) : (s.setUnit .huf c).huf = c := rfl
@[simp] theorem State.setUnit_huf_bwt (s : State) (c : CodecUnit) : (s.setUnit .huf c).bwt = s.bwt := rfl
@[simp] theorem State.setUnit_huf_lzw (s : State) (c : CodecUnit) : (s.setUnit .huf c).lzw = s.lzw := rfl
@[simp] theorem State.setUnit_bwt_rle (s : State) (c : CodecUnit) : (s.setUnit .bwt c).rle = s.rle := rfl
@[simp] theorem State.setUnit_bwt_huf (s : State) (c : CodecUnit) : (s.setUnit .bwt c).huf = s.huf := rfl
@[simp] theorem State.setUnit_bwt_bwt (s : State) (c : CodecUnit) : (s.setUnit .bwt c).bwt = c := rfl
@[simp] theorem State.setUnit_bwt_lzw (s : State) (c : CodecUnit) : (s.setUnit .bwt c).lzw = s.lzw := rfl
@[simp] theorem State.setUnit_lzw_rle (s : State) (c : CodecUnit) : (s.setUnit .lzw c).rle = s.rle := rfl
@[simp] theorem State.setUnit_lzw_huf (s : State) (c : CodecUnit) : (s.setUnit .lzw c).huf = s.huf := rfl
@[simp] theorem State.setUnit_lzw_bwt (s : State) (c : CodecUnit) : (s.setUnit .lzw c).bwt = s.bwt := rfl
@[simp] theorem State.setUnit_lzw_lzw (s : State) (c : CodecUnit) : (s.setUnit .lzw c).lzw = c := rfl

/-! ### `setUnit` and the operations over it touch the units only -/

@[simp] theorem State.setUnit_params (s : State) (u : UnitId) (c : CodecUnit) : (s.setUnit u c).params = s.params := by
  cases u <;> rfl

@[simp] theorem State.setUnit_busy (s : State) (u : UnitId) (c : CodecUnit) : (s.setUnit u c).busy = s.busy := by
  cases u <;> rfl

@[simp] theorem State.setUnit_done (s : State) (u : UnitId) (c : CodecUnit) : (s.setUnit u c).done = s.done := by
  cases u <;> rfl

@[simp] theorem State.setUnit_fault (s : State) (u : UnitId) (c : CodecUnit) : (s.setUnit u c).fault = s.fault := by
  cases u <;> rfl

@[simp] theorem State.setUnit_selErr (s : State) (u : UnitId) (c : CodecUnit) : (s.setUnit u c).selErr = s.selErr := by
  cases u <;> rfl

@[simp] theorem State.setUnit_faultCode (s : State) (u : UnitId) (c : CodecUnit) : (s.setUnit u c).faultCode = s.faultCode := by
  cases u <;> rfl

@[simp] theorem State.setUnit_faultInfo (s : State) (u : UnitId) (c : CodecUnit) : (s.setUnit u c).faultInfo = s.faultInfo := by
  cases u <;> rfl

@[simp] theorem State.setUnit_sentinel (s : State) (u : UnitId) (c : CodecUnit) : (s.setUnit u c).sentinel = s.sentinel := by
  cases u <;> rfl

@[simp] theorem State.setUnit_hufRoot (s : State) (u : UnitId) (c : CodecUnit) : (s.setUnit u c).hufRoot = s.hufRoot := by
  cases u <;> rfl

@[simp] theorem State.setUnit_hufNnodes (s : State) (u : UnitId) (c : CodecUnit) : (s.setUnit u c).hufNnodes = s.hufNnodes := by
  cases u <;> rfl

@[simp] theorem State.setUnit_hufFreq (s : State) (u : UnitId) (c : CodecUnit) : (s.setUnit u c).hufFreq = s.hufFreq := by
  cases u <;> rfl

@[simp] theorem State.setUnit_hufNode (s : State) (u : UnitId) (c : CodecUnit) : (s.setUnit u c).hufNode = s.hufNode := by
  cases u <;> rfl

@[simp] theorem State.setUnit_hufCode (s : State) (u : UnitId) (c : CodecUnit) : (s.setUnit u c).hufCode = s.hufCode := by
  cases u <;> rfl

@[simp] theorem State.setUnit_bwtOpos (s : State) (u : UnitId) (c : CodecUnit) : (s.setUnit u c).bwtOpos = s.bwtOpos := by
  cases u <;> rfl

@[simp] theorem State.setUnit_bwtSufidx (s : State) (u : UnitId) (c : CodecUnit) : (s.setUnit u c).bwtSufidx = s.bwtSufidx := by
  cases u <;> rfl

@[simp] theorem State.setUnit_host (s : State) (u : UnitId) (c : CodecUnit) : (s.setUnit u c).host = s.host := by
  cases u <;> rfl

@[simp] theorem State.setUnit_readData (s : State) (u : UnitId) (c : CodecUnit) : (s.setUnit u c).readData = s.readData := by
  cases u <;> rfl

@[simp] theorem State.setUnit_draw (s : State) (u : UnitId) (c : CodecUnit) : (s.setUnit u c).draw = s.draw := by
  cases u <;> rfl

/-! ### `setPhase` -/

@[simp] theorem State.setPhase_params (s : State) (u : UnitId) (p : Phase) : (s.setPhase u p).params = s.params := by
  simp [State.setPhase]

@[simp] theorem State.setPhase_busy (s : State) (u : UnitId) (p : Phase) : (s.setPhase u p).busy = s.busy := by
  simp [State.setPhase]

@[simp] theorem State.setPhase_done (s : State) (u : UnitId) (p : Phase) : (s.setPhase u p).done = s.done := by
  simp [State.setPhase]

@[simp] theorem State.setPhase_fault (s : State) (u : UnitId) (p : Phase) : (s.setPhase u p).fault = s.fault := by
  simp [State.setPhase]

@[simp] theorem State.setPhase_selErr (s : State) (u : UnitId) (p : Phase) : (s.setPhase u p).selErr = s.selErr := by
  simp [State.setPhase]

@[simp] theorem State.setPhase_faultCode (s : State) (u : UnitId) (p : Phase) : (s.setPhase u p).faultCode = s.faultCode := by
  simp [State.setPhase]

@[simp] theorem State.setPhase_faultInfo (s : State) (u : UnitId) (p : Phase) : (s.setPhase u p).faultInfo = s.faultInfo := by
  simp [State.setPhase]

@[simp] theorem State.setPhase_sentinel (s : State) (u : UnitId) (p : Phase) : (s.setPhase u p).sentinel = s.sentinel := by
  simp [State.setPhase]

@[simp] theorem State.setPhase_hufRoot (s : State) (u : UnitId) (p : Phase) : (s.setPhase u p).hufRoot = s.hufRoot := by
  simp [State.setPhase]

@[simp] theorem State.setPhase_hufNnodes (s : State) (u : UnitId) (p : Phase) : (s.setPhase u p).hufNnodes = s.hufNnodes := by
  simp [State.setPhase]

@[simp] theorem State.setPhase_hufFreq (s : State) (u : UnitId) (p : Phase) : (s.setPhase u p).hufFreq = s.hufFreq := by
  simp [State.setPhase]

@[simp] theorem State.setPhase_hufNode (s : State) (u : UnitId) (p : Phase) : (s.setPhase u p).hufNode = s.hufNode := by
  simp [State.setPhase]

@[simp] theorem State.setPhase_hufCode (s : State) (u : UnitId) (p : Phase) : (s.setPhase u p).hufCode = s.hufCode := by
  simp [State.setPhase]

@[simp] theorem State.setPhase_bwtOpos (s : State) (u : UnitId) (p : Phase) : (s.setPhase u p).bwtOpos = s.bwtOpos := by
  simp [State.setPhase]

@[simp] theorem State.setPhase_bwtSufidx (s : State) (u : UnitId) (p : Phase) : (s.setPhase u p).bwtSufidx = s.bwtSufidx := by
  simp [State.setPhase]

@[simp] theorem State.setPhase_host (s : State) (u : UnitId) (p : Phase) : (s.setPhase u p).host = s.host := by
  simp [State.setPhase]

@[simp] theorem State.setPhase_readData (s : State) (u : UnitId) (p : Phase) : (s.setPhase u p).readData = s.readData := by
  simp [State.setPhase]

@[simp] theorem State.setPhase_draw (s : State) (u : UnitId) (p : Phase) : (s.setPhase u p).draw = s.draw := by
  simp [State.setPhase]

@[simp] theorem State.unit_setPhase (s : State) (u : UnitId) (p : Phase) :
    (s.setPhase u p).unit u = { s.unit u with phase := p } := by
  simp [State.setPhase]

theorem State.unit_setPhase_ne (s : State) {u v : UnitId} (h : v ≠ u) (p : Phase) : (s.setPhase u p).unit v = s.unit v := by
  simp [State.setPhase, State.unit_setUnit_ne s h]

@[simp] theorem State.setPhase_rle_rle (s : State) (p : Phase) :
    (s.setPhase .rle p).rle = { s.rle with phase := p } := rfl
@[simp] theorem State.setPhase_rle_huf (s : State) (p : Phase) : (s.setPhase .rle p).huf = s.huf := rfl
@[simp] theorem State.setPhase_rle_bwt (s : State) (p : Phase) : (s.setPhase .rle p).bwt = s.bwt := rfl
@[simp] theorem State.setPhase_rle_lzw (s : State) (p : Phase) : (s.setPhase .rle p).lzw = s.lzw := rfl
@[simp] theorem State.setPhase_huf_rle (s : State) (p : Phase) : (s.setPhase .huf p).rle = s.rle := rfl
@[simp] theorem State.setPhase_huf_huf (s : State) (p : Phase) :
    (s.setPhase .huf p).huf = { s.huf with phase := p } := rfl
@[simp] theorem State.setPhase_huf_bwt (s : State) (p : Phase) : (s.setPhase .huf p).bwt = s.bwt := rfl
@[simp] theorem State.setPhase_huf_lzw (s : State) (p : Phase) : (s.setPhase .huf p).lzw = s.lzw := rfl
@[simp] theorem State.setPhase_bwt_rle (s : State) (p : Phase) : (s.setPhase .bwt p).rle = s.rle := rfl
@[simp] theorem State.setPhase_bwt_huf (s : State) (p : Phase) : (s.setPhase .bwt p).huf = s.huf := rfl
@[simp] theorem State.setPhase_bwt_bwt (s : State) (p : Phase) :
    (s.setPhase .bwt p).bwt = { s.bwt with phase := p } := rfl
@[simp] theorem State.setPhase_bwt_lzw (s : State) (p : Phase) : (s.setPhase .bwt p).lzw = s.lzw := rfl
@[simp] theorem State.setPhase_lzw_rle (s : State) (p : Phase) : (s.setPhase .lzw p).rle = s.rle := rfl
@[simp] theorem State.setPhase_lzw_huf (s : State) (p : Phase) : (s.setPhase .lzw p).huf = s.huf := rfl
@[simp] theorem State.setPhase_lzw_bwt (s : State) (p : Phase) : (s.setPhase .lzw p).bwt = s.bwt := rfl
@[simp] theorem State.setPhase_lzw_lzw (s : State) (p : Phase) :
    (s.setPhase .lzw p).lzw = { s.lzw with phase := p } := rfl

/-! ### `dropComp` -/

@[simp] theorem State.dropComp_params (s : State) (u : UnitId) : (s.dropComp u).params = s.params := by
  simp [State.dropComp]

@[simp] theorem State.dropComp_busy (s : State) (u : UnitId) : (s.dropComp u).busy = s.busy := by
  simp [State.dropComp]

@[simp] theorem State.dropComp_done (s : State) (u : UnitId) : (s.dropComp u).done = s.done := by
  simp [State.dropComp]

@[simp] theorem State.dropComp_fault (s : State) (u : UnitId) : (s.dropComp u).fault = s.fault := by
  simp [State.dropComp]

@[simp] theorem State.dropComp_selErr (s : State) (u : UnitId) : (s.dropComp u).selErr = s.selErr := by
  simp [State.dropComp]

@[simp] theorem State.dropComp_faultCode (s : State) (u : UnitId) : (s.dropComp u).faultCode = s.faultCode := by
  simp [State.dropComp]

@[simp] theorem State.dropComp_faultInfo (s : State) (u : UnitId) : (s.dropComp u).faultInfo = s.faultInfo := by
  simp [State.dropComp]

@[simp] theorem State.dropComp_sentinel (s : State) (u : UnitId) : (s.dropComp u).sentinel = s.sentinel := by
  simp [State.dropComp]

@[simp] theorem State.dropComp_hufRoot (s : State) (u : UnitId) : (s.dropComp u).hufRoot = s.hufRoot := by
  simp [State.dropComp]

@[simp] theorem State.dropComp_hufNnodes (s : State) (u : UnitId) : (s.dropComp u).hufNnodes = s.hufNnodes := by
  simp [State.dropComp]

@[simp] theorem State.dropComp_hufFreq (s : State) (u : UnitId) : (s.dropComp u).hufFreq = s.hufFreq := by
  simp [State.dropComp]

@[simp] theorem State.dropComp_hufNode (s : State) (u : UnitId) : (s.dropComp u).hufNode = s.hufNode := by
  simp [State.dropComp]

@[simp] theorem State.dropComp_hufCode (s : State) (u : UnitId) : (s.dropComp u).hufCode = s.hufCode := by
  simp [State.dropComp]

@[simp] theorem State.dropComp_bwtOpos (s : State) (u : UnitId) : (s.dropComp u).bwtOpos = s.bwtOpos := by
  simp [State.dropComp]

@[simp] theorem State.dropComp_bwtSufidx (s : State) (u : UnitId) : (s.dropComp u).bwtSufidx = s.bwtSufidx := by
  simp [State.dropComp]

@[simp] theorem State.dropComp_host (s : State) (u : UnitId) : (s.dropComp u).host = s.host := by
  simp [State.dropComp]

@[simp] theorem State.dropComp_readData (s : State) (u : UnitId) : (s.dropComp u).readData = s.readData := by
  simp [State.dropComp]

@[simp] theorem State.dropComp_draw (s : State) (u : UnitId) : (s.dropComp u).draw = s.draw := by
  simp [State.dropComp]

@[simp] theorem State.unit_dropComp (s : State) (u : UnitId) :
    (s.dropComp u).unit u = { s.unit u with compLen := 0, comp := [] } := by
  simp [State.dropComp]

theorem State.unit_dropComp_ne (s : State) {u v : UnitId} (h : v ≠ u) : (s.dropComp u).unit v = s.unit v := by
  simp [State.dropComp, State.unit_setUnit_ne s h]

@[simp] theorem State.dropComp_rle_rle (s : State) :
    (s.dropComp .rle).rle = { s.rle with compLen := 0, comp := [] } := rfl
@[simp] theorem State.dropComp_rle_huf (s : State) : (s.dropComp .rle).huf = s.huf := rfl
@[simp] theorem State.dropComp_rle_bwt (s : State) : (s.dropComp .rle).bwt = s.bwt := rfl
@[simp] theorem State.dropComp_rle_lzw (s : State) : (s.dropComp .rle).lzw = s.lzw := rfl
@[simp] theorem State.dropComp_huf_rle (s : State) : (s.dropComp .huf).rle = s.rle := rfl
@[simp] theorem State.dropComp_huf_huf (s : State) :
    (s.dropComp .huf).huf = { s.huf with compLen := 0, comp := [] } := rfl
@[simp] theorem State.dropComp_huf_bwt (s : State) : (s.dropComp .huf).bwt = s.bwt := rfl
@[simp] theorem State.dropComp_huf_lzw (s : State) : (s.dropComp .huf).lzw = s.lzw := rfl
@[simp] theorem State.dropComp_bwt_rle (s : State) : (s.dropComp .bwt).rle = s.rle := rfl
@[simp] theorem State.dropComp_bwt_huf (s : State) : (s.dropComp .bwt).huf = s.huf := rfl
@[simp] theorem State.dropComp_bwt_bwt (s : State) :
    (s.dropComp .bwt).bwt = { s.bwt with compLen := 0, comp := [] } := rfl
@[simp] theorem State.dropComp_bwt_lzw (s : State) : (s.dropComp .bwt).lzw = s.lzw := rfl
@[simp] theorem State.dropComp_lzw_rle (s : State) : (s.dropComp .lzw).rle = s.rle := rfl
@[simp] theorem State.dropComp_lzw_huf (s : State) : (s.dropComp .lzw).huf = s.huf := rfl
@[simp] theorem State.dropComp_lzw_bwt (s : State) : (s.dropComp .lzw).bwt = s.bwt := rfl
@[simp] theorem State.dropComp_lzw_lzw (s : State) :
    (s.dropComp .lzw).lzw = { s.lzw with compLen := 0, comp := [] } := rfl

/-! ### `dropDecomp` -/

@[simp] theorem State.dropDecomp_params (s : State) (u : UnitId) : (s.dropDecomp u).params = s.params := by
  simp [State.dropDecomp]

@[simp] theorem State.dropDecomp_busy (s : State) (u : UnitId) : (s.dropDecomp u).busy = s.busy := by
  simp [State.dropDecomp]

@[simp] theorem State.dropDecomp_done (s : State) (u : UnitId) : (s.dropDecomp u).done = s.done := by
  simp [State.dropDecomp]

@[simp] theorem State.dropDecomp_fault (s : State) (u : UnitId) : (s.dropDecomp u).fault = s.fault := by
  simp [State.dropDecomp]

@[simp] theorem State.dropDecomp_selErr (s : State) (u : UnitId) : (s.dropDecomp u).selErr = s.selErr := by
  simp [State.dropDecomp]

@[simp] theorem State.dropDecomp_faultCode (s : State) (u : UnitId) : (s.dropDecomp u).faultCode = s.faultCode := by
  simp [State.dropDecomp]

@[simp] theorem State.dropDecomp_faultInfo (s : State) (u : UnitId) : (s.dropDecomp u).faultInfo = s.faultInfo := by
  simp [State.dropDecomp]

@[simp] theorem State.dropDecomp_sentinel (s : State) (u : UnitId) : (s.dropDecomp u).sentinel = s.sentinel := by
  simp [State.dropDecomp]

@[simp] theorem State.dropDecomp_hufRoot (s : State) (u : UnitId) : (s.dropDecomp u).hufRoot = s.hufRoot := by
  simp [State.dropDecomp]

@[simp] theorem State.dropDecomp_hufNnodes (s : State) (u : UnitId) : (s.dropDecomp u).hufNnodes = s.hufNnodes := by
  simp [State.dropDecomp]

@[simp] theorem State.dropDecomp_hufFreq (s : State) (u : UnitId) : (s.dropDecomp u).hufFreq = s.hufFreq := by
  simp [State.dropDecomp]

@[simp] theorem State.dropDecomp_hufNode (s : State) (u : UnitId) : (s.dropDecomp u).hufNode = s.hufNode := by
  simp [State.dropDecomp]

@[simp] theorem State.dropDecomp_hufCode (s : State) (u : UnitId) : (s.dropDecomp u).hufCode = s.hufCode := by
  simp [State.dropDecomp]

@[simp] theorem State.dropDecomp_bwtOpos (s : State) (u : UnitId) : (s.dropDecomp u).bwtOpos = s.bwtOpos := by
  simp [State.dropDecomp]

@[simp] theorem State.dropDecomp_bwtSufidx (s : State) (u : UnitId) : (s.dropDecomp u).bwtSufidx = s.bwtSufidx := by
  simp [State.dropDecomp]

@[simp] theorem State.dropDecomp_host (s : State) (u : UnitId) : (s.dropDecomp u).host = s.host := by
  simp [State.dropDecomp]

@[simp] theorem State.dropDecomp_readData (s : State) (u : UnitId) : (s.dropDecomp u).readData = s.readData := by
  simp [State.dropDecomp]

@[simp] theorem State.dropDecomp_draw (s : State) (u : UnitId) : (s.dropDecomp u).draw = s.draw := by
  simp [State.dropDecomp]

@[simp] theorem State.unit_dropDecomp (s : State) (u : UnitId) :
    (s.dropDecomp u).unit u = { s.unit u with decompLen := 0, decomp := [] } := by
  simp [State.dropDecomp]

theorem State.unit_dropDecomp_ne (s : State) {u v : UnitId} (h : v ≠ u) : (s.dropDecomp u).unit v = s.unit v := by
  simp [State.dropDecomp, State.unit_setUnit_ne s h]

@[simp] theorem State.dropDecomp_rle_rle (s : State) :
    (s.dropDecomp .rle).rle = { s.rle with decompLen := 0, decomp := [] } := rfl
@[simp] theorem State.dropDecomp_rle_huf (s : State) : (s.dropDecomp .rle).huf = s.huf := rfl
@[simp] theorem State.dropDecomp_rle_bwt (s : State) : (s.dropDecomp .rle).bwt = s.bwt := rfl
@[simp] theorem State.dropDecomp_rle_lzw (s : State) : (s.dropDecomp .rle).lzw = s.lzw := rfl
@[simp] theorem State.dropDecomp_huf_rle (s : State) : (s.dropDecomp .huf).rle = s.rle := rfl
@[simp] theorem State.dropDecomp_huf_huf (s : State) :
    (s.dropDecomp .huf).huf = { s.huf with decompLen := 0, decomp := [] } := rfl
@[simp] theorem State.dropDecomp_huf_bwt (s : State) : (s.dropDecomp .huf).bwt = s.bwt := rfl
@[simp] theorem State.dropDecomp_huf_lzw (s : State) : (s.dropDecomp .huf).lzw = s.lzw := rfl
@[simp] theorem State.dropDecomp_bwt_rle (s : State) : (s.dropDecomp .bwt).rle = s.rle := rfl
@[simp] theorem State.dropDecomp_bwt_huf (s : State) : (s.dropDecomp .bwt).huf = s.huf := rfl
@[simp] theorem State.dropDecomp_bwt_bwt (s : State) :
    (s.dropDecomp .bwt).bwt = { s.bwt with decompLen := 0, decomp := [] } := rfl
@[simp] theorem State.dropDecomp_bwt_lzw (s : State) : (s.dropDecomp .bwt).lzw = s.lzw := rfl
@[simp] theorem State.dropDecomp_lzw_rle (s : State) : (s.dropDecomp .lzw).rle = s.rle := rfl
@[simp] theorem State.dropDecomp_lzw_huf (s : State) : (s.dropDecomp .lzw).huf = s.huf := rfl
@[simp] theorem State.dropDecomp_lzw_bwt (s : State) : (s.dropDecomp .lzw).bwt = s.bwt := rfl
@[simp] theorem State.dropDecomp_lzw_lzw (s : State) :
    (s.dropDecomp .lzw).lzw = { s.lzw with decompLen := 0, decomp := [] } := rfl

/-! ### `putText` -/

@[simp] theorem State.putText_params (s : State) (u : UnitId) (bs : List Byte) : (s.putText u bs).params = s.params := by
  simp [State.putText]

@[simp] theorem State.putText_busy (s : State) (u : UnitId) (bs : List Byte) : (s.putText u bs).busy = s.busy := by
  simp [State.putText]

@[simp] theorem State.putText_done (s : State) (u : UnitId) (bs : List Byte) : (s.putText u bs).done = s.done := by
  simp [State.putText]

@[simp] theorem State.putText_fault (s : State) (u : UnitId) (bs : List Byte) : (s.putText u bs).fault = s.fault := by
  simp [State.putText]

@[simp] theorem State.putText_selErr (s : State) (u : UnitId) (bs : List Byte) : (s.putText u bs).selErr = s.selErr := by
  simp [State.putText]

@[simp] theorem State.putText_faultCode (s : State) (u : UnitId) (bs : List Byte) : (s.putText u bs).faultCode = s.faultCode := by
  simp [State.putText]

@[simp] theorem State.putText_faultInfo (s : State) (u : UnitId) (bs : List Byte) : (s.putText u bs).faultInfo = s.faultInfo := by
  simp [State.putText]

@[simp] theorem State.putText_sentinel (s : State) (u : UnitId) (bs : List Byte) : (s.putText u bs).sentinel = s.sentinel := by
  simp [State.putText]

@[simp] theorem State.putText_hufRoot (s : State) (u : UnitId) (bs : List Byte) : (s.putText u bs).hufRoot = s.hufRoot := by
  simp [State.putText]

@[simp] theorem State.putText_hufNnodes (s : State) (u : UnitId) (bs : List Byte) : (s.putText u bs).hufNnodes = s.hufNnodes := by
  simp [State.putText]

@[simp] theorem State.putText_hufFreq (s : State) (u : UnitId) (bs : List Byte) : (s.putText u bs).hufFreq = s.hufFreq := by
  simp [State.putText]

@[simp] theorem State.putText_hufNode (s : State) (u : UnitId) (bs : List Byte) : (s.putText u bs).hufNode = s.hufNode := by
  simp [State.putText]

@[simp] theorem State.putText_hufCode (s : State) (u : UnitId) (bs : List Byte) : (s.putText u bs).hufCode = s.hufCode := by
  simp [State.putText]

@[simp] theorem State.putText_bwtOpos (s : State) (u : UnitId) (bs : List Byte) : (s.putText u bs).bwtOpos = s.bwtOpos := by
  simp [State.putText]

@[simp] theorem State.putText_bwtSufidx (s : State) (u : UnitId) (bs : List Byte) : (s.putText u bs).bwtSufidx = s.bwtSufidx := by
  simp [State.putText]

@[simp] theorem State.putText_host (s : State) (u : UnitId) (bs : List Byte) : (s.putText u bs).host = s.host := by
  simp [State.putText]

@[simp] theorem State.putText_readData (s : State) (u : UnitId) (bs : List Byte) : (s.putText u bs).readData = s.readData := by
  simp [State.putText]

@[simp] theorem State.putText_draw (s : State) (u : UnitId) (bs : List Byte) : (s.putText u bs).draw = s.draw := by
  simp [State.putText]

@[simp] theorem State.unit_putText (s : State) (u : UnitId) (bs : List Byte) :
    (s.putText u bs).unit u = { s.unit u with textLen := BitVec.ofNat 32 bs.length, text := Mem.ofBytes 0 bs } := by
  simp [State.putText]

theorem State.unit_putText_ne (s : State) {u v : UnitId} (h : v ≠ u) (bs : List Byte) : (s.putText u bs).unit v = s.unit v := by
  simp [State.putText, State.unit_setUnit_ne s h]

@[simp] theorem State.putText_rle_rle (s : State) (bs : List Byte) :
    (s.putText .rle bs).rle = { s.rle with textLen := BitVec.ofNat 32 bs.length, text := Mem.ofBytes 0 bs } := rfl
@[simp] theorem State.putText_rle_huf (s : State) (bs : List Byte) : (s.putText .rle bs).huf = s.huf := rfl
@[simp] theorem State.putText_rle_bwt (s : State) (bs : List Byte) : (s.putText .rle bs).bwt = s.bwt := rfl
@[simp] theorem State.putText_rle_lzw (s : State) (bs : List Byte) : (s.putText .rle bs).lzw = s.lzw := rfl
@[simp] theorem State.putText_huf_rle (s : State) (bs : List Byte) : (s.putText .huf bs).rle = s.rle := rfl
@[simp] theorem State.putText_huf_huf (s : State) (bs : List Byte) :
    (s.putText .huf bs).huf = { s.huf with textLen := BitVec.ofNat 32 bs.length, text := Mem.ofBytes 0 bs } := rfl
@[simp] theorem State.putText_huf_bwt (s : State) (bs : List Byte) : (s.putText .huf bs).bwt = s.bwt := rfl
@[simp] theorem State.putText_huf_lzw (s : State) (bs : List Byte) : (s.putText .huf bs).lzw = s.lzw := rfl
@[simp] theorem State.putText_bwt_rle (s : State) (bs : List Byte) : (s.putText .bwt bs).rle = s.rle := rfl
@[simp] theorem State.putText_bwt_huf (s : State) (bs : List Byte) : (s.putText .bwt bs).huf = s.huf := rfl
@[simp] theorem State.putText_bwt_bwt (s : State) (bs : List Byte) :
    (s.putText .bwt bs).bwt = { s.bwt with textLen := BitVec.ofNat 32 bs.length, text := Mem.ofBytes 0 bs } := rfl
@[simp] theorem State.putText_bwt_lzw (s : State) (bs : List Byte) : (s.putText .bwt bs).lzw = s.lzw := rfl
@[simp] theorem State.putText_lzw_rle (s : State) (bs : List Byte) : (s.putText .lzw bs).rle = s.rle := rfl
@[simp] theorem State.putText_lzw_huf (s : State) (bs : List Byte) : (s.putText .lzw bs).huf = s.huf := rfl
@[simp] theorem State.putText_lzw_bwt (s : State) (bs : List Byte) : (s.putText .lzw bs).bwt = s.bwt := rfl
@[simp] theorem State.putText_lzw_lzw (s : State) (bs : List Byte) :
    (s.putText .lzw bs).lzw = { s.lzw with textLen := BitVec.ofNat 32 bs.length, text := Mem.ofBytes 0 bs } := rfl

/-! ### `putDecomp` -/

@[simp] theorem State.putDecomp_params (s : State) (u : UnitId) (bs : List Byte) : (s.putDecomp u bs).params = s.params := by
  simp [State.putDecomp]

@[simp] theorem State.putDecomp_busy (s : State) (u : UnitId) (bs : List Byte) : (s.putDecomp u bs).busy = s.busy := by
  simp [State.putDecomp]

@[simp] theorem State.putDecomp_done (s : State) (u : UnitId) (bs : List Byte) : (s.putDecomp u bs).done = s.done := by
  simp [State.putDecomp]

@[simp] theorem State.putDecomp_fault (s : State) (u : UnitId) (bs : List Byte) : (s.putDecomp u bs).fault = s.fault := by
  simp [State.putDecomp]

@[simp] theorem State.putDecomp_selErr (s : State) (u : UnitId) (bs : List Byte) : (s.putDecomp u bs).selErr = s.selErr := by
  simp [State.putDecomp]

@[simp] theorem State.putDecomp_faultCode (s : State) (u : UnitId) (bs : List Byte) : (s.putDecomp u bs).faultCode = s.faultCode := by
  simp [State.putDecomp]

@[simp] theorem State.putDecomp_faultInfo (s : State) (u : UnitId) (bs : List Byte) : (s.putDecomp u bs).faultInfo = s.faultInfo := by
  simp [State.putDecomp]

@[simp] theorem State.putDecomp_sentinel (s : State) (u : UnitId) (bs : List Byte) : (s.putDecomp u bs).sentinel = s.sentinel := by
  simp [State.putDecomp]

@[simp] theorem State.putDecomp_hufRoot (s : State) (u : UnitId) (bs : List Byte) : (s.putDecomp u bs).hufRoot = s.hufRoot := by
  simp [State.putDecomp]

@[simp] theorem State.putDecomp_hufNnodes (s : State) (u : UnitId) (bs : List Byte) : (s.putDecomp u bs).hufNnodes = s.hufNnodes := by
  simp [State.putDecomp]

@[simp] theorem State.putDecomp_hufFreq (s : State) (u : UnitId) (bs : List Byte) : (s.putDecomp u bs).hufFreq = s.hufFreq := by
  simp [State.putDecomp]

@[simp] theorem State.putDecomp_hufNode (s : State) (u : UnitId) (bs : List Byte) : (s.putDecomp u bs).hufNode = s.hufNode := by
  simp [State.putDecomp]

@[simp] theorem State.putDecomp_hufCode (s : State) (u : UnitId) (bs : List Byte) : (s.putDecomp u bs).hufCode = s.hufCode := by
  simp [State.putDecomp]

@[simp] theorem State.putDecomp_bwtOpos (s : State) (u : UnitId) (bs : List Byte) : (s.putDecomp u bs).bwtOpos = s.bwtOpos := by
  simp [State.putDecomp]

@[simp] theorem State.putDecomp_bwtSufidx (s : State) (u : UnitId) (bs : List Byte) : (s.putDecomp u bs).bwtSufidx = s.bwtSufidx := by
  simp [State.putDecomp]

@[simp] theorem State.putDecomp_host (s : State) (u : UnitId) (bs : List Byte) : (s.putDecomp u bs).host = s.host := by
  simp [State.putDecomp]

@[simp] theorem State.putDecomp_readData (s : State) (u : UnitId) (bs : List Byte) : (s.putDecomp u bs).readData = s.readData := by
  simp [State.putDecomp]

@[simp] theorem State.putDecomp_draw (s : State) (u : UnitId) (bs : List Byte) : (s.putDecomp u bs).draw = s.draw := by
  simp [State.putDecomp]

@[simp] theorem State.unit_putDecomp (s : State) (u : UnitId) (bs : List Byte) :
    (s.putDecomp u bs).unit u = { s.unit u with decompLen := BitVec.ofNat 32 bs.length, decomp := Mem.ofBytes 0 bs } := by
  simp [State.putDecomp]

theorem State.unit_putDecomp_ne (s : State) {u v : UnitId} (h : v ≠ u) (bs : List Byte) : (s.putDecomp u bs).unit v = s.unit v := by
  simp [State.putDecomp, State.unit_setUnit_ne s h]

@[simp] theorem State.putDecomp_rle_rle (s : State) (bs : List Byte) :
    (s.putDecomp .rle bs).rle = { s.rle with decompLen := BitVec.ofNat 32 bs.length, decomp := Mem.ofBytes 0 bs } := rfl
@[simp] theorem State.putDecomp_rle_huf (s : State) (bs : List Byte) : (s.putDecomp .rle bs).huf = s.huf := rfl
@[simp] theorem State.putDecomp_rle_bwt (s : State) (bs : List Byte) : (s.putDecomp .rle bs).bwt = s.bwt := rfl
@[simp] theorem State.putDecomp_rle_lzw (s : State) (bs : List Byte) : (s.putDecomp .rle bs).lzw = s.lzw := rfl
@[simp] theorem State.putDecomp_huf_rle (s : State) (bs : List Byte) : (s.putDecomp .huf bs).rle = s.rle := rfl
@[simp] theorem State.putDecomp_huf_huf (s : State) (bs : List Byte) :
    (s.putDecomp .huf bs).huf = { s.huf with decompLen := BitVec.ofNat 32 bs.length, decomp := Mem.ofBytes 0 bs } := rfl
@[simp] theorem State.putDecomp_huf_bwt (s : State) (bs : List Byte) : (s.putDecomp .huf bs).bwt = s.bwt := rfl
@[simp] theorem State.putDecomp_huf_lzw (s : State) (bs : List Byte) : (s.putDecomp .huf bs).lzw = s.lzw := rfl
@[simp] theorem State.putDecomp_bwt_rle (s : State) (bs : List Byte) : (s.putDecomp .bwt bs).rle = s.rle := rfl
@[simp] theorem State.putDecomp_bwt_huf (s : State) (bs : List Byte) : (s.putDecomp .bwt bs).huf = s.huf := rfl
@[simp] theorem State.putDecomp_bwt_bwt (s : State) (bs : List Byte) :
    (s.putDecomp .bwt bs).bwt = { s.bwt with decompLen := BitVec.ofNat 32 bs.length, decomp := Mem.ofBytes 0 bs } := rfl
@[simp] theorem State.putDecomp_bwt_lzw (s : State) (bs : List Byte) : (s.putDecomp .bwt bs).lzw = s.lzw := rfl
@[simp] theorem State.putDecomp_lzw_rle (s : State) (bs : List Byte) : (s.putDecomp .lzw bs).rle = s.rle := rfl
@[simp] theorem State.putDecomp_lzw_huf (s : State) (bs : List Byte) : (s.putDecomp .lzw bs).huf = s.huf := rfl
@[simp] theorem State.putDecomp_lzw_bwt (s : State) (bs : List Byte) : (s.putDecomp .lzw bs).bwt = s.bwt := rfl
@[simp] theorem State.putDecomp_lzw_lzw (s : State) (bs : List Byte) :
    (s.putDecomp .lzw bs).lzw = { s.lzw with decompLen := BitVec.ofNat 32 bs.length, decomp := Mem.ofBytes 0 bs } := rfl

/-! ### `putComp` -/

@[simp] theorem State.putComp_params (s : State) (u : UnitId) (n : Nat) (bs : List Byte) : (s.putComp u n bs).params = s.params := by
  simp [State.putComp]

@[simp] theorem State.putComp_busy (s : State) (u : UnitId) (n : Nat) (bs : List Byte) : (s.putComp u n bs).busy = s.busy := by
  simp [State.putComp]

@[simp] theorem State.putComp_done (s : State) (u : UnitId) (n : Nat) (bs : List Byte) : (s.putComp u n bs).done = s.done := by
  simp [State.putComp]

@[simp] theorem State.putComp_fault (s : State) (u : UnitId) (n : Nat) (bs : List Byte) : (s.putComp u n bs).fault = s.fault := by
  simp [State.putComp]

@[simp] theorem State.putComp_selErr (s : State) (u : UnitId) (n : Nat) (bs : List Byte) : (s.putComp u n bs).selErr = s.selErr := by
  simp [State.putComp]

@[simp] theorem State.putComp_faultCode (s : State) (u : UnitId) (n : Nat) (bs : List Byte) : (s.putComp u n bs).faultCode = s.faultCode := by
  simp [State.putComp]

@[simp] theorem State.putComp_faultInfo (s : State) (u : UnitId) (n : Nat) (bs : List Byte) : (s.putComp u n bs).faultInfo = s.faultInfo := by
  simp [State.putComp]

@[simp] theorem State.putComp_sentinel (s : State) (u : UnitId) (n : Nat) (bs : List Byte) : (s.putComp u n bs).sentinel = s.sentinel := by
  simp [State.putComp]

@[simp] theorem State.putComp_hufRoot (s : State) (u : UnitId) (n : Nat) (bs : List Byte) : (s.putComp u n bs).hufRoot = s.hufRoot := by
  simp [State.putComp]

@[simp] theorem State.putComp_hufNnodes (s : State) (u : UnitId) (n : Nat) (bs : List Byte) : (s.putComp u n bs).hufNnodes = s.hufNnodes := by
  simp [State.putComp]

@[simp] theorem State.putComp_hufFreq (s : State) (u : UnitId) (n : Nat) (bs : List Byte) : (s.putComp u n bs).hufFreq = s.hufFreq := by
  simp [State.putComp]

@[simp] theorem State.putComp_hufNode (s : State) (u : UnitId) (n : Nat) (bs : List Byte) : (s.putComp u n bs).hufNode = s.hufNode := by
  simp [State.putComp]

@[simp] theorem State.putComp_hufCode (s : State) (u : UnitId) (n : Nat) (bs : List Byte) : (s.putComp u n bs).hufCode = s.hufCode := by
  simp [State.putComp]

@[simp] theorem State.putComp_bwtOpos (s : State) (u : UnitId) (n : Nat) (bs : List Byte) : (s.putComp u n bs).bwtOpos = s.bwtOpos := by
  simp [State.putComp]

@[simp] theorem State.putComp_bwtSufidx (s : State) (u : UnitId) (n : Nat) (bs : List Byte) : (s.putComp u n bs).bwtSufidx = s.bwtSufidx := by
  simp [State.putComp]

@[simp] theorem State.putComp_host (s : State) (u : UnitId) (n : Nat) (bs : List Byte) : (s.putComp u n bs).host = s.host := by
  simp [State.putComp]

@[simp] theorem State.putComp_readData (s : State) (u : UnitId) (n : Nat) (bs : List Byte) : (s.putComp u n bs).readData = s.readData := by
  simp [State.putComp]

@[simp] theorem State.putComp_draw (s : State) (u : UnitId) (n : Nat) (bs : List Byte) : (s.putComp u n bs).draw = s.draw := by
  simp [State.putComp]

@[simp] theorem State.unit_putComp (s : State) (u : UnitId) (n : Nat) (bs : List Byte) :
    (s.putComp u n bs).unit u = { s.unit u with compLen := BitVec.ofNat 32 n, comp := Mem.ofBytes 0 bs } := by
  simp [State.putComp]

theorem State.unit_putComp_ne (s : State) {u v : UnitId} (h : v ≠ u) (n : Nat) (bs : List Byte) : (s.putComp u n bs).unit v = s.unit v := by
  simp [State.putComp, State.unit_setUnit_ne s h]

@[simp] theorem State.putComp_rle_rle (s : State) (n : Nat) (bs : List Byte) :
    (s.putComp .rle n bs).rle = { s.rle with compLen := BitVec.ofNat 32 n, comp := Mem.ofBytes 0 bs } := rfl
@[simp] theorem State.putComp_rle_huf (s : State) (n : Nat) (bs : List Byte) : (s.putComp .rle n bs).huf = s.huf := rfl
@[simp] theorem State.putComp_rle_bwt (s : State) (n : Nat) (bs : List Byte) : (s.putComp .rle n bs).bwt = s.bwt := rfl
@[simp] theorem State.putComp_rle_lzw (s : State) (n : Nat) (bs : List Byte) : (s.putComp .rle n bs).lzw = s.lzw := rfl
@[simp] theorem State.putComp_huf_rle (s : State) (n : Nat) (bs : List Byte) : (s.putComp .huf n bs).rle = s.rle := rfl
@[simp] theorem State.putComp_huf_huf (s : State) (n : Nat) (bs : List Byte) :
    (s.putComp .huf n bs).huf = { s.huf with compLen := BitVec.ofNat 32 n, comp := Mem.ofBytes 0 bs } := rfl
@[simp] theorem State.putComp_huf_bwt (s : State) (n : Nat) (bs : List Byte) : (s.putComp .huf n bs).bwt = s.bwt := rfl
@[simp] theorem State.putComp_huf_lzw (s : State) (n : Nat) (bs : List Byte) : (s.putComp .huf n bs).lzw = s.lzw := rfl
@[simp] theorem State.putComp_bwt_rle (s : State) (n : Nat) (bs : List Byte) : (s.putComp .bwt n bs).rle = s.rle := rfl
@[simp] theorem State.putComp_bwt_huf (s : State) (n : Nat) (bs : List Byte) : (s.putComp .bwt n bs).huf = s.huf := rfl
@[simp] theorem State.putComp_bwt_bwt (s : State) (n : Nat) (bs : List Byte) :
    (s.putComp .bwt n bs).bwt = { s.bwt with compLen := BitVec.ofNat 32 n, comp := Mem.ofBytes 0 bs } := rfl
@[simp] theorem State.putComp_bwt_lzw (s : State) (n : Nat) (bs : List Byte) : (s.putComp .bwt n bs).lzw = s.lzw := rfl
@[simp] theorem State.putComp_lzw_rle (s : State) (n : Nat) (bs : List Byte) : (s.putComp .lzw n bs).rle = s.rle := rfl
@[simp] theorem State.putComp_lzw_huf (s : State) (n : Nat) (bs : List Byte) : (s.putComp .lzw n bs).huf = s.huf := rfl
@[simp] theorem State.putComp_lzw_bwt (s : State) (n : Nat) (bs : List Byte) : (s.putComp .lzw n bs).bwt = s.bwt := rfl
@[simp] theorem State.putComp_lzw_lzw (s : State) (n : Nat) (bs : List Byte) :
    (s.putComp .lzw n bs).lzw = { s.lzw with compLen := BitVec.ofNat 32 n, comp := Mem.ofBytes 0 bs } := rfl

/-! ### `accept` -/

@[simp] theorem State.accept_params (s : State) : (s.accept).params = s.params := rfl
@[simp] theorem State.accept_busy (s : State) : (s.accept).busy = true := rfl
@[simp] theorem State.accept_done (s : State) : (s.accept).done = false := rfl
@[simp] theorem State.accept_fault (s : State) : (s.accept).fault = s.fault := rfl
@[simp] theorem State.accept_selErr (s : State) : (s.accept).selErr = false := rfl
@[simp] theorem State.accept_faultCode (s : State) : (s.accept).faultCode = s.faultCode := rfl
@[simp] theorem State.accept_faultInfo (s : State) : (s.accept).faultInfo = s.faultInfo := rfl
@[simp] theorem State.accept_sentinel (s : State) : (s.accept).sentinel = s.sentinel := rfl
@[simp] theorem State.accept_rle (s : State) : (s.accept).rle = s.rle := rfl
@[simp] theorem State.accept_huf (s : State) : (s.accept).huf = s.huf := rfl
@[simp] theorem State.accept_bwt (s : State) : (s.accept).bwt = s.bwt := rfl
@[simp] theorem State.accept_lzw (s : State) : (s.accept).lzw = s.lzw := rfl
@[simp] theorem State.accept_hufRoot (s : State) : (s.accept).hufRoot = s.hufRoot := rfl
@[simp] theorem State.accept_hufNnodes (s : State) : (s.accept).hufNnodes = s.hufNnodes := rfl
@[simp] theorem State.accept_hufFreq (s : State) : (s.accept).hufFreq = s.hufFreq := rfl
@[simp] theorem State.accept_hufNode (s : State) : (s.accept).hufNode = s.hufNode := rfl
@[simp] theorem State.accept_hufCode (s : State) : (s.accept).hufCode = s.hufCode := rfl
@[simp] theorem State.accept_bwtOpos (s : State) : (s.accept).bwtOpos = s.bwtOpos := rfl
@[simp] theorem State.accept_bwtSufidx (s : State) : (s.accept).bwtSufidx = s.bwtSufidx := rfl
@[simp] theorem State.accept_host (s : State) : (s.accept).host = s.host := rfl
@[simp] theorem State.accept_readData (s : State) : (s.accept).readData = s.readData := rfl
@[simp] theorem State.accept_draw (s : State) : (s.accept).draw = s.draw := rfl
@[simp] theorem State.unit_accept (s : State) (u : UnitId) : (s.accept).unit u = s.unit u := by cases u <;> rfl

/-! ### `complete` -/

@[simp] theorem State.complete_params (s : State) : (s.complete).params = s.params := rfl
@[simp] theorem State.complete_busy (s : State) : (s.complete).busy = false := rfl
@[simp] theorem State.complete_done (s : State) : (s.complete).done = true := rfl
@[simp] theorem State.complete_fault (s : State) : (s.complete).fault = s.fault := rfl
@[simp] theorem State.complete_selErr (s : State) : (s.complete).selErr = s.selErr := rfl
@[simp] theorem State.complete_faultCode (s : State) : (s.complete).faultCode = s.faultCode := rfl
@[simp] theorem State.complete_faultInfo (s : State) : (s.complete).faultInfo = s.faultInfo := rfl
@[simp] theorem State.complete_sentinel (s : State) : (s.complete).sentinel = s.sentinel := rfl
@[simp] theorem State.complete_rle (s : State) : (s.complete).rle = s.rle := rfl
@[simp] theorem State.complete_huf (s : State) : (s.complete).huf = s.huf := rfl
@[simp] theorem State.complete_bwt (s : State) : (s.complete).bwt = s.bwt := rfl
@[simp] theorem State.complete_lzw (s : State) : (s.complete).lzw = s.lzw := rfl
@[simp] theorem State.complete_hufRoot (s : State) : (s.complete).hufRoot = s.hufRoot := rfl
@[simp] theorem State.complete_hufNnodes (s : State) : (s.complete).hufNnodes = s.hufNnodes := rfl
@[simp] theorem State.complete_hufFreq (s : State) : (s.complete).hufFreq = s.hufFreq := rfl
@[simp] theorem State.complete_hufNode (s : State) : (s.complete).hufNode = s.hufNode := rfl
@[simp] theorem State.complete_hufCode (s : State) : (s.complete).hufCode = s.hufCode := rfl
@[simp] theorem State.complete_bwtOpos (s : State) : (s.complete).bwtOpos = s.bwtOpos := rfl
@[simp] theorem State.complete_bwtSufidx (s : State) : (s.complete).bwtSufidx = s.bwtSufidx := rfl
@[simp] theorem State.complete_host (s : State) : (s.complete).host = s.host := rfl
@[simp] theorem State.complete_readData (s : State) : (s.complete).readData = s.readData := rfl
@[simp] theorem State.complete_draw (s : State) : (s.complete).draw = s.draw := rfl
@[simp] theorem State.unit_complete (s : State) (u : UnitId) : (s.complete).unit u = s.unit u := by cases u <;> rfl

/-! ### `selectionError` -/

@[simp] theorem State.selectionError_params (s : State) : (s.selectionError).params = s.params := rfl
@[simp] theorem State.selectionError_busy (s : State) : (s.selectionError).busy = s.busy := rfl
@[simp] theorem State.selectionError_done (s : State) : (s.selectionError).done = s.done := rfl
@[simp] theorem State.selectionError_fault (s : State) : (s.selectionError).fault = s.fault := rfl
@[simp] theorem State.selectionError_selErr (s : State) : (s.selectionError).selErr = true := rfl
@[simp] theorem State.selectionError_faultCode (s : State) : (s.selectionError).faultCode = s.faultCode := rfl
@[simp] theorem State.selectionError_faultInfo (s : State) : (s.selectionError).faultInfo = s.faultInfo := rfl
@[simp] theorem State.selectionError_sentinel (s : State) : (s.selectionError).sentinel = s.sentinel := rfl
@[simp] theorem State.selectionError_rle (s : State) : (s.selectionError).rle = s.rle := rfl
@[simp] theorem State.selectionError_huf (s : State) : (s.selectionError).huf = s.huf := rfl
@[simp] theorem State.selectionError_bwt (s : State) : (s.selectionError).bwt = s.bwt := rfl
@[simp] theorem State.selectionError_lzw (s : State) : (s.selectionError).lzw = s.lzw := rfl
@[simp] theorem State.selectionError_hufRoot (s : State) : (s.selectionError).hufRoot = s.hufRoot := rfl
@[simp] theorem State.selectionError_hufNnodes (s : State) : (s.selectionError).hufNnodes = s.hufNnodes := rfl
@[simp] theorem State.selectionError_hufFreq (s : State) : (s.selectionError).hufFreq = s.hufFreq := rfl
@[simp] theorem State.selectionError_hufNode (s : State) : (s.selectionError).hufNode = s.hufNode := rfl
@[simp] theorem State.selectionError_hufCode (s : State) : (s.selectionError).hufCode = s.hufCode := rfl
@[simp] theorem State.selectionError_bwtOpos (s : State) : (s.selectionError).bwtOpos = s.bwtOpos := rfl
@[simp] theorem State.selectionError_bwtSufidx (s : State) : (s.selectionError).bwtSufidx = s.bwtSufidx := rfl
@[simp] theorem State.selectionError_host (s : State) : (s.selectionError).host = s.host := rfl
@[simp] theorem State.selectionError_readData (s : State) : (s.selectionError).readData = s.readData := rfl
@[simp] theorem State.selectionError_draw (s : State) : (s.selectionError).draw = s.draw := rfl
@[simp] theorem State.unit_selectionError (s : State) (u : UnitId) : (s.selectionError).unit u = s.unit u := by cases u <;> rfl

/-! ### `raiseFault` -/

@[simp] theorem State.raiseFault_params (s : State) (k : FaultKind) (info : Nat) : (s.raiseFault k info).params = s.params := rfl
@[simp] theorem State.raiseFault_busy (s : State) (k : FaultKind) (info : Nat) : (s.raiseFault k info).busy = false := rfl
@[simp] theorem State.raiseFault_done (s : State) (k : FaultKind) (info : Nat) : (s.raiseFault k info).done = s.done := rfl
@[simp] theorem State.raiseFault_fault (s : State) (k : FaultKind) (info : Nat) : (s.raiseFault k info).fault = true := rfl
@[simp] theorem State.raiseFault_selErr (s : State) (k : FaultKind) (info : Nat) : (s.raiseFault k info).selErr = s.selErr := rfl
@[simp] theorem State.raiseFault_faultCode (s : State) (k : FaultKind) (info : Nat) : (s.raiseFault k info).faultCode = k.code := rfl
@[simp] theorem State.raiseFault_faultInfo (s : State) (k : FaultKind) (info : Nat) : (s.raiseFault k info).faultInfo = BitVec.ofNat 32 info := rfl
@[simp] theorem State.raiseFault_sentinel (s : State) (k : FaultKind) (info : Nat) : (s.raiseFault k info).sentinel = s.sentinel := rfl
@[simp] theorem State.raiseFault_rle (s : State) (k : FaultKind) (info : Nat) : (s.raiseFault k info).rle = s.rle := rfl
@[simp] theorem State.raiseFault_huf (s : State) (k : FaultKind) (info : Nat) : (s.raiseFault k info).huf = s.huf := rfl
@[simp] theorem State.raiseFault_bwt (s : State) (k : FaultKind) (info : Nat) : (s.raiseFault k info).bwt = s.bwt := rfl
@[simp] theorem State.raiseFault_lzw (s : State) (k : FaultKind) (info : Nat) : (s.raiseFault k info).lzw = s.lzw := rfl
@[simp] theorem State.raiseFault_hufRoot (s : State) (k : FaultKind) (info : Nat) : (s.raiseFault k info).hufRoot = s.hufRoot := rfl
@[simp] theorem State.raiseFault_hufNnodes (s : State) (k : FaultKind) (info : Nat) : (s.raiseFault k info).hufNnodes = s.hufNnodes := rfl
@[simp] theorem State.raiseFault_hufFreq (s : State) (k : FaultKind) (info : Nat) : (s.raiseFault k info).hufFreq = s.hufFreq := rfl
@[simp] theorem State.raiseFault_hufNode (s : State) (k : FaultKind) (info : Nat) : (s.raiseFault k info).hufNode = s.hufNode := rfl
@[simp] theorem State.raiseFault_hufCode (s : State) (k : FaultKind) (info : Nat) : (s.raiseFault k info).hufCode = s.hufCode := rfl
@[simp] theorem State.raiseFault_bwtOpos (s : State) (k : FaultKind) (info : Nat) : (s.raiseFault k info).bwtOpos = s.bwtOpos := rfl
@[simp] theorem State.raiseFault_bwtSufidx (s : State) (k : FaultKind) (info : Nat) : (s.raiseFault k info).bwtSufidx = s.bwtSufidx := rfl
@[simp] theorem State.raiseFault_host (s : State) (k : FaultKind) (info : Nat) : (s.raiseFault k info).host = s.host := rfl
@[simp] theorem State.raiseFault_readData (s : State) (k : FaultKind) (info : Nat) : (s.raiseFault k info).readData = s.readData := rfl
@[simp] theorem State.raiseFault_draw (s : State) (k : FaultKind) (info : Nat) : (s.raiseFault k info).draw = s.draw := rfl
@[simp] theorem State.unit_raiseFault (s : State) (k : FaultKind) (info : Nat) (u : UnitId) : (s.raiseFault k info).unit u = s.unit u := by cases u <;> rfl

/-! ### `takeAction` -/

@[simp] theorem State.takeAction_params (s : State) (rest : List HostAction) : (s.takeAction rest).params = s.params := rfl
@[simp] theorem State.takeAction_busy (s : State) (rest : List HostAction) : (s.takeAction rest).busy = s.busy := rfl
@[simp] theorem State.takeAction_done (s : State) (rest : List HostAction) : (s.takeAction rest).done = s.done := rfl
@[simp] theorem State.takeAction_fault (s : State) (rest : List HostAction) : (s.takeAction rest).fault = s.fault := rfl
@[simp] theorem State.takeAction_selErr (s : State) (rest : List HostAction) : (s.takeAction rest).selErr = s.selErr := rfl
@[simp] theorem State.takeAction_faultCode (s : State) (rest : List HostAction) : (s.takeAction rest).faultCode = s.faultCode := rfl
@[simp] theorem State.takeAction_faultInfo (s : State) (rest : List HostAction) : (s.takeAction rest).faultInfo = s.faultInfo := rfl
@[simp] theorem State.takeAction_sentinel (s : State) (rest : List HostAction) : (s.takeAction rest).sentinel = s.sentinel := rfl
@[simp] theorem State.takeAction_rle (s : State) (rest : List HostAction) : (s.takeAction rest).rle = s.rle := rfl
@[simp] theorem State.takeAction_huf (s : State) (rest : List HostAction) : (s.takeAction rest).huf = s.huf := rfl
@[simp] theorem State.takeAction_bwt (s : State) (rest : List HostAction) : (s.takeAction rest).bwt = s.bwt := rfl
@[simp] theorem State.takeAction_lzw (s : State) (rest : List HostAction) : (s.takeAction rest).lzw = s.lzw := rfl
@[simp] theorem State.takeAction_hufRoot (s : State) (rest : List HostAction) : (s.takeAction rest).hufRoot = s.hufRoot := rfl
@[simp] theorem State.takeAction_hufNnodes (s : State) (rest : List HostAction) : (s.takeAction rest).hufNnodes = s.hufNnodes := rfl
@[simp] theorem State.takeAction_hufFreq (s : State) (rest : List HostAction) : (s.takeAction rest).hufFreq = s.hufFreq := rfl
@[simp] theorem State.takeAction_hufNode (s : State) (rest : List HostAction) : (s.takeAction rest).hufNode = s.hufNode := rfl
@[simp] theorem State.takeAction_hufCode (s : State) (rest : List HostAction) : (s.takeAction rest).hufCode = s.hufCode := rfl
@[simp] theorem State.takeAction_bwtOpos (s : State) (rest : List HostAction) : (s.takeAction rest).bwtOpos = s.bwtOpos := rfl
@[simp] theorem State.takeAction_bwtSufidx (s : State) (rest : List HostAction) : (s.takeAction rest).bwtSufidx = s.bwtSufidx := rfl
@[simp] theorem State.takeAction_host (s : State) (rest : List HostAction) : (s.takeAction rest).host = rest := rfl
@[simp] theorem State.takeAction_readData (s : State) (rest : List HostAction) : (s.takeAction rest).readData = s.readData := rfl
@[simp] theorem State.takeAction_draw (s : State) (rest : List HostAction) : (s.takeAction rest).draw = s.draw + 1 := rfl
@[simp] theorem State.unit_takeAction (s : State) (rest : List HostAction) (u : UnitId) : (s.takeAction rest).unit u = s.unit u := by cases u <;> rfl

/-! ### `resetBlock` (R47) -/

@[simp] theorem State.resetBlock_params (s : State) : s.resetBlock.params = s.params := rfl
@[simp] theorem State.resetBlock_busy (s : State) : s.resetBlock.busy = false := rfl
@[simp] theorem State.resetBlock_done (s : State) : s.resetBlock.done = false := rfl
@[simp] theorem State.resetBlock_fault (s : State) : s.resetBlock.fault = false := rfl
@[simp] theorem State.resetBlock_selErr (s : State) : s.resetBlock.selErr = false := rfl
@[simp] theorem State.resetBlock_faultCode (s : State) : s.resetBlock.faultCode = 0 := rfl
@[simp] theorem State.resetBlock_faultInfo (s : State) : s.resetBlock.faultInfo = 0 := rfl
@[simp] theorem State.resetBlock_sentinel (s : State) : s.resetBlock.sentinel = sentinelReset := rfl
@[simp] theorem State.resetBlock_rle (s : State) : s.resetBlock.rle = .reset := rfl
@[simp] theorem State.resetBlock_huf (s : State) : s.resetBlock.huf = .reset := rfl
@[simp] theorem State.resetBlock_bwt (s : State) : s.resetBlock.bwt = .reset := rfl
@[simp] theorem State.resetBlock_lzw (s : State) : s.resetBlock.lzw = .reset := rfl
@[simp] theorem State.resetBlock_hufRoot (s : State) : s.resetBlock.hufRoot = rootNone := rfl
@[simp] theorem State.resetBlock_hufNnodes (s : State) : s.resetBlock.hufNnodes = 0 := rfl
@[simp] theorem State.resetBlock_hufFreq (s : State) : s.resetBlock.hufFreq = Vector.replicate 256 0 := rfl
@[simp] theorem State.resetBlock_hufNode (s : State) : s.resetBlock.hufNode = [] := rfl
@[simp] theorem State.resetBlock_hufCode (s : State) : s.resetBlock.hufCode = Vector.replicate 256 none := rfl
@[simp] theorem State.resetBlock_bwtOpos (s : State) : s.resetBlock.bwtOpos = 0 := rfl
@[simp] theorem State.resetBlock_bwtSufidx (s : State) : s.resetBlock.bwtSufidx = [] := rfl
@[simp] theorem State.resetBlock_host (s : State) : s.resetBlock.host = s.host := rfl
@[simp] theorem State.resetBlock_readData (s : State) : s.resetBlock.readData = s.readData := rfl
@[simp] theorem State.resetBlock_draw (s : State) : s.resetBlock.draw = s.draw := rfl
@[simp] theorem State.unit_resetBlock (s : State) (u : UnitId) : s.resetBlock.unit u = .reset := by cases u <;> rfl

/-! ### Windows -/

@[simp] theorem State.mem_text (s : State) (u : UnitId) : s.mem ⟨u, .text⟩ = (s.unit u).text := rfl

@[simp] theorem State.mem_comp (s : State) (u : UnitId) : s.mem ⟨u, .comp⟩ = (s.unit u).comp := rfl

@[simp] theorem State.mem_decomp (s : State) (u : UnitId) : s.mem ⟨u, .decomp⟩ = (s.unit u).decomp := rfl

end Sys2Proof.Machine
end

