-- ==== Sys2Proof/Laws/Ops.lean ====
section
/-! SUPPORT. The laws of a window's bytes (canonical form, read after write), of little-endian words, and of how a command
ends. -/

namespace Sys2Proof.Machine

/-! ### Canonical form -/

theorem Mem.wf_cons {a : Nat} {b : Byte} {m : Mem} : Mem.wf ((a, b) :: m) = true ↔ (∀ c ∈ m, a < c.1) ∧ Mem.wf m = true := by
  induction m generalizing a b with
  | nil => simp [Mem.wf]
  | cons c m ih =>
    obtain ⟨d, x⟩ := c
    have h := ih (a := d) (b := x)
    rw [Mem.wf, Bool.and_eq_true, decide_eq_true_eq, h]
    constructor
    · rintro ⟨h1, h2, h3⟩
      refine ⟨fun c hc => ?_, h2, h3⟩
      rcases List.mem_cons.1 hc with rfl | hc
      · exact h1
      · exact Nat.lt_trans h1 (h2 c hc)
    · rintro ⟨h1, h2⟩
      exact ⟨h1 (d, x) (by simp), h2⟩

theorem Mem.mem_put {m : Mem} {off : Nat} {b : Byte} {c : Host.Cell} (h : c ∈ Mem.put m off b) : c = (off, b) ∨ c ∈ m := by
  induction m with
  | nil => simpa [Mem.put] using h
  | cons d m ih =>
    obtain ⟨a, x⟩ := d
    rw [Mem.put] at h
    split at h
    · simpa using h
    · split at h
      · rcases List.mem_cons.1 h with h | h
        · exact .inl h
        · exact .inr (by simp [h])
      · rcases List.mem_cons.1 h with h | h
        · exact .inr (by simp [h])
        · rcases ih h with h | h
          · exact .inl h
          · exact .inr (by simp [h])

/-- A write keeps the canonical form. -/
theorem Mem.put_wf {m : Mem} (h : Mem.wf m = true) (off : Nat) (b : Byte) : Mem.wf (Mem.put m off b) = true := by
  induction m with
  | nil => rfl
  | cons d m ih =>
    obtain ⟨a, x⟩ := d
    have hc := Mem.wf_cons.1 h
    rw [Mem.put]
    split
    · refine Mem.wf_cons.2 ⟨fun c hcm => ?_, h⟩
      rcases List.mem_cons.1 hcm with rfl | hcm
      · assumption
      · have := hc.1 c hcm
        omega
    · split
      · rename_i h1 h2
        subst h2
        exact Mem.wf_cons.2 ⟨hc.1, hc.2⟩
      · refine Mem.wf_cons.2 ⟨fun c hcm => ?_, ih hc.2⟩
        rcases Mem.mem_put hcm with rfl | hcm
        · show a < off
          omega
        · exact hc.1 c hcm

theorem Mem.putBytes_wf {m : Mem} (h : Mem.wf m = true) (off : Nat) (bs : List Byte) :
    Mem.wf (Mem.putBytes m off bs) = true := by
  induction bs generalizing m off with
  | nil => exact h
  | cons b bs ih => exact ih (Mem.put_wf h off b) (off + 1)

theorem Mem.mem_ofBytes {off : Nat} {bs : List Byte} {c : Host.Cell} (h : c ∈ Mem.ofBytes off bs) :
    off ≤ c.1 ∧ c.1 < off + bs.length := by
  induction bs generalizing off with
  | nil => simp [Mem.ofBytes] at h
  | cons b bs ih =>
    rcases List.mem_cons.1 h with rfl | h
    · simp
    · have := ih h
      simp
      omega

theorem Mem.ofBytes_wf (off : Nat) (bs : List Byte) : Mem.wf (Mem.ofBytes off bs) = true := by
  induction bs generalizing off with
  | nil => rfl
  | cons b bs ih =>
    refine Mem.wf_cons.2 ⟨fun c hc => ?_, ih (off + 1)⟩
    have := (Mem.mem_ofBytes hc).1
    omega

/-! ### Bounds -/

theorem Mem.below_iff {n : Nat} {m : Mem} : Mem.below n m = true ↔ ∀ c ∈ m, c.1 < n := by
  simp [Mem.below, List.all_eq_true]

theorem Mem.put_below {n : Nat} {m : Mem} (h : Mem.below n m = true) {off : Nat} (hoff : off < n) (b : Byte) :
    Mem.below n (Mem.put m off b) = true :=
  Mem.below_iff.2 fun c hc => by
    rcases Mem.mem_put hc with rfl | hc
    · exact hoff
    · exact Mem.below_iff.1 h c hc

theorem Mem.putBytes_below {n : Nat} {m : Mem} (h : Mem.below n m = true) {off : Nat} {bs : List Byte}
    (hoff : off + bs.length ≤ n) : Mem.below n (Mem.putBytes m off bs) = true := by
  induction bs generalizing m off with
  | nil => exact h
  | cons b bs ih =>
    simp at hoff
    exact ih (Mem.put_below h (by omega) b) (by omega)

theorem Mem.ofBytes_below {n : Nat} {bs : List Byte} (h : bs.length ≤ n) : Mem.below n (Mem.ofBytes 0 bs) = true :=
  Mem.below_iff.2 fun c hc => by
    have := (Mem.mem_ofBytes hc).2
    omega

/-! ### Read after write -/

theorem Mem.lookup_of_lt {m : Mem} {off : Nat} (h : ∀ c ∈ m, off < c.1) : Mem.lookup m off = none := by
  induction m with
  | nil => rfl
  | cons d m ih =>
    obtain ⟨a, x⟩ := d
    have : off < a := h (a, x) (by simp)
    rw [Mem.lookup, if_neg (by omega)]
    exact ih fun c hc => h c (by simp [hc])

/-- A read after a write to the same place gives the value written. -/
theorem Mem.lookup_put_same (m : Mem) (off : Nat) (b : Byte) : Mem.lookup (Mem.put m off b) off = some b := by
  induction m with
  | nil => simp [Mem.put, Mem.lookup]
  | cons d m ih =>
    obtain ⟨a, x⟩ := d
    rw [Mem.put]
    split
    · simp [Mem.lookup]
    · split
      · simp [Mem.lookup]
      · rename_i h1 h2
        rw [Mem.lookup, if_neg (by omega)]
        exact ih

/-- A write leaves every other place alone. -/
theorem Mem.lookup_put_other {m : Mem} {off o : Nat} (b : Byte) (h : o ≠ off) :
    Mem.lookup (Mem.put m off b) o = Mem.lookup m o := by
  have h' : off ≠ o := fun e => h e.symm
  induction m with
  | nil => simp [Mem.put, Mem.lookup, h']
  | cons d m ih =>
    obtain ⟨a, x⟩ := d
    rw [Mem.put]
    split
    · rw [Mem.lookup, if_neg h']
    · split
      · rename_i h1 h2
        subst h2
        rw [Mem.lookup, Mem.lookup, if_neg h', if_neg h']
      · rw [Mem.lookup, Mem.lookup, ih]

theorem Mem.lookup_putBytes_before {m : Mem} {off o : Nat} (bs : List Byte) (h : o < off) :
    Mem.lookup (Mem.putBytes m off bs) o = Mem.lookup m o := by
  induction bs generalizing m off with
  | nil => rfl
  | cons b bs ih =>
    rw [Mem.putBytes, ih (by omega), Mem.lookup_put_other b (by omega)]

/-- What a window holds after several bytes are written. -/
theorem Mem.lookup_putBytes (m : Mem) (off o : Nat) (bs : List Byte) :
    Mem.lookup (Mem.putBytes m off bs) o =
      if off ≤ o ∧ o < off + bs.length then bs[o - off]? else Mem.lookup m o := by
  induction bs generalizing m off with
  | nil =>
    rw [Mem.putBytes, if_neg]
    simp
  | cons b bs ih =>
    rw [Mem.putBytes, ih]
    by_cases h0 : o = off
    · subst h0
      rw [if_neg (by omega), Mem.lookup_put_same, if_pos (by simp)]
      simp
    · rw [Mem.lookup_put_other b h0]
      by_cases h1 : off + 1 ≤ o ∧ o < off + 1 + bs.length
      · rw [if_pos h1, if_pos (by simp; omega)]
        have : o - off = (o - (off + 1)) + 1 := by omega
        rw [this, List.getElem?_cons_succ]
      · rw [if_neg h1, if_neg (by simp; omega)]

theorem Mem.lookup_ofBytes (off : Nat) (bs : List Byte) (i : Nat) : Mem.lookup (Mem.ofBytes off bs) (off + i) = bs[i]? := by
  induction bs generalizing off i with
  | nil => rfl
  | cons b bs ih =>
    rw [Mem.ofBytes, Mem.lookup]
    cases i with
    | zero => simp
    | succ i =>
      rw [if_neg (by omega), show off + (i + 1) = off + 1 + i by omega, ih]
      simp

@[simp] theorem Mem.lookup_ofBytes_zero (bs : List Byte) (i : Nat) : Mem.lookup (Mem.ofBytes 0 bs) i = bs[i]? := by
  simpa using Mem.lookup_ofBytes 0 bs i

/-! ### Bits of a byte -/

/-- Bit `i` of a byte is the `7 - i`-th from the most significant. -/
theorem highBits_getLsbD (n i : Nat) (hi : i < 8) : (highBits n).getLsbD i = decide (7 - i < n) := by
  have h255 : ∀ j : Nat, (0xFF : Byte).getLsbD j = decide (j < 8) := by
    intro j
    by_cases hj : j < 8
    · match j, hj with
      | 0, _ | 1, _ | 2, _ | 3, _ | 4, _ | 5, _ | 6, _ | 7, _ => rfl
    · rw [BitVec.getLsbD_of_ge _ _ (by omega)]; simp [hj]
  simp only [highBits, BitVec.getLsbD_not, BitVec.getLsbD_ushiftRight, h255, hi, decide_true, Bool.true_and]
  rw [← decide_not]
  exact decide_eq_decide.2 (by omega)

/-- Of two bytes, the first bits of the one and the rest of the other. -/
theorem firstBits_getLsbD (n : Nat) (a b : Byte) {i : Nat} (hi : i < 8) :
    (firstBits n a b).getLsbD i = if 7 - i < n then a.getLsbD i else b.getLsbD i := by
  rw [firstBits]
  by_cases hn : 8 ≤ n
  · rw [if_pos hn, if_pos (by omega)]
  · rw [if_neg hn]
    simp only [BitVec.getLsbD_or, BitVec.getLsbD_and, BitVec.getLsbD_not, highBits_getLsbD _ _ hi, hi, decide_true,
      Bool.true_and]
    by_cases h : 7 - i < n <;> simp [h]

/-- One bit is the new one, every other bit is kept. -/
theorem replaceBit_getLsbD (b : Byte) (k : Nat) (v : Bool) {i : Nat} (hi : i < 8) :
    (replaceBit b k v).getLsbD i = if 7 - i = k then v else b.getLsbD i := by
  rw [replaceBit, firstBits_getLsbD _ _ _ hi, firstBits_getLsbD _ _ _ hi]
  by_cases h : 7 - i = k
  · rw [if_neg (by omega), if_pos (by omega), if_pos h]
    cases v
    · simp
    · match i, hi with
      | 0, _ | 1, _ | 2, _ | 3, _ | 4, _ | 5, _ | 6, _ | 7, _ => rfl
  · rw [if_neg h]
    by_cases h' : 7 - i < k
    · rw [if_pos h']
    · rw [if_neg h', if_neg (by omega)]

/-! ### Little-endian words -/

@[simp] theorem bytesOfWord_length (w : Word) : (bytesOfWord w).length = 4 := rfl

/-- Four bytes of a word give the word back. -/
theorem wordOfBytes_bytesOfWord (w : Word) :
    wordOfBytes (w.extractLsb' 0 8) (w.extractLsb' 8 8) (w.extractLsb' 16 8) (w.extractLsb' 24 8) = w := by
  refine BitVec.eq_of_getLsbD_eq fun i hi => ?_
  simp only [wordOfBytes, BitVec.getLsbD_append, BitVec.getLsbD_extractLsb']
  by_cases h1 : i < 8
  · simp [h1]
  · by_cases h2 : i < 16
    · simp [h1, show i - 8 < 8 by omega, show 8 + (i - 8) = i by omega]
    · by_cases h3 : i < 24
      · simp [h1, show ¬ i - 8 < 8 by omega, show i - 8 - 8 < 8 by omega, show 16 + (i - 8 - 8) = i by omega]
      · simp [h1, show ¬ i - 8 < 8 by omega, show ¬ i - 8 - 8 < 8 by omega, show i - 8 - 8 - 8 < 8 by omega,
          show 24 + (i - 8 - 8 - 8) = i by omega]

/-- Bit `i` of the `k`-th byte of a word, the lowest address first (R62). -/
theorem wordOfBytes_getLsbD (b0 b1 b2 b3 : Byte) {k i : Nat} (hk : k < 4) (hi : i < 8) :
    (wordOfBytes b0 b1 b2 b3).getLsbD (8 * k + i) = ([b0, b1, b2, b3].getD k 0).getLsbD i := by
  simp only [wordOfBytes, BitVec.getLsbD_append]
  have : k = 0 ∨ k = 1 ∨ k = 2 ∨ k = 3 := by omega
  rcases this with rfl | rfl | rfl | rfl
  · rw [if_pos (by omega)]; simp
  · rw [if_neg (by omega), if_pos (by omega)]; simp
  · rw [if_neg (by omega), if_neg (by omega), if_pos (by omega), show 8 * 2 + i - 8 - 8 = i by omega]; rfl
  · rw [if_neg (by omega), if_neg (by omega), if_neg (by omega), show 8 * 3 + i - 8 - 8 - 8 = i by omega]; rfl

/-- The bytes of a word made of bytes (R62). -/
theorem wordOfBytes_bytes (b0 b1 b2 b3 : Byte) : bytesOfWord (wordOfBytes b0 b1 b2 b3) = [b0, b1, b2, b3] := by
  have at' (k : Nat) (b : Byte) (h : ∀ i, i < 8 → (wordOfBytes b0 b1 b2 b3).getLsbD (k + i) = b.getLsbD i) :
      (wordOfBytes b0 b1 b2 b3).extractLsb' k 8 = b := by
    ext i hi
    simpa [BitVec.getLsbD_eq_getElem hi] using h i hi
  rw [bytesOfWord, at' 0 b0, at' 8 b1, at' 16 b2, at' 24 b3]
  · exact fun i hi => wordOfBytes_getLsbD b0 b1 b2 b3 (k := 3) (by omega) hi
  · exact fun i hi => wordOfBytes_getLsbD b0 b1 b2 b3 (k := 2) (by omega) hi
  · exact fun i hi => wordOfBytes_getLsbD b0 b1 b2 b3 (k := 1) (by omega) hi
  · exact fun i hi => wordOfBytes_getLsbD b0 b1 b2 b3 (k := 0) (by omega) hi

@[simp] theorem bytesOfWords_length (ws : List Word) : (bytesOfWords ws).length = 4 * ws.length := by
  induction ws with
  | nil => rfl
  | cons w ws ih =>
    rw [bytesOfWords, List.flatMap_cons, List.length_append, bytesOfWord_length]
    rw [bytesOfWords] at ih
    rw [ih, List.length_cons]
    omega

/-- Byte `4k + j` of a sequence of words is byte `j` of word `k`. -/
theorem bytesOfWords_getElem? (ws : List Word) (k j : Nat) (hj : j < 4) :
    (bytesOfWords ws)[4 * k + j]? = (ws[k]?).map fun w => w.extractLsb' (8 * j) 8 := by
  induction ws generalizing k with
  | nil => simp [bytesOfWords]
  | cons w ws ih =>
    rw [bytesOfWords, List.flatMap_cons]
    cases k with
    | zero =>
      rw [List.getElem?_append_left (by simp; omega)]
      interval_cases j <;> rfl
    | succ k =>
      rw [List.getElem?_append_right (by simp; omega)]
      have : 4 * (k + 1) + j - (bytesOfWord w).length = 4 * k + j := by simp; omega
      rw [this]
      simpa [bytesOfWords] using ih k

/-! ### How a command ends -/

@[simp] theorem Ending.andThen_completed (s : State) (f : State → Ending) : (Ending.completed s).andThen f = f s := rfl

@[simp] theorem Ending.andThen_raised (s : State) (f : State → Ending) : (Ending.raised s).andThen f = .raised s := rfl

/-- Everything an accepted command can do: it goes on to the state its rule leaves, with DONE set if the rule ran to its
end (R92, R93, R243). -/
theorem runCommand_next {rule : State → Ending} {s t : State} (h : runCommand rule s = .next t) :
    (∃ u, rule s.accept = .completed u ∧ t = u.complete) ∨ rule s.accept = .raised t := by
  rw [runCommand] at h
  split at h
  · rename_i u hu; cases h; exact .inl ⟨u, hu, rfl⟩
  · rename_i u hu; cases h; exact .inr hu

/-- Every accepted command ends (R224). -/
theorem runCommand_ends (rule : State → Ending) (s : State) : ∃ t, runCommand rule s = .next t := by
  rw [runCommand]
  split
  · exact ⟨_, rfl⟩
  · exact ⟨_, rfl⟩

theorem runCommand_of_completed {rule : State → Ending} {s u : State} (h : rule s.accept = .completed u) :
    runCommand rule s = .next u.complete := by rw [runCommand, h]

theorem runCommand_of_raised {rule : State → Ending} {s u : State} (h : rule s.accept = .raised u) :
    runCommand rule s = .next u := by rw [runCommand, h]

end Sys2Proof.Machine
end

