-- ==== Sys2Proof/Laws/Commands.lean ====
section
/-! SUPPORT. One spec lemma per command: the state it goes on to, with its checks in order (60_exceptions.md R249) and the
effect of each way it can end written as one record update. The claims cite these instead of unfolding the commands. -/

namespace Sys2Proof.Machine

/-- The flags after a command that ran to its end (R93). -/
def State.ended (s : State) : State := { s with busy := false, done := true, selErr := false }

@[simp] theorem State.textOf_accept (s : State) (u : UnitId) : s.accept.textOf u = s.textOf u := by cases u <;> rfl
@[simp] theorem State.decompOf_accept (s : State) (u : UnitId) : s.accept.decompOf u = s.decompOf u := by cases u <;> rfl
@[simp] theorem State.rleComp_accept (s : State) : s.accept.rleComp = s.rleComp := rfl
@[simp] theorem State.hufComp_accept (s : State) : s.accept.hufComp = s.hufComp := rfl
@[simp] theorem State.bwtComp_accept (s : State) : s.accept.bwtComp = s.bwtComp := rfl
@[simp] theorem State.lzwComp_accept (s : State) : s.accept.lzwComp = s.lzwComp := rfl
@[simp] theorem State.codeOf_accept (s : State) : s.accept.codeOf = s.codeOf := rfl
@[simp] theorem State.nodeAt_accept (s : State) : s.accept.nodeAt = s.nodeAt := rfl

theorem raise_accept (s : State) (k : FaultKind) (info : Nat) : raise k info s.accept = .raised (s.faultOnly k info) := rfl

theorem completed_ended (s : State) : Completed s s.ended := ⟨rfl, rfl, rfl, rfl, rfl, rfl⟩

theorem faulted_faultOnly (s : State) (k : FaultKind) (info : Nat) : Faulted k info (s.faultOnly k info) :=
  ⟨rfl, rfl, rfl, rfl, rfl, rfl⟩

theorem exec_blkRst (s : State) : exec .blkRst s = .next s.resetBlock := rfl

/-! ### How a body ends -/

/-- The body of a command, run in an accepted state, ends in what `after` says: completed, or with a fault. -/
def EndsIn (body : State → Ending) (after : State → State) (s : State) : Prop :=
  (body s.accept = .completed (after s).accept ∧ (after s).accept.complete = after s) ∨
    (body s.accept = .raised (after s) ∧ (after s).done = false)

theorem runCommand_of_body {rule body : State → Ending} {after : State → State} {s : State}
    (hr : rule s.accept = body s.accept) (h : EndsIn body after s) : runCommand rule s = .next (after s) := by
  rcases h with ⟨h, hc⟩ | ⟨h, -⟩
  · rw [runCommand_of_completed (hr.trans h), hc]
  · exact runCommand_of_raised (hr.trans h)

/-! ### RLE -/

/-- The state an `RLE.ENC` that passes its PHASE check goes on to. -/
def State.afterRleEnc (s : State) : State :=
  if s.rle.textLen.toNat > s.params.cap then s.faultOnly .len s.rle.textLen.toNat
  else
    { s.ended with
      rle := { s.rle with
        phase := .encoded
        compLen := BitVec.ofNat 32 (rleEncode (s.textOf .rle)).length
        comp := Mem.ofBytes 0 (bytesOfWords ((rleEncode (s.textOf .rle)).map Part.toWord)) } }

theorem rleEncBody_ends (s : State) : EndsIn rleEncBody State.afterRleEnc s := by
  rw [EndsIn, State.afterRleEnc, rleEncBody]
  by_cases h : s.rle.textLen.toNat > s.params.cap
  · rw [if_pos h]; exact .inr ⟨if_pos h, rfl⟩
  · rw [if_neg h]; exact .inl ⟨if_neg h, rfl⟩

theorem exec_rleEnc (s : State) :
    exec .rleEnc s = .next (if s.rle.phase ≠ .idle then s.faultOnly .seq 0x10 else s.afterRleEnc) := by
  by_cases h1 : s.rle.phase ≠ .idle
  · rw [if_pos h1]
    exact runCommand_of_raised (by rw [rleEncRule]; exact if_pos h1)
  · rw [if_neg h1]
    exact runCommand_of_body (by rw [rleEncRule]; exact if_neg h1) (rleEncBody_ends s)

/-- The state an `RLE.DEC` that passes its PHASE check goes on to. -/
def State.afterRleDec (s : State) : State :=
  if s.rle.compLen.toNat > s.params.cap then s.faultOnly .len s.rle.compLen.toNat
  else
    match rleDecode s.params.cap 0 s.rleComp [] with
    | .error t => (s.dropDecomp .rle).faultOnly t.kind t.info
    | .ok out =>
      { s.ended with
        rle := { s.rle with
          phase := .decoded
          decompLen := BitVec.ofNat 32 out.length
          decomp := Mem.ofBytes 0 out } }

theorem rleDecBody_ends (s : State) : EndsIn rleDecBody State.afterRleDec s := by
  rw [EndsIn, State.afterRleDec, rleDecBody]
  by_cases h : s.rle.compLen.toNat > s.params.cap
  · rw [if_pos h]; exact .inr ⟨if_pos h, rfl⟩
  · rw [if_neg h, if_neg (c := s.accept.rle.compLen.toNat > s.accept.params.cap) h,
      show rleDecode s.accept.params.cap 0 s.accept.rleComp [] = rleDecode s.params.cap 0 s.rleComp [] from rfl]
    cases rleDecode s.params.cap 0 s.rleComp []
    · exact .inr ⟨rfl, rfl⟩
    · exact .inl ⟨rfl, rfl⟩

theorem exec_rleDec (s : State) :
    exec .rleDec s = .next (if s.rle.phase ≠ .encoded then s.faultOnly .seq 0x11 else s.afterRleDec) := by
  by_cases h1 : s.rle.phase ≠ .encoded
  · rw [if_pos h1]
    exact runCommand_of_raised (by rw [rleDecRule]; exact if_pos h1)
  · rw [if_neg h1]
    exact runCommand_of_body (by rw [rleDecRule]; exact if_neg h1) (rleDecBody_ends s)

/-! ### Huffman -/

/-- The tree `HUF.BUILD` builds in a state. -/
def State.builtTree (s : State) : List Node × List Nat :=
  buildTree s.params.hufTie (Config.tieChoice s.draw) (frequencies (s.textOf .huf))

theorem exec_hufBuild (s : State) :
    exec .hufBuild s = .next (
      if s.huf.phase ≠ .idle then s.faultOnly .seq 0x20
      else if s.huf.textLen.toNat > s.params.cap then s.faultOnly .len s.huf.textLen.toNat
      else
        { s.ended with
          huf := { s.huf with phase := .codesGenerated }
          hufFreq := frequencies (s.textOf .huf)
          hufNode := s.builtTree.1
          hufNnodes := BitVec.ofNat 10 s.builtTree.1.length
          hufRoot := rootOf s.builtTree.2
          hufCode := codeTable (treeCodes s.builtTree.1 (rootId (rootOf s.builtTree.2))) }) := by
  show runCommand hufBuildRule s = _
  rw [runCommand, hufBuildRule]
  by_cases h1 : s.huf.phase ≠ .idle
  · rw [if_pos h1, if_pos (c := s.accept.huf.phase ≠ .idle) h1]; rfl
  · rw [if_neg h1, if_neg (c := s.accept.huf.phase ≠ .idle) h1]
    by_cases h2 : s.huf.textLen.toNat > s.params.cap
    · rw [if_pos h2, if_pos (c := s.accept.huf.textLen.toNat > s.accept.params.cap) h2]; rfl
    · rw [if_neg h2, if_neg (c := s.accept.huf.textLen.toNat > s.accept.params.cap) h2]
      simp only [hufAssign, hufGrow, hufCount, State.setPhase, State.setUnit, State.textOf_accept, State.builtTree,
        State.complete, State.unit, State.accept_params, State.accept_draw]
      rfl

theorem exec_hufEnc (s : State) :
    exec .hufEnc s = .next (
      if s.huf.phase ≠ .codesGenerated then s.faultOnly .seq 0x21
      else if s.huf.textLen.toNat > s.params.cap then s.faultOnly .len s.huf.textLen.toNat
      else
        match hufEncode s.codeOf 0 (s.textOf .huf) [] with
        | .error t => (s.dropComp .huf).faultOnly t.kind t.info
        | .ok out =>
          { s.ended with
            huf := { s.huf with
              phase := .encoded
              compLen := BitVec.ofNat 32 out.length
              comp := Mem.ofBytes 0 (packBits out) } }) := by
  show runCommand hufEncRule s = _
  rw [runCommand, hufEncRule]
  by_cases h1 : s.huf.phase ≠ .codesGenerated
  · rw [if_pos h1, if_pos (c := s.accept.huf.phase ≠ .codesGenerated) h1]; rfl
  · rw [if_neg h1, if_neg (c := s.accept.huf.phase ≠ .codesGenerated) h1]
    by_cases h2 : s.huf.textLen.toNat > s.params.cap
    · rw [if_pos h2, if_pos (c := s.accept.huf.textLen.toNat > s.accept.params.cap) h2]; rfl
    · rw [if_neg h2, if_neg (c := s.accept.huf.textLen.toNat > s.accept.params.cap) h2]
      have hd : hufEncode s.accept.codeOf 0 (s.accept.textOf .huf) [] = hufEncode s.codeOf 0 (s.textOf .huf) [] := rfl
      rw [hd]
      cases hufEncode s.codeOf 0 (s.textOf .huf) [] <;> rfl

theorem exec_hufDec (s : State) :
    exec .hufDec s = .next (
      if s.huf.phase ≠ .encoded then s.faultOnly .seq 0x22
      else if s.huf.compLen.toNat > s.params.hufBitsCap then s.faultOnly .len s.huf.compLen.toNat
      else
        match hufDecode s.nodeAt s.params.cap s.hufRoot s.hufComp with
        | .error t => (s.dropDecomp .huf).faultOnly t.kind t.info
        | .ok out =>
          { s.ended with
            huf := { s.huf with
              phase := .decoded
              decompLen := BitVec.ofNat 32 out.length
              decomp := Mem.ofBytes 0 out } }) := by
  show runCommand hufDecRule s = _
  rw [runCommand, hufDecRule]
  by_cases h1 : s.huf.phase ≠ .encoded
  · rw [if_pos h1, if_pos (c := s.accept.huf.phase ≠ .encoded) h1]; rfl
  · rw [if_neg h1, if_neg (c := s.accept.huf.phase ≠ .encoded) h1]
    by_cases h2 : s.huf.compLen.toNat > s.params.hufBitsCap
    · rw [if_pos h2, if_pos (c := s.accept.huf.compLen.toNat > s.accept.params.hufBitsCap) h2]; rfl
    · rw [if_neg h2, if_neg (c := s.accept.huf.compLen.toNat > s.accept.params.hufBitsCap) h2]
      have hd : hufDecode s.accept.nodeAt s.accept.params.cap s.accept.hufRoot s.accept.hufComp = hufDecode s.nodeAt s.params.cap s.hufRoot s.hufComp := rfl
      rw [hd]
      cases hufDecode s.nodeAt s.params.cap s.hufRoot s.hufComp <;> rfl

/-! ### BWT -/

/-- The state a `BWT.FWD` that passes its PHASE check goes on to. -/
def State.afterBwtFwd (s : State) : State :=
  if s.bwt.textLen.toNat > s.params.maxLen then s.faultOnly .len s.bwt.textLen.toNat
  else if s.bwt.textLen.toNat = 0 then
    { s.ended with
      bwt := { s.bwt with phase := .encoded, compLen := 0, comp := [] }
      bwtOpos := 0 }
  else if s.sentinel ∈ s.textOf .bwt then
    (s.dropComp .bwt).faultOnly .sentinel ((s.textOf .bwt).idxOf s.sentinel)
  else
    { s.ended with
      bwt := { s.bwt with
        phase := .encoded
        compLen := BitVec.ofNat 32 (lastColumn (extended s)).length
        comp := Mem.ofBytes 0 (lastColumn (extended s)) }
      bwtSufidx := suffixIndices (extended s)
      bwtOpos := BitVec.ofNat 32 (originalPos (extended s)) }

theorem bwtFwdBody_ends (s : State) : EndsIn bwtFwdBody State.afterBwtFwd s := by
  rw [EndsIn, State.afterBwtFwd, bwtFwdBody]
  by_cases h : s.bwt.textLen.toNat > s.params.maxLen
  · rw [if_pos h]; exact .inr ⟨if_pos h, rfl⟩
  · rw [if_neg h, if_neg (c := s.accept.bwt.textLen.toNat > s.accept.params.maxLen) h]
    by_cases h2 : s.bwt.textLen.toNat = 0
    · rw [if_pos h2]; exact .inl ⟨if_pos h2, rfl⟩
    · rw [if_neg h2, if_neg (c := s.accept.bwt.textLen.toNat = 0) h2]
      by_cases h3 : s.sentinel ∈ s.textOf .bwt
      · rw [if_pos h3]; exact .inr ⟨if_pos h3, rfl⟩
      · rw [if_neg h3]; exact .inl ⟨if_neg h3, rfl⟩

theorem exec_bwtFwd (s : State) :
    exec .bwtFwd s = .next (if s.bwt.phase ≠ .idle then s.faultOnly .seq 0x30 else s.afterBwtFwd) := by
  by_cases h1 : s.bwt.phase ≠ .idle
  · rw [if_pos h1]
    exact runCommand_of_raised (by rw [bwtFwdRule]; exact if_pos h1)
  · rw [if_neg h1]
    exact runCommand_of_body (by rw [bwtFwdRule]; exact if_neg h1) (bwtFwdBody_ends s)

/-- The state a `BWT.INV` that passes its PHASE check goes on to. -/
def State.afterBwtInv (s : State) : State :=
  if s.bwt.compLen.toNat > s.params.cap then s.faultOnly .len s.bwt.compLen.toNat
  else
    match if s.bwt.compLen.toNat = 0 then Except.ok [] else bwtInverse s.bwtComp s.sentinel s.bwtOpos.toNat with
    | .error t => (s.dropDecomp .bwt).faultOnly t.kind t.info
    | .ok out =>
      { s.ended with
        bwt := { s.bwt with
          phase := .decoded
          decompLen := BitVec.ofNat 32 out.length
          decomp := Mem.ofBytes 0 out } }

theorem bwtInvBody_ends (s : State) : EndsIn bwtInvBody State.afterBwtInv s := by
  rw [EndsIn, State.afterBwtInv, bwtInvBody]
  by_cases h : s.bwt.compLen.toNat > s.params.cap
  · rw [if_pos h]; exact .inr ⟨if_pos h, rfl⟩
  · rw [if_neg h, if_neg (c := s.accept.bwt.compLen.toNat > s.accept.params.cap) h]
    by_cases h2 : s.bwt.compLen.toNat = 0
    · rw [if_pos h2]; exact .inl ⟨if_pos h2, rfl⟩
    · rw [if_neg h2, if_neg (c := s.accept.bwt.compLen.toNat = 0) h2,
        show bwtInverse s.accept.bwtComp s.accept.sentinel s.accept.bwtOpos.toNat =
          bwtInverse s.bwtComp s.sentinel s.bwtOpos.toNat from rfl]
      cases bwtInverse s.bwtComp s.sentinel s.bwtOpos.toNat
      · exact .inr ⟨rfl, rfl⟩
      · exact .inl ⟨rfl, rfl⟩

theorem exec_bwtInv (s : State) :
    exec .bwtInv s = .next (if s.bwt.phase ≠ .encoded then s.faultOnly .seq 0x31 else s.afterBwtInv) := by
  by_cases h1 : s.bwt.phase ≠ .encoded
  · rw [if_pos h1]
    exact runCommand_of_raised (by rw [bwtInvRule]; exact if_pos h1)
  · rw [if_neg h1]
    exact runCommand_of_body (by rw [bwtInvRule]; exact if_neg h1) (bwtInvBody_ends s)

/-! ### LZW -/

theorem exec_lzwEnc (s : State) :
    exec .lzwEnc s = .next (
      if s.lzw.phase ≠ .idle then s.faultOnly .seq 0x40
      else if s.lzw.textLen.toNat > s.params.cap then s.faultOnly .len s.lzw.textLen.toNat
      else
        { s.ended with
          lzw := { s.lzw with
            phase := .encoded
            compLen := BitVec.ofNat 32 (lzwEncode (s.textOf .lzw)).length
            comp := Mem.ofBytes 0 (bytesOfWords ((lzwEncode (s.textOf .lzw)).map (BitVec.ofNat 32))) } }) := by
  show runCommand lzwEncRule s = _
  rw [runCommand, lzwEncRule]
  by_cases h1 : s.lzw.phase ≠ .idle
  · rw [if_pos h1, if_pos (c := s.accept.lzw.phase ≠ .idle) h1]; rfl
  · rw [if_neg h1, if_neg (c := s.accept.lzw.phase ≠ .idle) h1]
    by_cases h2 : s.lzw.textLen.toNat > s.params.cap
    · rw [if_pos h2, if_pos (c := s.accept.lzw.textLen.toNat > s.accept.params.cap) h2]; rfl
    · rw [if_neg h2, if_neg (c := s.accept.lzw.textLen.toNat > s.accept.params.cap) h2]
      rfl

theorem exec_lzwDec (s : State) :
    exec .lzwDec s = .next (
      if s.lzw.phase ≠ .encoded then s.faultOnly .seq 0x41
      else if s.lzw.compLen.toNat > s.params.cap then s.faultOnly .len s.lzw.compLen.toNat
      else
        match lzwDecode s.params.cap s.lzwComp with
        | .error t => (s.dropDecomp .lzw).faultOnly t.kind t.info
        | .ok out =>
          { s.ended with
            lzw := { s.lzw with
              phase := .decoded
              decompLen := BitVec.ofNat 32 out.length
              decomp := Mem.ofBytes 0 out } }) := by
  show runCommand lzwDecRule s = _
  rw [runCommand, lzwDecRule]
  by_cases h1 : s.lzw.phase ≠ .encoded
  · rw [if_pos h1, if_pos (c := s.accept.lzw.phase ≠ .encoded) h1]; rfl
  · rw [if_neg h1, if_neg (c := s.accept.lzw.phase ≠ .encoded) h1]
    by_cases h2 : s.lzw.compLen.toNat > s.params.cap
    · rw [if_pos h2, if_pos (c := s.accept.lzw.compLen.toNat > s.accept.params.cap) h2]; rfl
    · rw [if_neg h2, if_neg (c := s.accept.lzw.compLen.toNat > s.accept.params.cap) h2]
      have hd : lzwDecode s.accept.params.cap s.accept.lzwComp = lzwDecode s.params.cap s.lzwComp := rfl
      rw [hd]
      cases lzwDecode s.params.cap s.lzwComp <;> rfl

/-! ### The composite -/

theorem exec_bwtrleEnc (s : State) :
    exec .bwtrleEnc s = .next (
      if s.bwt.phase ≠ .idle ∨ s.rle.phase ≠ .idle then s.faultOnly .seq 0x50
      else if s.afterBwtFwd.done then (s.afterBwtFwd.putText .rle s.afterBwtFwd.bwtComp).afterRleEnc
      else s.afterBwtFwd) := by
  by_cases h1 : s.bwt.phase ≠ .idle ∨ s.rle.phase ≠ .idle
  · rw [if_pos h1]
    exact runCommand_of_raised (by rw [bwtrleEncRule]; exact if_pos h1)
  · rw [if_neg h1]
    have hrule : bwtrleEncRule s.accept =
        (bwtFwdBody s.accept).andThen fun t => rleEncBody (t.putText .rle t.bwtComp) := by
      rw [bwtrleEncRule]; exact if_neg h1
    rcases bwtFwdBody_ends s with ⟨h, hc⟩ | ⟨h, hd⟩
    · rw [h, Ending.andThen_completed] at hrule
      have hd : s.afterBwtFwd.done = true := by rw [← hc]; rfl
      rw [if_pos hd]
      exact runCommand_of_body (rule := bwtrleEncRule) (s := s)
        (body := fun _ => rleEncBody (s.afterBwtFwd.putText .rle s.afterBwtFwd.bwtComp).accept)
        (after := fun _ => (s.afterBwtFwd.putText .rle s.afterBwtFwd.bwtComp).afterRleEnc)
        hrule (rleEncBody_ends _)
    · rw [h, Ending.andThen_raised] at hrule
      rw [hd]
      exact runCommand_of_raised hrule

/-- The state the second half of `BWTRLE.DEC` goes on to, from the state `RLE.DEC` leaves. -/
def State.afterCheckedBwtInv (s : State) : State :=
  if s.bwt.compLen.toNat > s.params.cap then s.faultOnly .len s.bwt.compLen.toNat
  else if s.decompOf .rle ≠ s.bwtComp then
    (s.dropDecomp .bwt).faultOnly .composite (firstDifference (s.decompOf .rle) s.bwtComp)
  else s.afterBwtInv

theorem checkedBwtInv_ends (s : State) : EndsIn checkedBwtInv State.afterCheckedBwtInv s := by
  rw [EndsIn, State.afterCheckedBwtInv, checkedBwtInv]
  by_cases h : s.bwt.compLen.toNat > s.params.cap
  · rw [if_pos h]; exact .inr ⟨if_pos h, rfl⟩
  · rw [if_neg h, if_neg (c := s.accept.bwt.compLen.toNat > s.accept.params.cap) h]
    by_cases h2 : s.decompOf .rle ≠ s.bwtComp
    · rw [if_pos h2]; exact .inr ⟨if_pos h2, rfl⟩
    · rw [if_neg h2, if_neg (c := s.accept.decompOf .rle ≠ s.accept.bwtComp) h2]
      exact bwtInvBody_ends s

theorem exec_bwtrleDec (s : State) :
    exec .bwtrleDec s = .next (
      if s.rle.phase ≠ .encoded ∨ s.bwt.phase ≠ .encoded then s.faultOnly .seq 0x51
      else if s.afterRleDec.done then s.afterRleDec.afterCheckedBwtInv
      else s.afterRleDec) := by
  by_cases h1 : s.rle.phase ≠ .encoded ∨ s.bwt.phase ≠ .encoded
  · rw [if_pos h1]
    exact runCommand_of_raised (by rw [bwtrleDecRule]; exact if_pos h1)
  · rw [if_neg h1]
    have hrule : bwtrleDecRule s.accept = (rleDecBody s.accept).andThen checkedBwtInv := by
      rw [bwtrleDecRule]; exact if_neg h1
    rcases rleDecBody_ends s with ⟨h, hc⟩ | ⟨h, hd⟩
    · rw [h, Ending.andThen_completed] at hrule
      have hd : s.afterRleDec.done = true := by rw [← hc]; rfl
      rw [if_pos hd]
      exact runCommand_of_body (rule := bwtrleDecRule) (s := s)
        (body := fun _ => checkedBwtInv s.afterRleDec.accept) (after := fun _ => s.afterRleDec.afterCheckedBwtInv)
        hrule (checkedBwtInv_ends _)
    · rw [h, Ending.andThen_raised] at hrule
      rw [hd]
      exact runCommand_of_raised hrule

end Sys2Proof.Machine
end

