-- ==== Sys2Proof/Laws/Endings.lean ====
section
/-! SUPPORT. Which faults each operation can end with (spec/60_exceptions.md R240), how the STATUS flags stand after a
command (R93, R243), and which fields the bodies a composite runs can write. -/

namespace Sys2Proof.Machine

/-! ### Flags -/

theorem afterRleEnc_flags (s : State) (h : s.fault = false) :
    s.afterRleEnc.busy = false ∧ s.afterRleEnc.selErr = false ∧ s.afterRleEnc.done = !s.afterRleEnc.fault := by
  rw [State.afterRleEnc]; split <;> simp [State.faultOnly, State.ended, h]

theorem afterRleDec_flags (s : State) (h : s.fault = false) :
    s.afterRleDec.busy = false ∧ s.afterRleDec.selErr = false ∧ s.afterRleDec.done = !s.afterRleDec.fault := by
  rw [State.afterRleDec]; split <;> [skip; split] <;> simp [State.faultOnly, State.ended, h]

theorem afterBwtFwd_flags (s : State) (h : s.fault = false) :
    s.afterBwtFwd.busy = false ∧ s.afterBwtFwd.selErr = false ∧ s.afterBwtFwd.done = !s.afterBwtFwd.fault := by
  rw [State.afterBwtFwd]; split <;> [skip; (split <;> [skip; split])] <;> simp [State.faultOnly, State.ended, h]

theorem afterBwtInv_flags (s : State) (h : s.fault = false) :
    s.afterBwtInv.busy = false ∧ s.afterBwtInv.selErr = false ∧ s.afterBwtInv.done = !s.afterBwtInv.fault := by
  rw [State.afterBwtInv]; split <;> [skip; split] <;> simp [State.faultOnly, State.ended, h]

theorem afterChecked_flags (s : State) (h : s.fault = false) :
    s.afterCheckedBwtInv.busy = false ∧ s.afterCheckedBwtInv.selErr = false ∧ s.afterCheckedBwtInv.done = !s.afterCheckedBwtInv.fault := by
  rw [State.afterCheckedBwtInv]; split <;> [skip; split] <;> [simp [State.faultOnly]; simp [State.faultOnly]; exact afterBwtInv_flags s h]

/-! ### Kinds of fault -/

theorem rleDecode_kind {cap k : Nat} {ps : List Part} {out : List Byte} {t : Trap} (h : rleDecode cap k ps out = .error t) :
    t.kind = .rleZero ∨ t.kind = .overflow := by
  induction ps generalizing k out with
  | nil => cases h
  | cons p ps ih =>
    rw [rleDecode] at h
    split at h
    · cases h; simp
    · split at h
      · cases h; simp
      · exact ih h

theorem hufDecodeLeaf_kind {cap k : Nat} {sym : Byte} {bits : List Bool} {out : List Byte} {t : Trap}
    (h : hufDecodeLeaf cap sym k bits out = .error t) : t.kind = .hufPath ∨ t.kind = .overflow := by
  induction bits generalizing k out with
  | nil => cases h
  | cons b bits ih =>
    rw [hufDecodeLeaf] at h
    split at h
    · cases h; simp
    · split at h
      · cases h; simp
      · exact ih h

theorem hufDecodeTree_kind {node : Nat → Node} {cap m root rl rr k cur l r : Nat} {bits : List Bool}
    {out : List Byte} {t : Trap} (h : hufDecodeTree node cap m root rl rr k bits cur l r out = .error t) :
    t.kind = .hufPath ∨ t.kind = .overflow := by
  induction bits generalizing k cur l r out with
  | nil =>
    rw [hufDecodeTree] at h
    split at h
    · cases h; simp
    · cases h
  | cons b bits ih =>
    rw [hufDecodeTree] at h
    split at h
    · split at h
      · cases h; simp
      · exact ih h
    · exact ih h

theorem hufDecode_kind {node : Nat → Node} {cap : Nat} {root : BitVec 9} {bits : List Bool} {t : Trap}
    (h : hufDecode node cap root bits = .error t) : t.kind = .hufPath ∨ t.kind = .overflow ∨ t.kind = .hufNoTree := by
  unfold hufDecode at h
  split at h
  · cases h
  · split at h
    · cases h; simp
    · split at h
      · have := hufDecodeLeaf_kind h; tauto
      · have := hufDecodeTree_kind h; tauto

theorem lzwDecodeLoop_kind {cap : Nat} {dict : List (List Byte)} {prev out : List Byte} {j : Nat} {codes : List Nat} {t : Trap}
    (h : lzwDecodeLoop cap dict prev out j codes = .error t) : t.kind = .overflow := by
  induction codes generalizing dict prev out j with
  | nil => cases h
  | cons k codes ih =>
    rw [lzwDecodeLoop] at h
    split at h
    · cases h; rfl
    · exact ih h

theorem lzwDecode_kind {cap : Nat} {codes : List Nat} {t : Trap}
    (h : lzwDecode cap codes = .error t) : t.kind = .overflow ∨ t.kind = .lzwFirst := by
  cases codes with
  | nil => cases h
  | cons k codes =>
    rw [lzwDecode] at h
    split at h
    · cases h; simp
    · exact .inl (lzwDecodeLoop_kind h)

/-! ### Fields written -/

theorem afterBwtFwd_frame (s : State) : s.afterBwtFwd = { s.withStatusOf s.afterBwtFwd with
            bwt := { s.bwt with phase := s.afterBwtFwd.bwt.phase, compLen := s.afterBwtFwd.bwt.compLen, comp := s.afterBwtFwd.bwt.comp },
            bwtOpos := s.afterBwtFwd.bwtOpos, bwtSufidx := s.afterBwtFwd.bwtSufidx } := by
      rw [State.afterBwtFwd]
      split <;> [skip; (split <;> [skip; split])] <;> rfl

theorem afterRleEnc_frame (s : State) : s.afterRleEnc = { s.withStatusOf s.afterRleEnc with
            rle := { s.rle with phase := s.afterRleEnc.rle.phase, compLen := s.afterRleEnc.rle.compLen, comp := s.afterRleEnc.rle.comp } } := by
    rw [State.afterRleEnc]
    split <;> rfl

theorem afterRleDec_frame (s : State) : s.afterRleDec = { s.withStatusOf s.afterRleDec with
            rle := { s.rle with phase := s.afterRleDec.rle.phase, decompLen := s.afterRleDec.rle.decompLen, decomp := s.afterRleDec.rle.decomp } } := by
      rw [State.afterRleDec]
      split <;> [skip; split] <;> rfl

theorem afterCheckedBwtInv_frame (s : State) : s.afterCheckedBwtInv = { s.withStatusOf s.afterCheckedBwtInv with
            bwt := { s.bwt with phase := s.afterCheckedBwtInv.bwt.phase, decompLen := s.afterCheckedBwtInv.bwt.decompLen, decomp := s.afterCheckedBwtInv.bwt.decomp } } := by
      rw [State.afterCheckedBwtInv]
      split <;> [rfl; (split <;> [rfl; skip])]
      rw [State.afterBwtInv]
      split <;> [skip; split] <;> rfl

end Sys2Proof.Machine
end

