-- ==== Sys2Proof/Laws/HostPort.lean ====
section
/-! SUPPORT. What a step can do, said once: the effects a host action can have, and the two ways into a step that the claims
about commands use. -/

namespace Sys2Proof.Machine

theorem regAt_cmd {off : Nat} (h : regAt off = .cmd) : off = 0 := by
  rw [regAt] at h
  simp only [regTable, List.lookup] at h
  repeat' split at h
  all_goals first | (rename_i hb; simpa using hb) | simp at h

@[simp] theorem placeOf_base (p : Params) : placeOf p p.base = some (.register 0) := by
  simp [placeOf, regSpaceSize]

@[simp] theorem accessOf_base (p : Params) : accessOf p p.base 4 = .ok (.register 0) := by
  simp [accessOf]

/-- A register access that has a meaning is inside the register space. -/
theorem placeOf_register {p : Params} {addr off : Nat} (h : placeOf p addr = some (.register off)) :
    addr = p.base + off ∧ off < regSpaceSize := by
  rw [placeOf] at h
  split at h
  · rename_i hb; cases h; omega
  · simp at h

theorem placeOf_window {p : Params} {addr off : Nat} {w : Window} (h : placeOf p addr = some (.window w off)) :
    addr = p.windowBase w + off ∧ off < p.windowSize w := by
  rw [placeOf] at h
  split at h
  · simp at h
  · rw [Option.map_eq_some_iff] at h
    obtain ⟨w', hw, he⟩ := h
    have := List.find?_some hw
    cases he
    simp at this
    omega

theorem accessOf_register {p : Params} {addr size off : Nat} (h : accessOf p addr size = .ok (.register off)) :
    addr = p.base + off ∧ size = 4 ∧ off % 4 = 0 := by
  rw [accessOf] at h
  split at h
  · cases h
  · rename_i o ho
    split at h
    · cases h
    · split at h
      · cases h
      · rename_i h1 h2; cases h
        exact ⟨(placeOf_register ho).1, by simpa using h1, by simpa using h2⟩
  · repeat' split at h
    all_goals cases h

theorem accessOf_window {p : Params} {addr size off : Nat} {w : Window} (h : accessOf p addr size = .ok (.window w off)) :
    addr = p.windowBase w + off ∧ (size = 1 ∨ size = 2 ∨ size = 4) ∧ off % size = 0 ∧ off + size ≤ p.windowSize w := by
  rw [accessOf] at h
  split at h
  · cases h
  · repeat' split at h
    all_goals cases h
  · rename_i w' o ho
    split at h
    · cases h
    · split at h
      · cases h
      · split at h
        · cases h
        · rename_i h1 h2 h3; cases h
          exact ⟨(placeOf_window ho).1, by omega, by simpa using h2, by omega⟩

/-- The effects a host action can have, in a state it has already left the script of. -/
inductive ActionEffect (s : State) : HostAction → State → Prop where
  | hardwareReset : ActionEffect s .hardwareReset s.resetBlock
  | read (addr size : Nat) (v : Word) : ActionEffect s (.read addr size) { s with readData := some v }
  | register (addr size : Nat) (v : Word) (r : Reg) : s.busy = false → ActionEffect s (.write addr size v) (s.writeReg r v)
  | window (addr size : Nat) (v : Word) (w : Window) (off : Nat) :
      s.busy = false → off + size ≤ s.params.windowSize w → ActionEffect s (.write addr size v) (s.hostWrite w off size v)
  | ignored (v : Word) :
      s.busy = false → s.fault = true → v ≠ 0x0000000F → ActionEffect s (.write s.params.base 4 v) s
  | unselected (v : Word) :
      s.busy = false → s.fault = false → decode v = none → ActionEffect s (.write s.params.base 4 v) s.selectionError
  | command (v : Word) (i : Instr) (t : State) :
      s.busy = false → decode v = some i → s.fault = false ∨ i = .blkRst → exec i s = .next t →
        ActionEffect s (.write s.params.base 4 v) t

/-- A word that decodes is its command's word. -/
theorem decode_sound {w : Word} {i : Instr} (h : decode w = some i) : w = encode i := by
  simp only [decode, Option.map_eq_some_iff] at h
  obtain ⟨r, hr, he⟩ := h
  have hm := List.mem_of_find?_eq_some hr
  have hp : r.word = w := by simpa using List.find?_some hr
  rw [← hp, ← he]
  simp only [opcodeRows, List.mem_cons, List.not_mem_nil, or_false] at hm
  rcases hm with rfl | rfl | rfl | rfl | rfl | rfl | rfl | rfl | rfl | rfl | rfl | rfl <;> decide

theorem decode_blkRst : decode 0x0000000F = some .blkRst := by decide

/-- The four cases of R92. -/
theorem issue_effect {v : Word} {s t : State} (hb : s.busy = false)
    (h : (match issue v s with
      | .answered o => o
      | .run i u => exec i u) = .next t) : ActionEffect s (.write s.params.base 4 v) t := by
  rw [issue] at h
  split at h
  · rename_i o ho
    split at ho
    · cases ho
    · rename_i hv
      split at ho
      · rename_i hf; cases ho; cases h; exact .ignored v hb hf hv
      · rename_i hf
        split at ho
        · rename_i hd; cases ho; cases h; exact .unselected v hb (by simpa using hf) hd
        · cases ho
  · rename_i i u ho
    split at ho
    · rename_i hv; cases ho; exact .command v .blkRst t hb (by rw [hv]; exact decode_blkRst) (.inr rfl) h
    · split at ho
      · cases ho
      · rename_i hf
        split at ho
        · cases ho
        · rename_i j hd; cases ho; exact .command v i t hb hd (.inl (by simpa using hf)) h

/-- Everything a step can do. -/
theorem step_cases {s t : State} (h : step s = .next t) :
    (s.host = [] ∧ t = s) ∨ ∃ a rest, s.host = a :: rest ∧ ActionEffect (s.takeAction rest) a t := by
  rw [step, serveHost] at h
  split at h
  · rename_i o ho
    split at ho
    · rename_i hh; cases ho; cases h; exact .inl ⟨hh, rfl⟩
    · rename_i a rest hh
      refine .inr ⟨a, rest, hh, ?_⟩
      cases a with
      | hardwareReset => cases ho; cases h; exact .hardwareReset
      | read addr size =>
        simp only [serveAction, Served.answered.injEq] at ho
        subst ho
        rw [serveRead] at h
        split at h
        · rename_i e he; cases e <;> cases h
        · split at h
          · cases h
          · cases h; exact .read addr size _
      | write addr size v =>
        simp only [serveAction, serveWrite] at ho
        split at ho
        · rename_i e he; cases ho; cases e <;> cases h
        · rename_i pl hpl
          split at ho
          · cases ho; cases h
          · rename_i hb
            have hb : (s.takeAction rest).busy = false := by simpa using hb
            split at ho
            · rename_i off
              split at ho
              · rename_i hc
                obtain ⟨ha, rfl, -⟩ := accessOf_register hpl
                cases regAt_cmd hc
                obtain rfl : addr = (s.takeAction rest).params.base := by simpa using ha
                refine issue_effect hb ?_
                rw [ho]; exact h
              · cases ho; cases h; exact .register addr size v _ hb
            · rename_i w off
              cases ho; cases h
              exact .window addr size v w off hb (accessOf_window hpl).2.2.2
  · rename_i i u ho
    split at ho
    · cases ho
    · rename_i a rest hh
      refine .inr ⟨a, rest, hh, ?_⟩
      cases a with
      | hardwareReset => cases ho
      | read addr size => cases ho
      | write addr size v =>
        simp only [serveAction, serveWrite] at ho
        split at ho
        · cases ho
        · rename_i pl hpl
          split at ho
          · cases ho
          · rename_i hb
            have hb : (s.takeAction rest).busy = false := by simpa using hb
            split at ho
            · rename_i off
              split at ho
              · rename_i hc
                obtain ⟨ha, rfl, -⟩ := accessOf_register hpl
                cases regAt_cmd hc
                obtain rfl : addr = (s.takeAction rest).params.base := by simpa using ha
                refine issue_effect hb ?_
                rw [ho]; exact h
              · cases ho
            · cases ho

/-- A CMD write with BUSY = 0 is issued. -/
theorem step_cmdWrite {s : State} {w : Word} {rest : List HostAction} (h : s.host = .write s.params.base 4 w :: rest)
    (hb : s.busy = false) :
    step s = (match issue w (s.takeAction rest) with
      | .answered o => o
      | .run i u => exec i u) := by
  rw [step, serveHost, h]
  simp only [serveAction, serveWrite, State.takeAction_params, accessOf_base, State.takeAction_busy, hb]
  rfl

/-- A CMD write that selects a command runs it. -/
theorem step_command {s : State} {w : Word} {i : Instr} {rest : List HostAction}
    (h : s.host = .write s.params.base 4 w :: rest) (hb : s.busy = false) (hd : decode w = some i)
    (hf : s.fault = false ∨ i = .blkRst) : step s = exec i (s.takeAction rest) := by
  rw [step_cmdWrite h hb, issue]
  by_cases hw : w = 0x0000000F
  · subst hw
    cases decode_blkRst.symm.trans hd
    simp
  · have hf : s.fault = false := hf.resolve_right fun hi => hw (by rw [decode_sound hd, hi]; decide)
    rw [if_neg hw]
    simp only [State.takeAction_fault, hf, hd, Bool.false_eq_true, if_false]

/-- A step that performs a host action the block answers itself. -/
theorem step_answered {s : State} {a : HostAction} {rest : List HostAction} {o : Host.Outcome State Fault Refusal}
    (h : s.host = a :: rest) (ha : serveAction a (s.takeAction rest) = .answered o) : step s = o := by
  rw [step, serveHost, h]
  dsimp only
  rw [ha]

/-! ### Where an access lands -/

/-- Every aligned 32-bit access of the register space has a meaning (R70). -/
theorem accessOf_registerSpace {p : Params} {off : Nat} (h : off < regSpaceSize) (h4 : off % 4 = 0) :
    accessOf p (p.base + off) 4 = .ok (.register off) := by
  have : placeOf p (p.base + off) = some (.register off) := by
    rw [placeOf, if_pos ⟨by omega, by omega⟩]
    simp
  rw [accessOf, this]
  simp [h4]

theorem mem_allWindows (w : Window) : w ∈ allWindows := by
  obtain ⟨u, k⟩ := w
  cases u <;> cases k <;> decide

theorem pairwise_of_pairwiseDisjoint {l : List (Nat × Nat)} (h : pairwiseDisjoint l = true) :
    l.Pairwise fun a b => regionsDisjoint a b = true := by
  induction l with
  | nil => exact .nil
  | cons r l ih =>
    simp only [pairwiseDisjoint, Bool.and_eq_true, List.all_eq_true] at h
    exact .cons h.1 (ih h.2)

/-- The register space and a window have no address in common (R61). -/
theorem window_not_register {p : Params} (h : p.mapOk = true) (w : Window) :
    regionsDisjoint (p.base, regSpaceSize) (p.windowBase w, p.windowSize w) = true :=
  (List.pairwise_cons.1 (pairwise_of_pairwiseDisjoint h)).1 _ (List.mem_map_of_mem (mem_allWindows w))

/-- Two windows have no address in common (R61). -/
theorem windows_disjoint {p : Params} (h : p.mapOk = true) {w w' : Window} (hne : w ≠ w') :
    regionsDisjoint (p.windowBase w, p.windowSize w) (p.windowBase w', p.windowSize w') = true := by
  have hp := List.pairwise_map.1 (List.pairwise_cons.1 (pairwise_of_pairwiseDisjoint h)).2
  have : Std.Symm fun a b : Window =>
      regionsDisjoint (p.windowBase a, p.windowSize a) (p.windowBase b, p.windowSize b) = true :=
    ⟨fun a b hab => by simp only [regionsDisjoint, Bool.or_eq_true, decide_eq_true_eq] at hab ⊢; omega⟩
  exact hp.forall (mem_allWindows w) (mem_allWindows w') hne

/-- An address of a window is found there. -/
theorem placeOf_windowBase {p : Params} (h : p.mapOk = true) {w : Window} {off : Nat} (ho : off < p.windowSize w) :
    placeOf p (p.windowBase w + off) = some (.window w off) := by
  have hr := window_not_register h w
  simp only [regionsDisjoint, Bool.or_eq_true, decide_eq_true_eq] at hr
  rw [placeOf, if_neg (by simp only [regSpaceSize] at hr ⊢; omega)]
  have hself : (decide (p.windowBase w ≤ p.windowBase w + off) &&
      decide (p.windowBase w + off < p.windowBase w + p.windowSize w)) = true := by simp; omega
  obtain ⟨w', hw'⟩ := Option.isSome_iff_exists.1 (List.find?_isSome.2 ⟨w, mem_allWindows w, hself⟩ :
    (allWindows.find? fun w' => decide (p.windowBase w' ≤ p.windowBase w + off) &&
      decide (p.windowBase w + off < p.windowBase w' + p.windowSize w')).isSome = true)
  have hin := List.find?_some hw'
  simp only [Bool.and_eq_true, decide_eq_true_eq] at hin
  by_cases hne : w = w'
  · subst hne
    rw [hw']
    simp
  · have hd := windows_disjoint h hne
    simp only [regionsDisjoint, Bool.or_eq_true, decide_eq_true_eq] at hd
    omega

/-- An aligned access of 1, 2 or 4 bytes inside a window has a meaning (R70). -/
theorem accessOf_windowBase {p : Params} (h : p.mapOk = true) {w : Window} {off size : Nat}
    (hs : size = 1 ∨ size = 2 ∨ size = 4) (ha : off % size = 0) (ho : off + size ≤ p.windowSize w) :
    accessOf p (p.windowBase w + off) size = .ok (.window w off) := by
  rw [accessOf, placeOf_windowBase h (by omega)]
  dsimp only
  rw [if_neg (by omega), if_neg (by omega), if_neg (by omega)]

@[simp] theorem mem_setMem (s : State) (w : Window) (m : Mem) : (s.setMem w m).mem w = m := by
  obtain ⟨u, k⟩ := w
  cases u <;> cases k <;> rfl

/-- An aligned write of 1, 2 or 4 bytes inside a TEXT or COMP window (R36, R70): the bytes are stored, and nothing else
changes. -/
theorem step_windowWrite {s : State} {w : Window} {off size : Nat} {v : Word} {rest : List HostAction}
    (hw : s.params.wf = true) (hb : s.busy = false) (hs : size = 1 ∨ size = 2 ∨ size = 4) (ha : off % size = 0)
    (ho : off + size ≤ s.params.windowSize w) (hk : w.kind ≠ .decomp)
    (hh : s.host = .write (s.params.windowBase w + off) size v :: rest) :
    step s = .next ((s.takeAction rest).setMem w ((s.mem w).putBytes off ((bytesOfWord v).take size))) := by
  refine step_answered hh ?_
  have hm : s.params.mapOk = true := by
    simp only [Params.wf, Bool.and_eq_true] at hw
    exact hw.2
  rw [serveAction, serveWrite, show (s.takeAction rest).params = s.params from rfl, accessOf_windowBase hm hs ha ho]
  obtain ⟨u, k⟩ := w
  cases k <;> first
    | exact absurd rfl hk
    | (cases u <;> simp [hb, State.hostWrite, State.mem, State.takeAction, State.unit])

/-- The same for one byte, as the host-script lines write it. -/
theorem step_byteWrite {s : State} {w : Window} {off : Nat} {b : Byte} {rest : List HostAction}
    (hw : s.params.wf = true) (hb : s.busy = false) (ho : off < s.params.windowSize w) (hk : w.kind ≠ .decomp)
    (hh : s.host = .write (s.params.windowBase w + off) 1 (b.setWidth 32) :: rest) :
    step s = .next ((s.takeAction rest).setMem w ((s.mem w).put off b)) := by
  have hbit : (b.setWidth 32).extractLsb' 0 8 = b := by
    ext i hi
    simp only [BitVec.getElem_extractLsb', BitVec.getLsbD_setWidth, Nat.zero_add, show i < 32 by omega, decide_true,
      Bool.true_and, BitVec.getLsbD_eq_getElem hi]
  rw [step_windowWrite hw hb (.inl rfl) (Nat.mod_one _) ho hk hh]
  simp [bytesOfWord, hbit, Mem.putBytes]

/-! ### What a host read of a window returns, bit by bit (R36, R62) -/

/-- A bit below the length register is the stored one, every other bit is free. -/
theorem hostByteAt_getLsbD (s : State) (w : Window) (off i : Nat) (hi : i < 8) :
    (s.hostByteAt w off).getLsbD i =
      if 8 * off + (7 - i) < s.liveBits w then (s.byteAt w off).getLsbD i
      else (Config.freeByte s.draw w off).getLsbD i := by
  rw [State.hostByteAt, firstBits_getLsbD _ _ _ hi]
  simp only [show 7 - i < s.liveBits w - 8 * off ↔ 8 * off + (7 - i) < s.liveBits w by omega]

/-- Bit `i` of the `k`-th byte read, the lowest address first; above the bytes read every bit is 0. -/
theorem hostRead_getLsbD (s : State) (w : Window) (off size : Nat) (hs : size = 1 ∨ size = 2 ∨ size = 4) :
    (∀ k i, k < size → i < 8 → (s.hostRead w off size).getLsbD (8 * k + i) = (s.hostByteAt w (off + k)).getLsbD i) ∧
      ∀ j, 8 * size ≤ j → (s.hostRead w off size).getLsbD j = false := by
  constructor
  · intro k i hk hi
    rw [State.hostRead, wordOfBytes_getLsbD _ _ _ _ (by omega) hi]
    rcases hs with rfl | rfl | rfl
    · have : k = 0 := by omega
      subst this; simp
    · have : k = 0 ∨ k = 1 := by omega
      rcases this with rfl | rfl <;> simp
    · have : k = 0 ∨ k = 1 ∨ k = 2 ∨ k = 3 := by omega
      rcases this with rfl | rfl | rfl | rfl <;> simp
  · intro j hj
    by_cases hj32 : j < 32
    · rw [show j = 8 * (j / 8) + j % 8 by omega, State.hostRead,
        wordOfBytes_getLsbD _ _ _ _ (by omega) (Nat.mod_lt _ (by omega))]
      have : j / 8 = 0 ∨ j / 8 = 1 ∨ j / 8 = 2 ∨ j / 8 = 3 := by omega
      rcases hs with rfl | rfl | rfl <;> rcases this with h | h | h | h <;> first | omega | simp [h]
    · exact BitVec.getLsbD_of_ge _ _ (by omega)

end Sys2Proof.Machine
end

