-- ==== Sys2Proof/Laws/PriorityQueue.lean ====
section
/-! SUPPORT. What a pop of the priority queue can return (spec/40_huffman.md R124, R126). -/

namespace Sys2Proof.Machine

theorem mem_pqCandidates {outranks : Nat → Nat → Bool} {q : List Nat} {y : Nat} :
    y ∈ pqCandidates outranks q ↔ y ∈ q ∧ ∀ z ∈ q, outranks z y = false := by
  simp [pqCandidates, List.mem_filter, List.all_eq_true]

theorem mem_of_pickCandidate {choice : Nat} {l : List Nat} {x : Nat} (h : pickCandidate choice l = some x) : x ∈ l := by
  match l with
  | [] => simp [pickCandidate] at h
  | [y] => simp [pickCandidate] at h; simp [h]
  | y :: z :: rest => exact List.mem_of_getElem? h

theorem pickCandidate_isSome {choice : Nat} {l : List Nat} (h : l ≠ []) : (pickCandidate choice l).isSome = true := by
  match l with
  | [] => exact absurd rfl h
  | [y] => rfl
  | y :: z :: rest =>
    have : choice % (y :: z :: rest).length < (y :: z :: rest).length := Nat.mod_lt _ (by simp)
    rw [pickCandidate, List.getElem?_eq_getElem this]
    rfl

/-- Everything a pop can do: it returns an element no element outranks and removes exactly that (R126). -/
theorem pqPop_some {outranks : Nat → Nat → Bool} {choice x : Nat} {q q' : List Nat}
    (h : pqPop outranks choice q = some (x, q')) :
    x ∈ q ∧ (∀ z ∈ q, outranks z x = false) ∧ q' = q.erase x := by
  rw [pqPop] at h
  obtain ⟨y, hy, e⟩ := Option.map_eq_some_iff.1 h
  cases e
  have := mem_pqCandidates.1 (mem_of_pickCandidate hy)
  exact ⟨this.1, this.2, rfl⟩

/-- `pop()` on the empty queue returns nothing (R124). -/
theorem pqPop_nil (outranks : Nat → Nat → Bool) (choice : Nat) : pqPop outranks choice [] = none := rfl

/-- Where the order has a least key, a pop of a queue that is not empty returns something. -/
theorem pqPop_isSome {α : Type} [LinearOrder α] (key : Nat → α) {outranks : Nat → Nat → Bool}
    (hkey : ∀ a b, outranks a b = true → key a < key b) {choice : Nat} {q : List Nat} (hq : q ≠ []) :
    (pqPop outranks choice q).isSome = true := by
  obtain ⟨y, hy, hmin⟩ := q.toFinset.exists_min_image key ⟨q.head hq, by simp⟩
  have hc : y ∈ pqCandidates outranks q := by
    refine mem_pqCandidates.2 ⟨by simpa using hy, fun z hz => ?_⟩
    by_contra hne
    exact absurd (hkey z y (by simpa using hne)) (not_lt.2 (hmin z (by simpa using hz)))
  simp [pqPop, pickCandidate_isSome (List.ne_nil_of_mem hc)]

/-- Under an order that is total on distinct elements, the choice number is never read: "every pop is determined"
(R129). -/
theorem pqPop_choice_irrelevant {outranks : Nat → Nat → Bool}
    (htotal : ∀ a b, a ≠ b → outranks a b = true ∨ outranks b a = true) {q : List Nat} (hq : q.Nodup) (c d : Nat) :
    pqPop outranks c q = pqPop outranks d q := by
  have hle : ∀ l : List Nat, l.Nodup → (∀ x ∈ l, ∀ y ∈ l, x = y) → l.length ≤ 1 := fun l hn h => by
    match l with
    | [] => simp
    | [x] => simp
    | x :: y :: rest => exact absurd (h x (by simp) y (by simp)) (by simp at hn; tauto)
  have h1 : (pqCandidates outranks q).length ≤ 1 := by
    refine hle _ (hq.filter _) fun x hx y hy => ?_
    by_contra hne
    have hx := mem_pqCandidates.1 hx
    have hy := mem_pqCandidates.1 hy
    rcases htotal x y hne with h | h
    · rw [hy.2 x hx.1] at h; exact absurd h (by simp)
    · rw [hx.2 y hy.1] at h; exact absurd h (by simp)
  have hpick : ∀ l : List Nat, l.length ≤ 1 → pickCandidate c l = pickCandidate d l := fun l h => by
    match l with
    | [] => rfl
    | [x] => rfl
    | x :: y :: rest => simp at h
  simp [pqPop, hpick _ h1]

end Sys2Proof.Machine
end

