-- ==== Sys2Proof/Laws/Huffman.lean ====
section
/-! SUPPORT. The Huffman tree the merge loop grows, the code table walked from it, and the decoder's walk (spec/40_huffman.md
R127 to R150), under either tie mode and every sequence of tie choices. -/

namespace Sys2Proof.Machine

/-! ### Seeds (R127, R128) -/

theorem frequencies_get (text : List Byte) (b : Byte) : (frequencies text).get b.toFin = text.count b := by
  simp only [frequencies, Vector.get_eq_getElem, Vector.getElem_ofFn]

theorem mem_allBytes (b : Byte) : b ∈ allBytes :=
  List.mem_map.2 ⟨b.toNat, by simp [b.isLt], by simp⟩

theorem allBytes_length : allBytes.length = 256 := by simp [allBytes]

theorem allBytes_nodup : allBytes.Nodup := by
  refine List.Nodup.map_on ?_ List.nodup_range
  intro a ha b hb h
  have ha := List.mem_range.1 ha
  have hb := List.mem_range.1 hb
  have := congrArg BitVec.toNat h
  simp at this
  omega

theorem mem_seedLeaves {freq : Vector Nat 256} {n : Node} :
    n ∈ seedLeaves freq ↔ ∃ b : Byte, 0 < freq.get b.toFin ∧ n = .leaf b (freq.get b.toFin) := by
  simp only [seedLeaves, List.mem_filterMap]
  constructor
  · rintro ⟨b, -, h⟩
    split at h
    · exact ⟨b, by assumption, by simpa using h.symm⟩
    · cases h
  · rintro ⟨b, h, rfl⟩
    exact ⟨b, mem_allBytes b, by simp [h]⟩

theorem seedLeaves_length_le (freq : Vector Nat 256) : (seedLeaves freq).length ≤ 256 := by
  simpa [allBytes_length, seedLeaves] using List.length_filterMap_le
    (fun b : Byte => if freq.get b.toFin > 0 then some (Node.leaf b (freq.get b.toFin)) else none) allBytes

/-! ### One turn of the merge loop (R130) -/

theorem outranks_key_any (arena : List Node) (a b : Nat) (h : outranks .any arena a b = true) :
    arenaFreq arena a < arenaFreq arena b := by
  simpa [outranks] using h

theorem outranks_key_ordered (arena : List Node) (a b : Nat) (h : outranks .ordered arena a b = true) :
    toLex (arenaFreq arena a, a) < toLex (arenaFreq arena b, b) := by
  rw [Prod.Lex.toLex_lt_toLex]
  simpa [outranks] using h

theorem popNode_isSome {tie : HufTie} {choice : Nat} {arena : List Node} {pq : List Nat} (h : pq ≠ []) :
    (popNode tie choice arena pq).isSome = true := by
  cases tie with
  | any => exact pqPop_isSome (arenaFreq arena) (outranks_key_any arena) h
  | ordered =>
    exact pqPop_isSome (fun i => toLex (arenaFreq arena i, i)) (outranks_key_ordered arena) h

/-- The two nodes a turn takes: the first pop and the second (R130, R132). -/
structure MergePick (tie : HufTie) (arena : List Node) (pq : List Nat) (a b : Nat) : Prop where
  mem_first : a ∈ pq
  first : ∀ z ∈ pq, outranks tie arena z a = false
  mem_second : b ∈ pq.erase a
  second : ∀ z ∈ pq.erase a, outranks tie arena z b = false

/-- The arena and the queue after a turn. -/
def mergedArena (arena : List Node) (a b : Nat) : List Node :=
  arena ++ [.internal (arenaFreq arena a + arenaFreq arena b) a b]

def mergedQueue (arena : List Node) (pq : List Nat) (a b : Nat) : List Nat :=
  pqPush ((pq.erase a).erase b) arena.length

/-- The merge loop, once: what every turn keeps holds at the end, and at most one node is left. -/
theorem mergeNodes_induct {tie : HufTie} {choices : Nat → Nat} (inv : List Node → List Nat → Prop)
    (turn : ∀ arena pq a b, inv arena pq → MergePick tie arena pq a b →
      inv (mergedArena arena a b) (mergedQueue arena pq a b))
    (fuel : Nat) (arena : List Node) (pq : List Nat) (h : inv arena pq) (hfuel : pq.length ≤ fuel + 1) :
    inv (mergeNodes tie choices fuel arena pq).1 (mergeNodes tie choices fuel arena pq).2 ∧
      (mergeNodes tie choices fuel arena pq).2.length ≤ 1 := by
  induction fuel generalizing arena pq with
  | zero => exact ⟨h, by simpa [mergeNodes] using hfuel⟩
  | succ fuel ih =>
    rw [mergeNodes]
    by_cases hlen : pq.length ≤ 1
    · rw [if_pos hlen]; exact ⟨h, hlen⟩
    · rw [if_neg hlen]
      have hne : pq ≠ [] := fun e => by simp [e] at hlen
      obtain ⟨⟨a, pq1⟩, h1⟩ := Option.isSome_iff_exists.1
        (popNode_isSome (tie := tie) (choice := choices (2 * arena.length)) (arena := arena) hne)
      obtain ⟨ha, hamin, rfl⟩ := pqPop_some h1
      have hlen1 : (pq.erase a).length = pq.length - 1 := List.length_erase_of_mem ha
      have hne1 : pq.erase a ≠ [] := fun e => by simp [e] at hlen1; omega
      obtain ⟨⟨b, pq2⟩, h2⟩ := Option.isSome_iff_exists.1
        (popNode_isSome (tie := tie) (choice := choices (2 * arena.length + 1)) (arena := arena) hne1)
      obtain ⟨hb, hbmin, rfl⟩ := pqPop_some h2
      have hlen2 : ((pq.erase a).erase b).length = (pq.erase a).length - 1 := List.length_erase_of_mem hb
      rw [h1]
      dsimp only
      rw [h2]
      exact ih _ _ (turn arena pq a b h ⟨ha, hamin, hb, hbmin⟩) (by simp [pqPush]; omega)

/-! ### The shape of the arena (R131) -/

/-- What the merge loop keeps of `arena` and `PQ`, `seeds` being the leaves it started from. -/
structure ForestInv (seeds : List Node) (arena : List Node) (pq : List Nat) : Prop where
  nodup : pq.Nodup
  ids : ∀ i ∈ pq, i < arena.length
  leaves : seeds <+: arena
  inner : ∀ i n, arena[i]? = some n → seeds.length ≤ i → ∃ f l r, n = .internal f l r
  seedLeaf : ∀ n ∈ seeds, ∃ b f, n = Node.leaf b f
  descending : arenaDescending arena
  counts : ∀ c, c < arena.length → (arena.flatMap nodeChildren).count c = if c ∈ pq then 0 else 1
  total : arena.length + pq.length = 2 * seeds.length
  weight : (pq.map (arenaFreq arena)).sum = (seeds.map nodeFreq).sum

theorem arenaFreq_append {arena more : List Node} {i : Nat} (h : i < arena.length) :
    arenaFreq (arena ++ more) i = arenaFreq arena i := by
  simp [arenaFreq, List.getElem?_append_left h]

theorem arenaFreq_merged (arena : List Node) (a b : Nat) :
    arenaFreq (mergedArena arena a b) arena.length = arenaFreq arena a + arenaFreq arena b := by
  simp [arenaFreq, mergedArena, nodeFreq]

theorem mem_erase_erase {pq : List Nat} (h : pq.Nodup) {a b c : Nat} :
    c ∈ (pq.erase a).erase b ↔ c ∈ pq ∧ c ≠ a ∧ c ≠ b := by
  rw [(h.erase a).mem_erase_iff, h.mem_erase_iff]
  tauto

theorem MergePick.mem {tie : HufTie} {arena : List Node} {pq : List Nat} {a b : Nat} (h : MergePick tie arena pq a b)
    (hnd : pq.Nodup) : a ∈ pq ∧ b ∈ pq ∧ a ≠ b := by
  have := hnd.mem_erase_iff.1 h.mem_second
  exact ⟨h.mem_first, this.2, fun e => this.1 e.symm⟩

theorem seeds_inv (freq : Vector Nat 256) :
    ForestInv (seedLeaves freq) (seedLeaves freq) (List.range (seedLeaves freq).length) where
  nodup := List.nodup_range
  ids := fun i hi => List.mem_range.1 hi
  leaves := List.prefix_refl _
  inner := fun i n hn hi => by
    have := (List.getElem?_eq_some_iff.1 hn).1
    omega
  seedLeaf := fun n hn => by
    obtain ⟨b, -, rfl⟩ := mem_seedLeaves.1 hn
    exact ⟨b, _, rfl⟩
  descending := fun i n hn c hc => by
    obtain ⟨b, -, rfl⟩ := mem_seedLeaves.1 (List.mem_of_getElem? hn)
    simp [nodeChildren] at hc
  counts := fun c hc => by
    have : (seedLeaves freq).flatMap nodeChildren = [] := by
      refine List.flatMap_eq_nil_iff.2 fun n hn => ?_
      obtain ⟨b, -, rfl⟩ := mem_seedLeaves.1 hn
      rfl
    simp [this, hc]
  total := by simp; omega
  weight := by
    congr 1
    refine List.ext_getElem? fun i => ?_
    by_cases hi : i < (seedLeaves freq).length
    · simp [arenaFreq, hi]
    · simp [hi]

theorem ForestInv.merge {tie : HufTie} {seeds arena : List Node} {pq : List Nat} {a b : Nat}
    (h : ForestInv seeds arena pq) (p : MergePick tie arena pq a b) :
    ForestInv seeds (mergedArena arena a b) (mergedQueue arena pq a b) := by
  obtain ⟨ha, hb, hab⟩ := p.mem h.nodup
  have hal := h.ids a ha
  have hbl := h.ids b hb
  have hnew : arena.length ∉ (pq.erase a).erase b := fun hm => by
    have := h.ids _ ((mem_erase_erase h.nodup).1 hm).1
    omega
  refine ⟨?_, ?_, ?_, ?_, h.seedLeaf, ?_, ?_, ?_, ?_⟩
  · rw [mergedQueue, pqPush, List.nodup_append]
    refine ⟨(h.nodup.erase a).erase b, List.nodup_singleton _, ?_⟩
    intro x hx y hy e
    rw [List.mem_singleton.1 hy] at e
    exact hnew (e ▸ hx)
  · intro i hi
    rw [mergedQueue, pqPush, List.mem_append, List.mem_singleton] at hi
    rw [mergedArena, List.length_append]
    rcases hi with hi | rfl
    · have := h.ids i ((mem_erase_erase h.nodup).1 hi).1
      omega
    · simp
  · exact h.leaves.trans (List.prefix_append _ _)
  · intro i n hn hi
    rw [mergedArena] at hn
    rcases Nat.lt_or_ge i arena.length with hlt | hge
    · rw [List.getElem?_append_left hlt] at hn
      exact h.inner i n hn hi
    · rw [List.getElem?_append_right hge] at hn
      have := List.mem_of_getElem? hn
      exact ⟨_, a, b, List.mem_singleton.1 this⟩
  · intro i n hn c hc
    rw [mergedArena] at hn
    rcases Nat.lt_or_ge i arena.length with hlt | hge
    · rw [List.getElem?_append_left hlt] at hn
      exact h.descending i n hn c hc
    · rw [List.getElem?_append_right hge] at hn
      rw [List.mem_singleton.1 (List.mem_of_getElem? hn)] at hc
      simp [nodeChildren] at hc
      omega
  · intro c hc
    rw [mergedArena, List.length_append] at hc
    have hcount : ((mergedArena arena a b).flatMap nodeChildren).count c =
        (arena.flatMap nodeChildren).count c + [a, b].count c := by
      simp [mergedArena, List.flatMap_append, nodeChildren]
    rw [hcount]
    rcases Nat.lt_or_ge c arena.length with hlt | hge
    · have hc' := h.counts c hlt
      have hmem : c ∈ mergedQueue arena pq a b ↔ c ∈ pq ∧ c ≠ a ∧ c ≠ b := by
        rw [mergedQueue, pqPush, List.mem_append, mem_erase_erase h.nodup, List.mem_singleton]
        have : c ≠ arena.length := by omega
        simp [this]
      rw [hc']
      by_cases h1 : c = a
      · subst h1
        have hba : b ≠ c := fun e => hab e.symm
        simp [hmem, ha, hba]
      · by_cases h2 : c = b
        · subst h2
          have : a ≠ c := hab
          simp [hmem, hb, this]
        · have h1' : a ≠ c := fun e => h1 e.symm
          have h2' : b ≠ c := fun e => h2 e.symm
          simp [hmem, h1, h2, h1', h2']
    · have hceq : c = arena.length := by simp at hc; omega
      subst hceq
      have h0 : (arena.flatMap nodeChildren).count arena.length = 0 := by
        refine List.count_eq_zero.2 fun hm => ?_
        obtain ⟨n, hn, hcn⟩ := List.mem_flatMap.1 hm
        obtain ⟨i, hi⟩ := List.getElem?_of_mem hn
        have h1 := h.descending i n hi _ hcn
        have h2 := (List.getElem?_eq_some_iff.1 hi).1
        omega
      have h1 : a ≠ arena.length := by omega
      have h2 : b ≠ arena.length := by omega
      simp [h0, h1, h2, mergedQueue, pqPush]
  · have h1 : (pq.erase a).length = pq.length - 1 := List.length_erase_of_mem ha
    have h2 : ((pq.erase a).erase b).length = (pq.erase a).length - 1 := List.length_erase_of_mem p.mem_second
    have h3 : 0 < (pq.erase a).length := List.length_pos_of_mem p.mem_second
    have := h.total
    simp [mergedArena, mergedQueue, pqPush]
    omega
  · have hperm : pq.Perm (a :: b :: (pq.erase a).erase b) :=
      (List.perm_cons_erase ha).trans (List.Perm.cons a (List.perm_cons_erase p.mem_second))
    have hold := (hperm.map (arenaFreq arena)).sum_eq
    have hsame : ((pq.erase a).erase b).map (arenaFreq (mergedArena arena a b)) =
        ((pq.erase a).erase b).map (arenaFreq arena) := by
      refine List.map_congr_left fun i hi => ?_
      exact arenaFreq_append (h.ids i ((mem_erase_erase h.nodup).1 hi).1)
    rw [← h.weight, hold, mergedQueue, pqPush, List.map_append, List.sum_append, hsame]
    simp [arenaFreq_merged]
    omega

/-- The forest `buildTree` ends with, whatever the ties do. -/
theorem buildTree_inv (tie : HufTie) (choices : Nat → Nat) (freq : Vector Nat 256) :
    ForestInv (seedLeaves freq) (buildTree tie choices freq).1 (buildTree tie choices freq).2 ∧
      (buildTree tie choices freq).2.length ≤ 1 :=
  mergeNodes_induct (ForestInv (seedLeaves freq)) (fun _ _ _ _ h p => h.merge p) _ _ _ (seeds_inv freq)
    (by simp)

/-! ### Paths (R135) -/

theorem descending_left {arena : List Node} (hd : arenaDescending arena) {i f l r : Nat}
    (h : arena[i]? = some (.internal f l r)) : l < i := hd i _ h l (by simp [nodeChildren])

theorem descending_right {arena : List Node} (hd : arenaDescending arena) {i f l r : Nat}
    (h : arena[i]? = some (.internal f l r)) : r < i := hd i _ h r (by simp [nodeChildren])

theorem TreePath.mono {arena more : List Node} {i j : Nat} {bits : List Bool} (h : TreePath arena i bits j) :
    TreePath (arena ++ more) i bits j := by
  have grow {k : Nat} {n : Node} (hk : arena[k]? = some n) : (arena ++ more)[k]? = some n := by
    rw [List.getElem?_append_left (List.getElem?_eq_some_iff.1 hk).1]; exact hk
  induction h with
  | here i => exact .here i
  | left hi _ ih => exact .left (grow hi) ih
  | right hi _ ih => exact .right (grow hi) ih

/-- Where a path leads is determined. -/
theorem TreePath.unique {arena : List Node} {i j k : Nat} {bits more : List Bool} {b : Byte} {f : Nat}
    (h : TreePath arena i bits j) (hj : arena[j]? = some (.leaf b f)) (h' : TreePath arena i (bits ++ more) k) :
    more = [] ∧ k = j := by
  induction h with
  | here i =>
    cases h' with
    | here => exact ⟨rfl, rfl⟩
    | left hi _ => rw [hj] at hi; cases hi
    | right hi _ => rw [hj] at hi; cases hi
  | left hi _ ih =>
    cases h' with
    | left hi' h' => rw [hi] at hi'; cases hi'; exact ih hj h'
  | right hi _ ih =>
    cases h' with
    | right hi' h' => rw [hi] at hi'; cases hi'; exact ih hj h'

/-- A path has no more steps than there are Internal nodes at or below its start (R131: depth at most `k - 1`). -/
theorem TreePath.length_le {arena : List Node} {k i j : Nat} {bits : List Bool} (hd : arenaDescending arena)
    (hk : ∀ i f l r, arena[i]? = some (.internal f l r) → k ≤ i) (h : TreePath arena i bits j) :
    bits = [] ∨ bits.length + k ≤ i + 1 := by
  induction h with
  | here i => exact .inl rfl
  | left hi _ ih =>
    have h1 := hk _ _ _ _ hi
    have h2 := descending_left hd hi
    rcases ih with rfl | ih
    · right; simp; omega
    · right; simp; omega
  | right hi _ ih =>
    have h1 := hk _ _ _ _ hi
    have h2 := descending_right hd hi
    rcases ih with rfl | ih
    · right; simp; omega
    · right; simp; omega

/-- Every leaf stays reachable from some node still queued. -/
theorem buildTree_reaches (tie : HufTie) (choices : Nat → Nat) (freq : Vector Nat 256) (i : Nat)
    (hi : i < (seedLeaves freq).length) :
    ∃ r ∈ (buildTree tie choices freq).2, ∃ bits, TreePath (buildTree tie choices freq).1 r bits i := by
  refine (mergeNodes_induct (tie := tie) (choices := choices)
    (fun arena pq => ForestInv (seedLeaves freq) arena pq ∧ ∃ r ∈ pq, ∃ bits, TreePath arena r bits i)
    ?_ _ _ _ ⟨seeds_inv freq, i, by simpa using hi, [], .here i⟩ (by simp)).1.2
  rintro arena pq a b ⟨hf, r, hr, bits, hp⟩ p
  refine ⟨hf.merge p, ?_⟩
  have hnew : (mergedArena arena a b)[arena.length]? = some (.internal (arenaFreq arena a + arenaFreq arena b) a b) := by
    simp [mergedArena]
  by_cases h1 : r = a
  · subst h1
    exact ⟨arena.length, by simp [mergedQueue, pqPush], _, .left hnew hp.mono⟩
  · by_cases h2 : r = b
    · subst h2
      exact ⟨arena.length, by simp [mergedQueue, pqPush], _, .right hnew hp.mono⟩
    · exact ⟨r, by simp [mergedQueue, pqPush, mem_erase_erase hf.nodup, hr, h1, h2], bits, hp.mono⟩

/-! ### The code table (R135, R136, R39) -/

theorem walkCodes_sound {arena : List Node} {fuel i : Nat} {path : List Bool} {b : Byte} {bits : List Bool}
    (h : (b, bits) ∈ walkCodes arena fuel i path) :
    ∃ p j f, bits = path ++ p ∧ TreePath arena i p j ∧ arena[j]? = some (.leaf b f) := by
  induction fuel generalizing i path with
  | zero => simp [walkCodes] at h
  | succ fuel ih =>
    rw [walkCodes] at h
    split at h
    · simp at h
    · rename_i sym f hi
      simp at h
      obtain ⟨rfl, rfl⟩ := h
      exact ⟨[], i, f, by simp, .here i, hi⟩
    · rename_i f l r hi
      rcases List.mem_append.1 h with h | h
      · obtain ⟨p, j, g, rfl, hp, hj⟩ := ih h
        exact ⟨false :: p, j, g, by simp, .left hi hp, hj⟩
      · obtain ⟨p, j, g, rfl, hp, hj⟩ := ih h
        exact ⟨true :: p, j, g, by simp, .right hi hp, hj⟩

theorem walkCodes_complete {arena : List Node} (hd : arenaDescending arena) {fuel i j : Nat} {path p : List Bool} {b : Byte}
    {f : Nat} (hfuel : i < fuel) (hp : TreePath arena i p j) (hj : arena[j]? = some (.leaf b f)) :
    (b, path ++ p) ∈ walkCodes arena fuel i path := by
  induction hp generalizing fuel path with
  | here i =>
    obtain ⟨fuel, rfl⟩ : ∃ g, fuel = g + 1 := ⟨fuel - 1, by omega⟩
    simp [walkCodes, hj]
  | left hi _ ih =>
    obtain ⟨fuel, rfl⟩ : ∃ g, fuel = g + 1 := ⟨fuel - 1, by omega⟩
    have := descending_left hd hi
    have := ih (fuel := fuel) (path := path ++ [false]) (by omega) hj
    rw [walkCodes, hi]
    simp at this
    simp [this]
  | right hi _ ih =>
    obtain ⟨fuel, rfl⟩ : ∃ g, fuel = g + 1 := ⟨fuel - 1, by omega⟩
    have := descending_right hd hi
    have := ih (fuel := fuel) (path := path ++ [true]) (by omega) hj
    rw [walkCodes, hi]
    simp at this
    simp [this]

theorem codeTable_get (codes : List (Byte × List Bool)) (b : Byte) : (codeTable codes).get b.toFin = codes.lookup b := by
  simp only [codeTable, Vector.get_eq_getElem, Vector.getElem_ofFn]

theorem mem_of_lookup {codes : List (Byte × List Bool)} {b : Byte} {bits : List Bool} (h : codes.lookup b = some bits) :
    (b, bits) ∈ codes := by
  induction codes with
  | nil => cases h
  | cons c codes ih =>
    obtain ⟨x, y⟩ := c
    rw [List.lookup_cons] at h
    split at h
    · rename_i e
      have : b = x := by simpa using e
      cases h; subst this; simp
    · exact List.mem_cons_of_mem _ (ih h)

theorem lookup_isSome_of_mem {codes : List (Byte × List Bool)} {b : Byte} {bits : List Bool} (h : (b, bits) ∈ codes) :
    (codes.lookup b).isSome = true := by
  induction codes with
  | nil => cases h
  | cons c codes ih =>
    obtain ⟨x, y⟩ := c
    rw [List.lookup_cons]
    split
    · rfl
    · rename_i e
      rcases List.mem_cons.1 h with h | h
      · cases h; simp at e
      · exact ih h

/-- The codes of a tree whose root is Internal are the paths to its leaves (R135); of one that is a single leaf, the
one-bit code `0` (R136); without a tree there are none (R134). -/
theorem treeCodes_sound {arena : List Node} {r : Nat} {b : Byte} {bits : List Bool}
    (h : (b, bits) ∈ treeCodes arena (some r)) :
    (∃ f, arena[r]? = some (.leaf b f) ∧ bits = [false]) ∨
      ((∃ f l q, arena[r]? = some (.internal f l q)) ∧
        ∃ j f, TreePath arena r bits j ∧ arena[j]? = some (.leaf b f)) := by
  rw [treeCodes] at h
  split at h
  · rename_i sym f hr
    simp at h
    obtain ⟨rfl, rfl⟩ := h
    exact .inl ⟨f, hr, rfl⟩
  · rename_i hr
    obtain ⟨p, j, f, e, hp, hj⟩ := walkCodes_sound h
    simp at e
    subst e
    refine .inr ⟨?_, j, f, hp, hj⟩
    cases hp with
    | here => exact absurd hj (hr b f)
    | left hi _ => exact ⟨_, _, _, hi⟩
    | right hi _ => exact ⟨_, _, _, hi⟩

theorem treeCodes_complete {arena : List Node} (hd : arenaDescending arena) {r j : Nat} {b : Byte} {p : List Bool} {f : Nat}
    (hp : TreePath arena r p j) (hj : arena[j]? = some (.leaf b f)) :
    ∃ bits, (b, bits) ∈ treeCodes arena (some r) := by
  rw [treeCodes]
  split
  · rename_i sym g hr
    cases hp with
    | here => rw [hr] at hj; cases hj; exact ⟨[false], by simp⟩
    | left hi _ => rw [hr] at hi; cases hi
    | right hi _ => rw [hr] at hi; cases hi
  · exact ⟨[] ++ p, walkCodes_complete hd (Nat.lt_succ_self _) hp hj⟩

/-! ### What `HUF.BUILD` leaves (R40, R131, R137) -/

/-- The root of a text that is not empty: the last node of the arena. -/
theorem buildTree_root (tie : HufTie) (choices : Nat → Nat) (freq : Vector Nat 256) (h : seedLeaves freq ≠ []) :
    (buildTree tie choices freq).2 = [2 * (seedLeaves freq).length - 2] ∧
      (buildTree tie choices freq).1.length = 2 * (seedLeaves freq).length - 1 := by
  obtain ⟨hf, hle⟩ := buildTree_inv tie choices freq
  have hk : 0 < (seedLeaves freq).length := List.length_pos_iff.2 h
  have hreach := buildTree_reaches tie choices freq 0 hk
  obtain ⟨r, hr, -⟩ := hreach
  match hq : (buildTree tie choices freq).2 with
  | [] => rw [hq] at hr; cases hr
  | [q] =>
    have htot := hf.total
    rw [hq] at htot
    simp at htot
    refine ⟨?_, by omega⟩
    -- the last node is nobody's child, so it is the one still queued
    have hlast : (buildTree tie choices freq).1.length - 1 < (buildTree tie choices freq).1.length := by omega
    have hc := hf.counts _ hlast
    have h0 : ((buildTree tie choices freq).1.flatMap nodeChildren).count
        ((buildTree tie choices freq).1.length - 1) = 0 := by
      refine List.count_eq_zero.2 fun hm => ?_
      obtain ⟨n, hn, hcn⟩ := List.mem_flatMap.1 hm
      obtain ⟨i, hi⟩ := List.getElem?_of_mem hn
      have h1 := hf.descending i n hi _ hcn
      have h2 := (List.getElem?_eq_some_iff.1 hi).1
      omega
    rw [h0, hq] at hc
    have : (buildTree tie choices freq).1.length - 1 = q := by
      by_contra hne
      simp [hne] at hc
    rw [← this]
    congr 1
    omega
  | x :: y :: rest => rw [hq] at hle; simp at hle

theorem buildTree_empty (tie : HufTie) (choices : Nat → Nat) (freq : Vector Nat 256) (h : seedLeaves freq = []) :
    buildTree tie choices freq = ([], []) := by
  simp [buildTree, h, mergeNodes]

/-- The root register holds the root's id, which is never `NONE` (R31, R131). -/
theorem rootId_rootOf {r : Nat} (h : r ≤ 510) (l : List Nat) : rootId (rootOf (r :: l)) = some r := by
  have hne : BitVec.ofNat 9 r ≠ rootNone := fun e => by
    have := congrArg BitVec.toNat e
    simp [rootNone] at this
    omega
  simp [rootOf, rootId, hne]
  omega

@[simp] theorem rootId_rootOf_nil : rootId (rootOf []) = none := rfl

theorem rootId_buildTree (tie : HufTie) (choices : Nat → Nat) (freq : Vector Nat 256) :
    rootId (rootOf (buildTree tie choices freq).2) = (buildTree tie choices freq).2.head? := by
  by_cases h : seedLeaves freq = []
  · simp [buildTree_empty tie choices freq h]
  · rw [(buildTree_root tie choices freq h).1]
    have := seedLeaves_length_le freq
    rw [rootId_rootOf (by omega)]
    rfl

/-! ### Encoder and decoder (R145, R148) -/

/-- The encoder completes with the codes in order where every byte has one. -/
theorem hufEncode_ok {code : Byte → Option (List Bool)} (i : Nat) (l : List Byte) (out : List Bool)
    (h : ∀ b ∈ l, (code b).isSome = true) :
    hufEncode code i l out = .ok (out ++ l.flatMap fun b => (code b).getD []) := by
  induction l generalizing i out with
  | nil => simp [hufEncode]
  | cons b l ih =>
    obtain ⟨bits, hb⟩ := Option.isSome_iff_exists.1 (h b (by simp))
    rw [hufEncode, hb]
    dsimp only
    rw [ih (i + 1) (out ++ bits) fun c hc => h c (by simp [hc])]
    simp [hb]

theorem hufEncode_error {code : Byte → Option (List Bool)} {i : Nat} {l : List Byte} {out : List Bool} {t : Trap}
    (h : hufEncode code i l out = .error t) : t.kind = .hufNoCode := by
  induction l generalizing i out with
  | nil => cases h
  | cons b l ih =>
    rw [hufEncode] at h
    split at h
    · cases h; rfl
    · exact ih h

theorem hufEncode_ok_iff {code : Byte → Option (List Bool)} {i : Nat} {l : List Byte} {out r : List Bool}
    (h : hufEncode code i l out = .ok r) :
    (∀ b ∈ l, (code b).isSome = true) ∧ r = out ++ l.flatMap fun b => (code b).getD [] := by
  have hall : ∀ b ∈ l, (code b).isSome = true := by
    induction l generalizing i out with
    | nil => simp
    | cons b l ih =>
      rw [hufEncode] at h
      split at h
      · cases h
      · rename_i bits hb
        intro c hc
        rcases List.mem_cons.1 hc with rfl | hc
        · simp [hb]
        · exact ih h c hc
  refine ⟨hall, ?_⟩
  rw [hufEncode_ok i l out hall] at h
  exact (Except.ok.inj h).symm

/-- Down one path from a node to a leaf: the decoder emits the leaf's symbol and is back at the root. -/
theorem hufDecodeTree_path {arena : List Node} {node : Nat → Node} (hnode : ∀ i n, arena[i]? = some n → node i = n)
    {cap m root rl rr : Nat} {cur j : Nat} {p : List Bool} {b : Byte} {g : Nat} (hp : TreePath arena cur p j)
    (hj : arena[j]? = some (.leaf b g)) {f l r : Nat} (hcur : arena[cur]? = some (.internal f l r)) (k : Nat)
    (rest : List Bool) (out : List Byte) (hcap : out.length < cap) :
    hufDecodeTree node cap m root rl rr k (p ++ rest) cur l r out =
      hufDecodeTree node cap m root rl rr (k + p.length) rest root rl rr (out ++ [b]) := by
  induction hp generalizing f l r k with
  | here i => rw [hcur] at hj; cases hj
  | left hi hp ih =>
    rw [hcur] at hi
    cases hi
    cases hp with
    | here =>
      rw [List.cons_append, List.nil_append, hufDecodeTree]
      simp [hnode _ _ hj, show ¬ out.length = cap by omega]
    | left hi' hp' =>
      rw [List.cons_append, hufDecodeTree]
      simp only [hnode _ _ hi', Bool.false_eq_true, if_false]
      rw [ih hj hi']
      simp [Nat.add_assoc, Nat.add_comm 1]
    | right hi' hp' =>
      rw [List.cons_append, hufDecodeTree]
      simp only [hnode _ _ hi', Bool.false_eq_true, if_false]
      rw [ih hj hi']
      simp [Nat.add_assoc, Nat.add_comm 1]
  | right hi hp ih =>
    rw [hcur] at hi
    cases hi
    cases hp with
    | here =>
      rw [List.cons_append, List.nil_append, hufDecodeTree]
      simp [hnode _ _ hj, show ¬ out.length = cap by omega]
    | left hi' hp' =>
      rw [List.cons_append, hufDecodeTree]
      simp only [hnode _ _ hi', if_true]
      rw [ih hj hi']
      simp [Nat.add_assoc, Nat.add_comm 1]
    | right hi' hp' =>
      rw [List.cons_append, hufDecodeTree]
      simp only [hnode _ _ hi', if_true]
      rw [ih hj hi']
      simp [Nat.add_assoc, Nat.add_comm 1]

/-- A sequence of whole paths decodes to the symbols at their ends. -/
theorem hufDecodeTree_paths {arena : List Node} {node : Nat → Node} (hnode : ∀ i n, arena[i]? = some n → node i = n)
    {cap m root rl rr f : Nat} (hroot : arena[root]? = some (.internal f rl rr)) (code : Byte → List Bool)
    (text : List Byte) (hcode : ∀ b ∈ text, ∃ j g, TreePath arena root (code b) j ∧ arena[j]? = some (.leaf b g))
    (k : Nat) (rest : List Bool) (out : List Byte) (hcap : out.length + text.length ≤ cap) :
    hufDecodeTree node cap m root rl rr k (text.flatMap code ++ rest) root rl rr out =
      hufDecodeTree node cap m root rl rr (k + (text.flatMap code).length) rest root rl rr (out ++ text) := by
  induction text generalizing k out with
  | nil => simp
  | cons b text ih =>
    obtain ⟨j, g, hp, hj⟩ := hcode b (by simp)
    simp at hcap
    rw [List.flatMap_cons, List.append_assoc,
      hufDecodeTree_path hnode hp hj hroot k _ out (by omega),
      ih (fun c hc => hcode c (by simp [hc])) _ (out ++ [b]) (by simp; omega)]
    simp [Nat.add_assoc]

/-- Under a single-leaf tree, `n` zero bits are `n` symbols. -/
theorem hufDecodeLeaf_zeros {cap : Nat} {sym : Byte} (n k : Nat) (rest : List Bool) (out : List Byte)
    (hcap : out.length + n ≤ cap) :
    hufDecodeLeaf cap sym k (List.replicate n false ++ rest) out =
      hufDecodeLeaf cap sym (k + n) rest (out ++ List.replicate n sym) := by
  induction n generalizing k out with
  | zero => simp
  | succ n ih =>
    rw [List.replicate_succ, List.cons_append, hufDecodeLeaf]
    have h1 : ¬ out.length = cap := by omega
    simp only [Bool.false_eq_true, if_false, h1]
    rw [ih (k + 1) (out ++ [sym]) (by simp; omega)]
    simp [List.replicate_succ, Nat.add_assoc, Nat.add_comm 1]

theorem hufDecodeLeaf_ok_length {cap : Nat} {sym : Byte} {k : Nat} {bits : List Bool} {out r : List Byte}
    (hout : out.length ≤ cap) (h : hufDecodeLeaf cap sym k bits out = .ok r) : r.length ≤ cap := by
  induction bits generalizing k out with
  | nil => cases h; exact hout
  | cons b bits ih =>
    rw [hufDecodeLeaf] at h
    split at h
    · cases h
    · split at h
      · cases h
      · exact ih (by simp; omega) h

theorem hufDecodeTree_ok_length {node : Nat → Node} {cap m root rl rr k cur l r : Nat} {bits : List Bool}
    {out res : List Byte} (hout : out.length ≤ cap)
    (h : hufDecodeTree node cap m root rl rr k bits cur l r out = .ok res) : res.length ≤ cap := by
  induction bits generalizing k cur l r out with
  | nil =>
    rw [hufDecodeTree] at h
    split at h
    · cases h
    · cases h; exact hout
  | cons b bits ih =>
    rw [hufDecodeTree] at h
    split at h
    · split at h
      · cases h
      · exact ih (by simp; omega) h
    · exact ih hout h

theorem hufDecode_ok_length {node : Nat → Node} {cap : Nat} {root : BitVec 9} {bits : List Bool} {r : List Byte}
    (h : hufDecode node cap root bits = .ok r) : r.length ≤ cap := by
  unfold hufDecode at h
  split at h
  · cases h; exact Nat.zero_le _
  · split at h
    · cases h
    · split at h
      · exact hufDecodeLeaf_ok_length (Nat.zero_le _) h
      · exact hufDecodeTree_ok_length (Nat.zero_le _) h

/-! ### The whole unit on one text (R137, R150) -/

/-- The code of a byte in the table of a built tree. -/
def builtCode (tie : HufTie) (choices : Nat → Nat) (freq : Vector Nat 256) (b : Byte) : Option (List Bool) :=
  (codeTable (treeCodes (buildTree tie choices freq).1 (buildTree tie choices freq).2.head?)).get b.toFin

/-- A valid code is the path to a leaf of its byte, or the one-bit code of a single leaf. -/
theorem builtCode_sound {tie : HufTie} {choices : Nat → Nat} {freq : Vector Nat 256} {b : Byte} {bits : List Bool}
    (h : builtCode tie choices freq b = some bits) :
    ∃ r, (buildTree tie choices freq).2 = [r] ∧ r ≤ 510 ∧
      ((∃ f, (buildTree tie choices freq).1[r]? = some (.leaf b f) ∧ bits = [false]) ∨
        ((∃ f l q, (buildTree tie choices freq).1[r]? = some (.internal f l q)) ∧
          ∃ j f, TreePath (buildTree tie choices freq).1 r bits j ∧
            (buildTree tie choices freq).1[j]? = some (.leaf b f))) := by
  rw [builtCode, codeTable_get] at h
  have hm := mem_of_lookup h
  by_cases hs : seedLeaves freq = []
  · rw [buildTree_empty tie choices freq hs] at hm
    simp [treeCodes] at hm
  · have hr := (buildTree_root tie choices freq hs).1
    have := seedLeaves_length_le freq
    refine ⟨_, hr, by omega, ?_⟩
    rw [hr, List.head?_cons] at hm
    exact treeCodes_sound hm

/-- "`CODE[b].valid = 1` exactly for the bytes `b` with `FREQ[b] > 0`" (R40). -/
theorem builtCode_isSome (tie : HufTie) (choices : Nat → Nat) (freq : Vector Nat 256) (b : Byte) :
    (builtCode tie choices freq b).isSome = true ↔ 0 < freq.get b.toFin := by
  have hf := (buildTree_inv tie choices freq).1
  constructor
  · intro h
    obtain ⟨bits, hb⟩ := Option.isSome_iff_exists.1 h
    have leaf {j f : Nat} (hj : (buildTree tie choices freq).1[j]? = some (.leaf b f)) : 0 < freq.get b.toFin := by
      have hlt : j < (seedLeaves freq).length := by
        by_contra hge
        obtain ⟨_, _, _, e⟩ := hf.inner j _ hj (by omega)
        cases e
      obtain ⟨more, hmore⟩ := hf.leaves
      rw [← hmore, List.getElem?_append_left hlt] at hj
      obtain ⟨c, hc, e⟩ := mem_seedLeaves.1 (List.mem_of_getElem? hj)
      cases e
      exact hc
    obtain ⟨r, -, -, ⟨f, hr, -⟩ | ⟨-, j, f, -, hj⟩⟩ := builtCode_sound hb
    · exact leaf hr
    · exact leaf hj
  · intro h
    have hm : Node.leaf b (freq.get b.toFin) ∈ seedLeaves freq := mem_seedLeaves.2 ⟨b, h, rfl⟩
    obtain ⟨i, hi⟩ := List.getElem?_of_mem hm
    have hlt := (List.getElem?_eq_some_iff.1 hi).1
    obtain ⟨r, hr, bits, hp⟩ := buildTree_reaches tie choices freq i hlt
    obtain ⟨more, hmore⟩ := hf.leaves
    have hj : (buildTree tie choices freq).1[i]? = some (.leaf b (freq.get b.toFin)) := by
      rw [← hmore, List.getElem?_append_left hlt]; exact hi
    have hroot := (buildTree_root tie choices freq (List.ne_nil_of_mem hm)).1
    rw [builtCode, codeTable_get, hroot, List.head?_cons]
    rw [hroot, List.mem_singleton] at hr
    subst hr
    obtain ⟨c, hc⟩ := treeCodes_complete hf.descending hp hj
    exact lookup_isSome_of_mem hc

/-- Every valid code has 1 to 255 bits (R137). -/
theorem builtCode_length {tie : HufTie} {choices : Nat → Nat} {freq : Vector Nat 256} {b : Byte} {bits : List Bool}
    (h : builtCode tie choices freq b = some bits) : 1 ≤ bits.length ∧ bits.length ≤ 255 := by
  have hf := (buildTree_inv tie choices freq).1
  obtain ⟨r, hr, -, ⟨f, -, rfl⟩ | ⟨⟨f, l, q, hi⟩, j, g, hp, hj⟩⟩ := builtCode_sound h
  · simp
  · have hk : ∀ i f l r, (buildTree tie choices freq).1[i]? = some (.internal f l r) → (seedLeaves freq).length ≤ i := by
      intro i f l r hn
      by_contra hlt
      obtain ⟨more, hmore⟩ := hf.leaves
      rw [← hmore, List.getElem?_append_left (by omega)] at hn
      obtain ⟨_, _, e⟩ := hf.seedLeaf _ (List.mem_of_getElem? hn)
      cases e
    have hlen := hp.length_le hf.descending hk
    have hs : seedLeaves freq ≠ [] := fun e => by rw [buildTree_empty tie choices freq e] at hr; cases hr
    have hr' := (buildTree_root tie choices freq hs).1
    rw [hr] at hr'
    have := seedLeaves_length_le freq
    have hr' := (List.cons.inj hr').1
    have hne : bits ≠ [] := fun e => by
      subst e
      cases hp
      rw [hi] at hj; cases hj
    have := List.length_pos_iff.2 hne
    rcases hlen with e | hlen
    · exact absurd e hne
    · omega

/-- "no valid code is a prefix of another valid code" (R137). -/
theorem builtCode_prefix_free {tie : HufTie} {choices : Nat → Nat} {freq : Vector Nat 256} {b c : Byte}
    {bits more : List Bool} (hb : builtCode tie choices freq b = some bits)
    (hc : builtCode tie choices freq c = some (bits ++ more)) : b = c := by
  obtain ⟨r, hr, -, ⟨f, h1, -⟩ | ⟨⟨f, l, q, hi⟩, j, g, hp, hj⟩⟩ := builtCode_sound hb <;>
    obtain ⟨r', hr', -, ⟨f', h1', -⟩ | ⟨⟨f', l', q', hi'⟩, j', g', hp', hj'⟩⟩ := builtCode_sound hc <;>
    rw [hr] at hr' <;> cases hr'
  · rw [h1] at h1'; cases h1'; rfl
  · rw [h1] at hi'; cases hi'
  · rw [h1'] at hi; cases hi
  · obtain ⟨-, rfl⟩ := hp.unique hj hp'
    rw [hj] at hj'; cases hj'; rfl

/-- The round trip of the pure codec (R150), whatever the ties do and whatever the undefined nodes are. -/
theorem hufDecode_hufEncode {cap : Nat} (tie : HufTie) (choices : Nat → Nat) (text : List Byte) (hcap : text.length ≤ cap)
    {node : Nat → Node}
    (hnode : ∀ i n, (buildTree tie choices (frequencies text)).1[i]? = some n → node i = n) :
    ∃ bits, hufEncode (builtCode tie choices (frequencies text)) 0 text [] = .ok bits ∧
      bits.length ≤ 255 * text.length ∧
      hufDecode node cap (rootOf (buildTree tie choices (frequencies text)).2) bits = .ok text := by
  have hsome : ∀ b ∈ text, (builtCode tie choices (frequencies text) b).isSome = true := fun b hb => by
    rw [builtCode_isSome, frequencies_get]
    exact List.count_pos_iff.2 hb
  have hval : ∀ b ∈ text, builtCode tie choices (frequencies text) b =
      some ((builtCode tie choices (frequencies text) b).getD []) := fun b hb => by
    obtain ⟨bits, h⟩ := Option.isSome_iff_exists.1 (hsome b hb)
    simp [h]
  refine ⟨text.flatMap fun b => (builtCode tie choices (frequencies text) b).getD [], ?_, ?_, ?_⟩
  · simpa using hufEncode_ok 0 text [] hsome
  · have : ∀ l : List Byte, (∀ b ∈ l, b ∈ text) →
        (l.flatMap fun b => (builtCode tie choices (frequencies text) b).getD []).length ≤ 255 * l.length := by
      intro l hl
      induction l with
      | nil => simp
      | cons b l ih =>
        have h1 := (builtCode_length (hval b (hl b (by simp)))).2
        have h2 := ih fun c hc => hl c (by simp [hc])
        rw [List.flatMap_cons, List.length_append, List.length_cons]
        omega
    exact this text fun _ h => h
  · cases text with
    | nil => rfl
    | cons b0 rest =>
      obtain ⟨r, hr, hle, hcase⟩ := builtCode_sound (hval b0 (by simp))
      have hne : (b0 :: rest).flatMap (fun b => (builtCode tie choices (frequencies (b0 :: rest)) b).getD []) ≠ [] := by
        have := (builtCode_length (hval b0 (by simp))).1
        intro e
        rw [List.flatMap_cons] at e
        simp [(List.append_eq_nil_iff.1 e).1] at this
      have hroot : BitVec.ofNat 9 r ≠ rootNone := fun e => by
        have := congrArg BitVec.toNat e
        simp [rootNone] at this
        omega
      have hnat : (BitVec.ofNat 9 r).toNat = r := by simp; omega
      obtain ⟨c, cs, hbits⟩ := List.exists_cons_of_ne_nil hne
      rw [hbits]
      simp only [hufDecode, hr, rootOf, hroot, if_false, hnat]
      rw [← hbits]
      rcases hcase with ⟨f, hleaf, -⟩ | ⟨⟨f, l, q, hint⟩, -⟩
      · -- one leaf: every byte of the text is its symbol, and every code is `0`
        have hall : ∀ b ∈ b0 :: rest, b = b0 ∧ (builtCode tie choices (frequencies (b0 :: rest)) b).getD [] = [false] := by
          intro b hb
          obtain ⟨r', hr', -, ⟨f', h1', e⟩ | ⟨⟨f', l', q', hi'⟩, -⟩⟩ := builtCode_sound (hval b hb)
          · rw [hr] at hr'
            cases hr'
            rw [hleaf] at h1'
            cases h1'
            exact ⟨rfl, e⟩
          · rw [hr] at hr'
            cases hr'
            rw [hleaf] at hi'; cases hi'
        have hflat : (b0 :: rest).flatMap (fun b => (builtCode tie choices (frequencies (b0 :: rest)) b).getD []) =
            List.replicate (b0 :: rest).length false := by
          have : ∀ l : List Byte, (∀ b ∈ l, b ∈ b0 :: rest) →
              l.flatMap (fun b => (builtCode tie choices (frequencies (b0 :: rest)) b).getD []) =
                List.replicate l.length false := by
            intro l hl
            induction l with
            | nil => rfl
            | cons x l ih =>
              rw [List.flatMap_cons, (hall x (hl x (by simp))).2, ih fun c hc => hl c (by simp [hc])]
              simp [List.replicate_succ]
          exact this _ fun _ h => h
        have htext : List.replicate (b0 :: rest).length b0 = b0 :: rest :=
          (List.eq_replicate_iff.2 ⟨rfl, fun b hb => (hall b hb).1⟩).symm
        rw [hnode _ _ hleaf, hflat]
        have := hufDecodeLeaf_zeros (cap := cap) (sym := b0) (b0 :: rest).length 0 [] [] (by simpa using hcap)
        simp only [List.append_nil, List.nil_append, htext] at this
        simp only [this, hufDecodeLeaf]
      · have hcode : ∀ b ∈ b0 :: rest, ∃ j g, TreePath (buildTree tie choices (frequencies (b0 :: rest))).1 r
            ((builtCode tie choices (frequencies (b0 :: rest)) b).getD []) j ∧
            (buildTree tie choices (frequencies (b0 :: rest))).1[j]? = some (.leaf b g) := by
          intro b hb
          obtain ⟨r', hr', -, ⟨f', h1', -⟩ | ⟨-, j, g, hp, hj⟩⟩ := builtCode_sound (hval b hb)
          · rw [hr] at hr'
            cases hr'
            rw [hint] at h1'; cases h1'
          · rw [hr] at hr'
            cases hr'
            exact ⟨j, g, hp, hj⟩
        rw [hnode _ _ hint]
        dsimp only
        have := hufDecodeTree_paths hnode (cap := cap)
          (m := ((b0 :: rest).flatMap fun b => (builtCode tie choices (frequencies (b0 :: rest)) b).getD []).length)
          hint _ (b0 :: rest) hcode 0 [] [] (by simpa using hcap)
        simp only [List.append_nil, List.nil_append] at this
        rw [this, hufDecodeTree]
        simp

end Sys2Proof.Machine
end

