-- ==== Sys2Proof/Laws/HuffmanBuild.lean ====
section
/-! SUPPORT. What the merge loop leaves, node by node (spec/40_huffman.md R128 to R137): each Internal node was made of two
first-ranked nodes then waiting, and the leaves stand for the bytes that occur. -/

namespace Sys2Proof.Machine

/-- The queue is the nodes that are nobody's child yet. -/
theorem waiting_iff {seeds arena : List Node} {pq : List Nat} (h : ForestInv seeds arena pq) (z : Nat) :
    z ∈ waitingAt arena arena.length ↔ z ∈ pq := by
  simp only [waitingAt, List.take_length, List.mem_filter, List.mem_range]
  constructor
  · rintro ⟨hlt, hn⟩
    have := h.counts z hlt
    by_contra hz
    rw [if_neg hz] at this
    have : z ∈ arena.flatMap nodeChildren := List.count_pos_iff.1 (by omega)
    simp at hn
    simp at this
    obtain ⟨a, ha, hza⟩ := this
    exact hn a ha hza
  · intro hz
    refine ⟨h.ids z hz, ?_⟩
    have := h.counts z (h.ids z hz)
    rw [if_pos hz] at this
    have := List.count_eq_zero.1 this
    simpa [List.contains_iff_mem] using this

/-- What R130 and R129 say of every Internal node of an arena. -/
def Merged (tie : HufTie) (arena : List Node) : Prop :=
  ∀ c f l r, arena[c]? = some (.internal f l r) →
    f = arenaFreq arena l + arenaFreq arena r ∧ l < c ∧ r < c ∧
      l ∈ waitingAt arena c ∧ r ∈ waitingAt arena c ∧ l ≠ r ∧
      (∀ z, z ∈ waitingAt arena c → outranks tie arena z l = false) ∧
      (∀ z, z ∈ waitingAt arena c → z ≠ l → outranks tie arena z r = false)

theorem waitingAt_append {arena more : List Node} {c : Nat} (h : c ≤ arena.length) : waitingAt (arena ++ more) c = waitingAt arena c := by
  simp [waitingAt, List.take_append_of_le_length h]

theorem mem_waitingAt_lt {arena : List Node} {c z : Nat} (h : z ∈ waitingAt arena c) : z < c := by
  simp [waitingAt] at h; exact h.1

theorem outranks_append {tie : HufTie} {arena more : List Node} {a b : Nat} (ha : a < arena.length) (hb : b < arena.length) :
    outranks tie (arena ++ more) a b = outranks tie arena a b := by
  cases tie <;> simp [outranks, arenaFreq_append, ha, hb]

theorem merged_merge {tie : HufTie} {seeds arena : List Node} {pq : List Nat} {a b : Nat} (hf : ForestInv seeds arena pq) (h : Merged tie arena)
    (p : MergePick tie arena pq a b) : Merged tie (mergedArena arena a b) := by
  obtain ⟨ha, hb, hab⟩ := p.mem hf.nodup
  intro c f l r hc
  by_cases hlt : c < arena.length
  · rw [mergedArena, List.getElem?_append_left hlt] at hc
    obtain ⟨h1, h2, h3, h4, h5, h6, h7, h8⟩ := h c f l r hc
    rw [mergedArena, waitingAt_append hlt.le, arenaFreq_append (by omega), arenaFreq_append (by omega)]
    refine ⟨h1, h2, h3, h4, h5, h6, fun z hz => ?_, fun z hz hne => ?_⟩
    · have := mem_waitingAt_lt hz
      rw [outranks_append (by omega) (by omega)]; exact h7 z hz
    · have := mem_waitingAt_lt hz
      rw [outranks_append (by omega) (by omega)]; exact h8 z hz hne
  · have hcl : c = arena.length := by
      have := (List.getElem?_eq_some_iff.1 hc).1
      simp [mergedArena] at this; omega
    subst hcl
    simp [mergedArena] at hc
    obtain ⟨rfl, rfl, rfl⟩ := hc
    have hal := hf.ids _ ha
    have hbl := hf.ids _ hb
    rw [mergedArena, waitingAt_append (le_refl _), arenaFreq_append hal, arenaFreq_append hbl]
    refine ⟨rfl, hal, hbl, (waiting_iff hf _).2 ha, (waiting_iff hf _).2 hb, hab, fun z hz => ?_, fun z hz hne => ?_⟩
    · have hz := (waiting_iff hf _).1 hz
      rw [outranks_append (hf.ids z hz) hal]
      exact p.first z hz
    · have hz := (waiting_iff hf _).1 hz
      rw [outranks_append (hf.ids z hz) hbl]
      exact p.second z (hf.nodup.mem_erase_iff.2 ⟨hne, hz⟩)

/-- Every Internal node was made as R130 says. -/
theorem buildTree_merged (tie : HufTie) (choices : Nat → Nat) (freq : Vector Nat 256) : Merged tie (buildTree tie choices freq).1 := by
  refine (mergeNodes_induct (tie := tie) (choices := choices) (fun arena pq => ForestInv (seedLeaves freq) arena pq ∧ Merged tie arena)
    (fun _ _ _ _ h p => ⟨h.1.merge p, merged_merge h.1 h.2 p⟩) _ _ _ ⟨seeds_inv freq, ?_⟩ (by simp)).1.2
  intro c f l r hc
  obtain ⟨b, -, e⟩ := mem_seedLeaves.1 (List.mem_of_getElem? hc)
  cases e

/-- The seeding of R128. -/
theorem seedLeaves_eq (text : List Byte) : seedLeaves (frequencies text) =
   (allBytes.filter fun b => b ∈ text).map (fun b => Node.leaf b (text.count b)) := by
  rw [seedLeaves]
  induction allBytes with
  | nil => rfl
  | cons b l ih =>
    simp only [List.filterMap_cons, List.filter_cons, frequencies_get]
    simp only [frequencies_get] at ih
    by_cases h : b ∈ text
    · have := List.count_pos_iff.2 h
      rw [if_pos this, if_pos (by simpa using h), ih]; rfl
    · have := List.count_eq_zero.2 h
      rw [if_neg (by omega), if_neg (by simpa using h), ih]

/-- The frequencies add up to the length of the text. -/
theorem sum_freq (text : List Byte) : ((seedLeaves (frequencies text)).map nodeFreq).sum = text.length := by
  rw [seedLeaves_eq, List.map_map]
  have : (nodeFreq ∘ fun b => Node.leaf b (List.count b text)) = fun b => List.count b text := by funext b; rfl
  rw [this]
  have h := List.sum_map_count_dedup_eq_length text
  rw [← h]
  refine List.Perm.sum_eq (List.Perm.map _ ?_)
  refine (List.perm_ext_iff_of_nodup (allBytes_nodup.filter _) (List.nodup_dedup _)).2 fun b => ?_
  simp [mem_allBytes]

/-- A `HUF.BUILD` that passes its checks. -/
theorem exec_hufBuild_passes {s : State} (hp : inPhase .hufBuild s) (hl : s.huf.textLen.toNat ≤ s.params.cap) :
  exec .hufBuild s = .next (
        { s.ended with
          huf := { s.huf with phase := .codesGenerated }
          hufFreq := frequencies (s.textOf .huf)
          hufNode := s.builtTree.1
          hufNnodes := BitVec.ofNat 10 s.builtTree.1.length
          hufRoot := rootOf s.builtTree.2
          hufCode := codeTable (treeCodes s.builtTree.1 (rootId (rootOf s.builtTree.2))) }) := by
  simp [inPhase, requiredPhases] at hp
  rw [exec_hufBuild, if_neg (by simp [hp]), if_neg (by omega)]

theorem codeTable_built (s : State) (b : Byte) :
   (codeTable (treeCodes s.builtTree.1 (rootId (rootOf s.builtTree.2)))).get b.toFin =
     builtCode s.params.hufTie (Config.tieChoice s.draw) (frequencies (s.textOf .huf)) b := by
  rw [State.builtTree, rootId_buildTree, builtCode]

/-- What holds of the codes of a built tree (R135 to R137). -/
theorem codes_built {s t : State} (h : t.hufNode = s.builtTree.1) (hr : t.hufRoot = rootOf s.builtTree.2)
   (hc : t.hufCode = codeTable (treeCodes s.builtTree.1 (rootId (rootOf s.builtTree.2)))) : t.codesArePaths ∧ t.codesOk := by
  have hcode : ∀ b, t.codeOf b = builtCode s.params.hufTie (Config.tieChoice s.draw) (frequencies (s.textOf .huf)) b := by
    intro b; rw [State.codeOf, hc, codeTable_built]
  refine ⟨fun b bits hb => ?_, fun b bits hb => ?_, fun b c bits hb more hc => ?_⟩
  · rw [hcode] at hb
    obtain ⟨r, h2, hle, hcase⟩ := builtCode_sound hb
    have : t.hufRoot.toNat = r := by
      rw [hr, State.builtTree, h2]; simp [rootOf]; omega
    rw [this, h]
    exact hcase
  · rw [hcode] at hb
    exact builtCode_length hb
  · rw [hcode] at hb hc
    exact builtCode_prefix_free hb hc

/-! ### Choices (R132) -/

theorem outranks_ordered_total (arena : List Node) : ∀ a b, a ≠ b → outranks .ordered arena a b = true ∨ outranks .ordered arena b a = true := by
  intro a b h
  simp [outranks]
  omega

/-- A pop under ORDERED is a pop under ANY. -/
theorem popNode_any_of_ordered {arena : List Node} {pq : List Nat} {c x : Nat} {q : List Nat}
    (h : popNode .ordered c arena pq = some (x, q)) : ∃ d, popNode .any d arena pq = some (x, q) := by
  obtain ⟨h1, h2, h3⟩ := pqPop_some h
  have hx : x ∈ pqCandidates (outranks .any arena) pq := by
    refine mem_pqCandidates.2 ⟨h1, fun z hz => ?_⟩
    have := h2 z hz
    simp [outranks] at this ⊢
    omega
  obtain ⟨d, hd⟩ := List.getElem?_of_mem hx
  have hlt := (List.getElem?_eq_some_iff.1 hd).1
  refine ⟨d, ?_⟩
  rw [popNode, pqPop]
  have : pickCandidate d (pqCandidates (outranks .any arena) pq) = some x := by
    generalize pqCandidates (outranks .any arena) pq = l at *
    match l with
    | [] => simp at hlt
    | [y] => simp at hlt; subst hlt; simpa [pickCandidate] using hd
    | y :: z :: rest => rw [pickCandidate, Nat.mod_eq_of_lt hlt]; exact hd
  rw [this, h3]; rfl

/-- Only the choices from the next node on matter. -/
theorem mergeNodes_congr (tie : HufTie) (c d : Nat → Nat) (fuel : Nat) (arena : List Node) (pq : List Nat)
   (h : ∀ k, 2 * arena.length ≤ k → c k = d k) : mergeNodes tie c fuel arena pq = mergeNodes tie d fuel arena pq := by
  induction fuel generalizing arena pq with
  | zero => rfl
  | succ fuel ih =>
    rw [mergeNodes, mergeNodes, h _ (le_refl _), h (2 * arena.length + 1) (by omega)]
    split
    · rfl
    · split
      · rfl
      · split
        · rfl
        · exact ih _ _ fun k hk => h k (by simp at hk; omega)

end Sys2Proof.Machine
end

