-- ==== Sys2Proof/Laws/HuffmanDecode.lean ====
section
/-! SUPPORT. What the decoder does on paths of the stored tree (spec/40_huffman.md R148, R149). -/

namespace Sys2Proof.Machine

theorem nodeAt_eq {s : State} (i : Nat) (n : Node) (h : s.hufNode[i]? = some n) : s.nodeAt i = n := by
  simp [State.nodeAt, h]

/-- Paths to leaves, one after the other, give the leaves' bytes. -/
theorem hufDecodeTree_pieces {s : State} {root rl rr f : Nat} (hroot : s.hufNode[root]? = some (.internal f rl rr)) {cap m : Nat}
   (pieces : List (List Bool × Byte)) (h : ∀ x ∈ pieces, ∃ j f, TreePath s.hufNode root x.1 j ∧ s.hufNode[j]? = some (.leaf x.2 f))
   (k : Nat) (rest : List Bool) (out : List Byte) (hcap : out.length + pieces.length ≤ cap) :
   hufDecodeTree s.nodeAt cap m root rl rr k (pieces.flatMap Prod.fst ++ rest) root rl rr out =
     hufDecodeTree s.nodeAt cap m root rl rr (k + (pieces.flatMap Prod.fst).length) rest root rl rr (out ++ pieces.map Prod.snd) := by
  induction pieces generalizing k out with
  | nil => simp
  | cons x pieces ih =>
    obtain ⟨j, g, hp, hj⟩ := h x (by simp)
    simp only [List.flatMap_cons, List.append_assoc, List.length_cons] at hcap ⊢
    rw [hufDecodeTree_path nodeAt_eq hp hj hroot _ _ _ (by omega), ih (fun y hy => h y (by simp [hy])) _ _ (by simp; omega)]
    simp [Nat.add_assoc]

/-- A sequence that ends inside the tree is F_HUF_PATH. -/
theorem hufDecodeTree_partial {s : State} (hd : arenaDescending s.hufNode) {root rl rr cap m : Nat} {i j : Nat} {path : List Bool}
   (hp : TreePath s.hufNode i path j) {f l r f' l' r' : Nat} (hi : s.hufNode[i]? = some (.internal f l r))
   (hj : s.hufNode[j]? = some (.internal f' l' r')) (hlt : path = [] → i ≠ root) (hroot : i ≤ root)
   (k : Nat) (out : List Byte) :
   hufDecodeTree s.nodeAt cap m root rl rr k path i l r out = .error ⟨.hufPath, m⟩ := by
  induction hp generalizing f l r k with
  | here i => simp [hufDecodeTree, hlt rfl]
  | left h1 h2 ih =>
    rw [hi] at h1; cases h1
    have := descending_left hd hi
    rw [hufDecodeTree]
    cases h2 with
    | here =>
      simp only [Bool.false_eq_true, if_false, nodeAt_eq _ _ hj]
      exact ih hj hj (fun _ => by omega) (by omega) _
    | left h3 h4 =>
      simp only [Bool.false_eq_true, if_false, nodeAt_eq _ _ h3]
      exact ih h3 hj (fun _ => by omega) (by omega) _
    | right h3 h4 =>
      simp only [Bool.false_eq_true, if_false, nodeAt_eq _ _ h3]
      exact ih h3 hj (fun _ => by omega) (by omega) _
  | right h1 h2 ih =>
    rw [hi] at h1; cases h1
    have := descending_right hd hi
    rw [hufDecodeTree]
    cases h2 with
    | here =>
      simp only [if_true, nodeAt_eq _ _ hj]
      exact ih hj hj (fun _ => by omega) (by omega) _
    | left h3 h4 =>
      simp only [if_true, nodeAt_eq _ _ h3]
      exact ih h3 hj (fun _ => by omega) (by omega) _
    | right h3 h4 =>
      simp only [if_true, nodeAt_eq _ _ h3]
      exact ih h3 hj (fun _ => by omega) (by omega) _

/-- A symbol beyond the capacity is F_OVERFLOW at its last bit. -/
theorem hufDecodeTree_overflow {s : State} {root rl rr cap m : Nat} {i j : Nat} {path : List Bool} {b : Byte} {g : Nat}
   (hp : TreePath s.hufNode i path j) (hj : s.hufNode[j]? = some (.leaf b g)) {f l r : Nat} (hi : s.hufNode[i]? = some (.internal f l r))
   (k : Nat) (rest : List Bool) (out : List Byte) (ho : out.length = cap) :
   hufDecodeTree s.nodeAt cap m root rl rr k (path ++ rest) i l r out = .error ⟨.overflow, k + path.length - 1⟩ := by
  induction hp generalizing f l r k with
  | here i => rw [hi] at hj; cases hj
  | left h1 h2 ih =>
    rw [hi] at h1; cases h1
    rw [List.cons_append, hufDecodeTree]
    cases h2 with
    | here =>
      simp [nodeAt_eq _ _ hj, ho]
    | left h3 h4 =>
      simp only [Bool.false_eq_true, if_false, nodeAt_eq _ _ h3]
      rw [ih hj h3]; simp; omega
    | right h3 h4 =>
      simp only [Bool.false_eq_true, if_false, nodeAt_eq _ _ h3]
      rw [ih hj h3]; simp; omega
  | right h1 h2 ih =>
    rw [hi] at h1; cases h1
    rw [List.cons_append, hufDecodeTree]
    cases h2 with
    | here =>
      simp [nodeAt_eq _ _ hj, ho]
    | left h3 h4 =>
      simp only [if_true, nodeAt_eq _ _ h3]
      rw [ih hj h3]; simp; omega
    | right h3 h4 =>
      simp only [if_true, nodeAt_eq _ _ h3]
      rw [ih hj h3]; simp; omega

theorem hufDecode_internal {s : State} (hr : s.hufRoot ≠ rootNone) {f l r : Nat} (hf : s.hufNode[s.hufRoot.toNat]? = some (.internal f l r)) (bits : List Bool) (cap : Nat) :
   hufDecode s.nodeAt cap s.hufRoot bits = hufDecodeTree s.nodeAt cap bits.length s.hufRoot.toNat l r 0 bits s.hufRoot.toNat l r [] := by
  cases bits with
  | nil => simp [hufDecode, hufDecodeTree]
  | cons b bits => simp [hufDecode, hr, nodeAt_eq _ _ hf]

theorem hufDecode_leaf {s : State} (hr : s.hufRoot ≠ rootNone) {b : Byte} {f : Nat} (hf : s.hufNode[s.hufRoot.toNat]? = some (.leaf b f)) (bits : List Bool) (cap : Nat) :
   hufDecode s.nodeAt cap s.hufRoot bits = hufDecodeLeaf cap b 0 bits [] := by
  cases bits with
  | nil => simp [hufDecode, hufDecodeLeaf]
  | cons b bits => simp [hufDecode, hr, nodeAt_eq _ _ hf]

end Sys2Proof.Machine
end

