-- ==== Sys2Proof/Laws/Lzw.lean ====
section
/-! SUPPORT. What the LZW loops compute (spec/42_lzw.md R180 to R190), as facts about lists. -/

namespace Sys2Proof.Machine

@[simp] theorem lzwSeed_length : lzwSeed.length = 256 := by simp [lzwSeed]

theorem lzwSeed_getElem? (k : Nat) (h : k < 256) : lzwSeed[k]? = some [BitVec.ofNat 8 k] := by
  simp [lzwSeed, h]

theorem mem_lzwSeed_iff (p : List Byte) : p ∈ lzwSeed ↔ ∃ c, p = [c] := by
  constructor
  · intro h
    obtain ⟨b, -, rfl⟩ := List.mem_map.1 h
    exact ⟨_, rfl⟩
  · rintro ⟨c, rfl⟩
    exact List.mem_map.2 ⟨c.toNat, by simp [c.isLt], by simp⟩

theorem lzwSeed_nodup : lzwSeed.Nodup := by
  refine List.Nodup.map_on ?_ List.nodup_range
  intro a ha b hb h
  have ha := List.mem_range.1 ha
  have hb := List.mem_range.1 hb
  have := congrArg BitVec.toNat (List.cons.inj h).1
  simp at this
  omega

/-- The code of a single byte is the byte (R180). -/
theorem lzwCode_seed (c : Byte) (dict : List (List Byte)) : lzwCode (lzwSeed ++ dict) [c] = c.toNat := by
  have hm : [c] ∈ lzwSeed := (mem_lzwSeed_iff _).2 ⟨c, rfl⟩
  have hlt : lzwSeed.idxOf [c] < lzwSeed.length := List.idxOf_lt_length_of_mem hm
  have hget := List.getElem?_eq_getElem hlt
  rw [List.getElem_idxOf hlt, lzwSeed_getElem? _ (by simpa using hlt)] at hget
  have := congrArg BitVec.toNat (List.cons.inj (Option.some.inj hget)).1
  rw [lzwCode, List.idxOf_append_of_mem hm]
  have hlt' : lzwSeed.idxOf [c] < 256 := by simpa using hlt
  simp only [BitVec.toNat_ofNat] at this
  omega

theorem lzwCode_getElem? {dict : List (List Byte)} {p : List Byte} (h : p ∈ dict) : dict[lzwCode dict p]? = some p := by
  have hlt := List.idxOf_lt_length_of_mem h
  rw [lzwCode, List.getElem?_eq_getElem hlt, List.getElem_idxOf hlt]

theorem lzwCode_lt {dict : List (List Byte)} {p : List Byte} (h : p ∈ dict) : lzwCode dict p < dict.length :=
  List.idxOf_lt_length_of_mem h

/-- The code at index `j` is below `dict.length + j` (R185). -/
theorem lzwEncodeLoop_code_lt {dict : List (List Byte)} {p : List Byte} {l : List Byte} (hs : ∀ c, [c] ∈ dict)
    (hp : p ∈ dict) : ∀ (j : Nat) (k : Nat), (lzwEncodeLoop dict p l)[j]? = some k → k < dict.length + j := by
  induction l generalizing dict p with
  | nil =>
    intro j k h
    cases j with
    | zero => simp [lzwEncodeLoop] at h; subst h; exact lzwCode_lt hp
    | succ j => simp [lzwEncodeLoop] at h
  | cons c rest ih =>
    intro j k h
    by_cases hm : p ++ [c] ∈ dict
    · rw [lzwEncodeLoop, if_pos hm] at h
      exact ih hs hm j k h
    · rw [lzwEncodeLoop, if_neg hm] at h
      cases j with
      | zero => simp at h; subst h; exact lzwCode_lt hp
      | succ j =>
        have := ih (dict := dict ++ [p ++ [c]]) (p := [c]) (fun d => by simp [hs d]) (by simp [hs c]) j k (by simpa using h)
        simp at this
        omega

theorem lzwEncode_code_lt (l : List Byte) (j k : Nat) (h : (lzwEncode l)[j]? = some k) : k < 256 + j := by
  cases l with
  | nil => simp [lzwEncode] at h
  | cons c rest =>
    simpa using lzwEncodeLoop_code_lt (fun d => (mem_lzwSeed_iff _).2 ⟨d, rfl⟩) ((mem_lzwSeed_iff _).2 ⟨c, rfl⟩) j k h

theorem lzwEncodeLoop_length_le (dict : List (List Byte)) (p l : List Byte) :
    (lzwEncodeLoop dict p l).length ≤ l.length + 1 := by
  induction l generalizing dict p with
  | nil => simp [lzwEncodeLoop]
  | cons c rest ih =>
    rw [lzwEncodeLoop]
    split
    · exact Nat.le_succ_of_le (ih _ _)
    · simpa using ih _ _

/-- `|out| <= n` (R184). -/
theorem lzwEncode_length_le (l : List Byte) : (lzwEncode l).length ≤ l.length := by
  cases l with
  | nil => simp [lzwEncode]
  | cons c rest => exact lzwEncodeLoop_length_le _ _ _

/-- Every code fits `CODE_W` = 32 bits while the text is short enough (R15). -/
theorem lzwEncode_mem_lt (l : List Byte) (k : Nat) (h : k ∈ lzwEncode l) : k < 256 + l.length := by
  obtain ⟨j, hj⟩ := List.getElem?_of_mem h
  have h1 := lzwEncode_code_lt l j k hj
  have h2 : j < (lzwEncode l).length := (List.getElem?_eq_some_iff.1 hj).1
  have h3 := lzwEncode_length_le l
  omega

/-- In the decoder, whose dictionary is one entry behind the encoder's, the string of the encoder's code for a phrase is
the phrase: it is present, or it is the entry not yet inserted (R185, R186). -/
theorem lzwString_code {dict : List (List Byte)} {prev p : List Byte} (hprev : prev ≠ [])
    (hm : p ∈ dict ++ [prev ++ p.take 1]) :
    lzwString dict prev (lzwCode (dict ++ [prev ++ p.take 1]) p) = p := by
  have hget := lzwCode_getElem? hm
  have hlt := lzwCode_lt hm
  rw [lzwString]
  by_cases hk : lzwCode (dict ++ [prev ++ p.take 1]) p < dict.length
  · rw [List.getElem?_append_left hk] at hget
    rw [hget]
  · have hk' : lzwCode (dict ++ [prev ++ p.take 1]) p = dict.length := by simp at hlt; omega
    rw [hk'] at hget ⊢
    rw [List.getElem?_eq_none (Nat.le_refl _)]
    simp at hget
    obtain ⟨a, as, rfl⟩ := List.exists_cons_of_ne_nil hprev
    have htake : [a] = p.take 1 := by simpa using congrArg (List.take 1) hget
    simpa [htake] using hget

/-- The decoder's loop on the encoder's codes gives the phrase under way and the rest of the text (R190). -/
theorem lzwDecodeLoop_encodeLoop {cap : Nat} (l : List Byte) (dict : List (List Byte)) (prev p out : List Byte) (j : Nat)
    (hs : ∀ c, [c] ∈ dict) (hp : p ≠ []) (hprev : prev ≠ []) (hm : p ∈ dict ++ [prev ++ p.take 1])
    (hcap : out.length + p.length + l.length ≤ cap) :
    lzwDecodeLoop cap dict prev out j (lzwEncodeLoop (dict ++ [prev ++ p.take 1]) p l) = .ok (out ++ p ++ l) := by
  induction l generalizing dict prev p out j with
  | nil =>
    have hle : ¬ out.length + p.length > cap := by simp at hcap; omega
    simp [lzwEncodeLoop, lzwDecodeLoop, lzwString_code hprev hm, hle]
  | cons c rest ih =>
    rw [lzwEncodeLoop]
    have htake : (p ++ [c]).take 1 = p.take 1 := by
      obtain ⟨a, as, rfl⟩ := List.exists_cons_of_ne_nil hp
      simp
    by_cases hmem : p ++ [c] ∈ dict ++ [prev ++ p.take 1]
    · rw [if_pos hmem]
      have := ih dict prev (p ++ [c]) out j hs (by simp) hprev (by rw [htake]; exact hmem)
        (by simp at hcap ⊢; omega)
      rw [htake] at this
      simpa using this
    · rw [if_neg hmem]
      have hle : ¬ out.length + p.length > cap := by simp at hcap; omega
      simp only [lzwDecodeLoop, lzwString_code hprev hm, if_neg hle]
      have := ih (dict ++ [prev ++ p.take 1]) p [c] (out ++ p) (j + 1) (fun d => by simp [hs d]) (by simp) hp
        (by simp [hs c]) (by simp at hcap ⊢; omega)
      simpa using this

/-- The round trip of the pure codec (R190). -/
theorem lzwDecode_lzwEncode {cap : Nat} (l : List Byte) (h : l.length ≤ cap) : lzwDecode cap (lzwEncode l) = .ok l := by
  have hs : ∀ d : Byte, [d] ∈ lzwSeed := fun d => (mem_lzwSeed_iff _).2 ⟨d, rfl⟩
  have hcode (d : Byte) : lzwCode lzwSeed [d] = d.toNat := by simpa using lzwCode_seed d []
  cases l with
  | nil => rfl
  | cons c rest =>
    cases rest with
    | nil =>
      have hlt : ¬ c.toNat ≥ 256 := by have := c.isLt; omega
      simp [lzwEncode, lzwEncodeLoop, lzwDecode, lzwDecodeLoop, hcode, hlt]
    | cons d rest =>
      have hnm : [c] ++ [d] ∉ lzwSeed := by rw [mem_lzwSeed_iff]; simp
      have hlt : ¬ c.toNat ≥ 256 := by have := c.isLt; omega
      have hloop := lzwDecodeLoop_encodeLoop (cap := cap) rest lzwSeed [c] [d] [c] 1 hs (by simp) (by simp)
        (by simp [hs d]) (by simp at h ⊢; omega)
      rw [lzwEncode, lzwEncodeLoop, if_neg hnm, lzwDecode, if_neg (by rw [hcode]; exact hlt)]
      simpa [hcode] using hloop

/-- What the decoder completes with is at most `cap` long (R188). -/
theorem lzwDecodeLoop_length_le {cap : Nat} {dict : List (List Byte)} {prev out r : List Byte} {j : Nat} {ks : List Nat}
    (hout : out.length ≤ cap) (h : lzwDecodeLoop cap dict prev out j ks = .ok r) : r.length ≤ cap := by
  induction ks generalizing dict prev out j with
  | nil => cases h; exact hout
  | cons k ks ih =>
    rw [lzwDecodeLoop] at h
    split at h
    · cases h
    · exact ih (by simp; omega) h

theorem lzwDecode_length_le {cap : Nat} {ks : List Nat} {r : List Byte} (hcap : 1 ≤ cap)
    (h : lzwDecode cap ks = .ok r) : r.length ≤ cap := by
  cases ks with
  | nil => cases h; exact Nat.zero_le _
  | cons k ks =>
    rw [lzwDecode] at h
    split at h
    · cases h
    · exact lzwDecodeLoop_length_le (by simpa using hcap) h

theorem lzwDecode_error {cap : Nat} {ks : List Nat} {t : Trap} (h : lzwDecode cap ks = .error t) :
    t.kind = .lzwFirst ∨ t.kind = .overflow := by
  have loop : ∀ (ks : List Nat) (dict : List (List Byte)) (prev out : List Byte) (j : Nat),
      lzwDecodeLoop cap dict prev out j ks = .error t → t.kind = .overflow := by
    intro ks
    induction ks with
    | nil => intro _ _ _ _ h; cases h
    | cons k ks ih =>
      intro dict prev out j h
      rw [lzwDecodeLoop] at h
      split at h
      · cases h; rfl
      · exact ih _ _ _ _ h
  cases ks with
  | nil => cases h
  | cons k ks =>
    rw [lzwDecode] at h
    split at h
    · cases h; exact .inl rfl
    · exact .inr (loop _ _ _ _ _ h)

end Sys2Proof.Machine
end

