-- ==== Sys2Proof/Laws/LzwPhrases.lean ====
section
/-! SUPPORT. The LZW dictionary read off the phrases met so far (spec/42_lzw.md R181 to R188): how it grows, that the
encoder's output is the greedy parse, and what the decoder does with codes whose strings are given. -/

namespace Sys2Proof.Machine

/-! ### How the dictionary grows -/

theorem lzwEntries_snoc (ps : List (List Byte)) (x y : List Byte) :
    lzwEntries (ps ++ [x, y]) = lzwEntries (ps ++ [x]) ++ [x ++ y.take 1] := by
  induction ps with
  | nil => rfl
  | cons p ps ih =>
    cases ps with
    | nil => rfl
    | cons q ps => simpa [lzwEntries] using ih

/-- One more phrase, one more entry (R184, R188). -/
theorem lzwDictionary_snoc (ps : List (List Byte)) (x y : List Byte) :
    lzwDictionary (ps ++ [x, y]) = lzwDictionary (ps ++ [x]) ++ [x ++ y.take 1] := by
  rw [lzwDictionary, lzwDictionary, lzwEntries_snoc, List.append_assoc]

/-- Of the last phrase only its first byte counts. -/
theorem lzwDictionary_last (ps : List (List Byte)) {x y : List Byte} (h : x.take 1 = y.take 1) :
    lzwDictionary (ps ++ [x]) = lzwDictionary (ps ++ [y]) := by
  rcases List.eq_nil_or_concat ps with rfl | ⟨qs, q, hq⟩
  · rfl
  · rw [List.concat_eq_append] at hq
    subst hq
    rw [List.append_assoc, List.append_assoc]
    exact (lzwDictionary_snoc qs q x).trans (by rw [h]; exact (lzwDictionary_snoc qs q y).symm)

@[simp] theorem lzwDictionary_one (x : List Byte) : lzwDictionary [x] = lzwSeed := by simp [lzwDictionary, lzwEntries]

theorem lzwDictionary_length (ps : List (List Byte)) (x : List Byte) :
    (lzwDictionary (ps ++ [x])).length = 256 + ps.length := by
  induction ps using List.reverseRecOn generalizing x with
  | nil => simp
  | append_singleton ps y ih =>
    rw [List.append_assoc]
    exact (congrArg List.length (lzwDictionary_snoc ps y x)).trans (by simp [ih]; omega)

theorem mem_lzwDictionary (ps : List (List Byte)) (c : Byte) : [c] ∈ lzwDictionary ps := by
  rw [lzwDictionary]
  exact List.mem_append_left _ ((mem_lzwSeed_iff _).2 ⟨c, rfl⟩)

/-- The dictionary at phrase `j + 1` is the one at phrase `j` with one more entry. -/
theorem lzwDictionary_take {ps : List (List Byte)} {j : Nat} {x y : List Byte} (hx : ps[j]? = some x)
    (hy : ps[j + 1]? = some y) :
    lzwDictionary (ps.take (j + 2)) = lzwDictionary (ps.take (j + 1)) ++ [x ++ y.take 1] := by
  have hx' : ps.take (j + 1) = ps.take j ++ [x] := by rw [List.take_add_one, hx]; rfl
  have hy' : ps.take (j + 2) = ps.take j ++ [x, y] := by rw [List.take_add_one, hx', hy]; simp
  rw [hx', hy', lzwDictionary_snoc]

theorem lzwDictionary_take_length {ps : List (List Byte)} {j : Nat} (h : j < ps.length) :
    (lzwDictionary (ps.take (j + 1))).length = 256 + j := by
  have htake : ps.take (j + 1) = ps.take j ++ [ps[j]] := by rw [List.take_add_one, List.getElem?_eq_getElem h]; rfl
  rw [htake, lzwDictionary_length, List.length_take, Nat.min_eq_left (Nat.le_of_lt h)]

/-! ### The greedy parse -/

/-- What R183 asks of the phrases `ps` and their codes after the phrases `before`. -/
def ParseAfter (before ps : List (List Byte)) (codes : List Nat) : Prop :=
  codes.length = ps.length ∧
    ∀ j p, ps[j]? = some p →
      p ≠ [] ∧
        (∃ k, codes[j]? = some k ∧ k < 256 + before.length + j ∧
          (lzwDictionary (before ++ ps.take (j + 1)))[k]? = some p) ∧
          ∀ q, ps[j + 1]? = some q → p ++ q.take 1 ∉ lzwDictionary (before ++ ps.take (j + 1))

/-- A pattern's code is below 256 and the phrases before it, and leads back to it. -/
theorem lzwCode_own {before : List (List Byte)} {x : List Byte} (hx : x ∈ lzwDictionary (before ++ [x])) :
    lzwCode (lzwDictionary (before ++ [x])) x < 256 + before.length ∧
      (lzwDictionary (before ++ [x]))[lzwCode (lzwDictionary (before ++ [x])) x]? = some x :=
  ⟨by rw [← lzwDictionary_length before x]; exact lzwCode_lt hx, lzwCode_getElem? hx⟩

/-- The encoder's loop parses greedily. -/
theorem lzwEncodeLoop_parses (l : List Byte) (before : List (List Byte)) (p : List Byte) (hp : p ≠ [])
    (hm : p ∈ lzwDictionary (before ++ [p])) :
    ∃ ps, ps ≠ [] ∧ ps.flatten = p ++ l ∧ ParseAfter before ps (lzwEncodeLoop (lzwDictionary (before ++ [p])) p l) := by
  induction l generalizing before p with
  | nil =>
    refine ⟨[p], by simp, by simp, by simp [lzwEncodeLoop], ?_⟩
    intro j x hx
    cases j with
    | succ j => simp at hx
    | zero =>
      cases (show p = x by simpa using hx)
      exact ⟨hp, ⟨lzwCode (lzwDictionary (before ++ [p])) p, by rw [lzwEncodeLoop]; rfl, (lzwCode_own hm).1,
        (lzwCode_own hm).2⟩, by simp⟩
  | cons c l ih =>
    rw [lzwEncodeLoop]
    split
    · rename_i hin
      have hd : lzwDictionary (before ++ [p]) = lzwDictionary (before ++ [p ++ [c]]) :=
        lzwDictionary_last before (by cases p with | nil => exact absurd rfl hp | cons x p => simp)
      obtain ⟨ps, h1, h2, h3⟩ := ih before (p ++ [c]) (by simp) (by rw [← hd]; exact hin)
      exact ⟨ps, h1, by rw [h2]; simp, by rw [hd]; exact h3⟩
    · rename_i hout
      have hd : lzwDictionary (before ++ [p]) ++ [p ++ [c]] = lzwDictionary (before ++ [p] ++ [[c]]) := by
        rw [List.append_assoc]; exact (lzwDictionary_snoc before p [c]).symm
      obtain ⟨ps, h1, h2, h3, h4⟩ := ih (before ++ [p]) [c] (by simp) (mem_lzwDictionary _ c)
      rw [hd]
      refine ⟨p :: ps, by simp, by simp [h2], by rw [List.length_cons, List.length_cons, h3], ?_⟩
      intro j x hx
      cases j with
      | zero =>
        cases (show p = x by simpa using hx)
        refine ⟨hp, ⟨lzwCode (lzwDictionary (before ++ [p])) p, rfl, (lzwCode_own hm).1, (lzwCode_own hm).2⟩, ?_⟩
        intro q hq
        have hq' : ps[0]? = some q := by simpa using hq
        have hqne := (h4 0 q hq').1
        cases ps with
        | nil => exact absurd rfl h1
        | cons r ps =>
          cases (show r = q by simpa using hq')
          cases q with
          | nil => exact absurd rfl hqne
          | cons y q =>
            cases (show y = c from (List.cons.inj h2).1)
            exact hout
      | succ j =>
        have := h4 j x (by simpa using hx)
        refine ⟨this.1, ?_, ?_⟩
        · obtain ⟨k, hk1, hk2, hk3⟩ := this.2.1
          exact ⟨k, by simpa using hk1, by simp at hk2; omega, by simpa using hk3⟩
        · intro q hq
          simpa using this.2.2 q (by simpa using hq)

/-- `LZW.ENC` parses greedily (R183, R184). -/
theorem lzwEncode_parses (l : List Byte) : ∃ ps : List (List Byte), ps.flatten = l ∧ LzwParse ps (lzwEncode l) := by
  cases l with
  | nil => exact ⟨[], rfl, rfl, by simp⟩
  | cons c l =>
    obtain ⟨ps, -, h2, h3, h4⟩ := lzwEncodeLoop_parses l [] [c] (by simp) (mem_lzwDictionary _ c)
    rw [List.nil_append, lzwDictionary_one] at h3 h4
    exact ⟨ps, by simpa using h2, h3, fun j p hp => by simpa [lzwEncode] using h4 j p hp⟩

/-- The strings a decoder gives the codes of a parse are its phrases (R190). -/
theorem LzwParse.expansion {ps : List (List Byte)} {codes : List Nat} (h : LzwParse ps codes) : LzwExpansion codes ps := by
  obtain ⟨hlen, hp⟩ := h
  refine ⟨hlen.symm, ?_, ?_⟩
  · intro k hk
    have h0 : 0 < ps.length := by rw [← hlen]; exact (List.getElem?_eq_some_iff.1 hk).1
    obtain ⟨-, ⟨k', hk', hlt, hd⟩, -⟩ := hp 0 ps[0] (List.getElem?_eq_getElem h0)
    cases (Option.some.inj (hk.symm.trans hk'))
    rw [List.take_add_one, List.getElem?_eq_getElem h0] at hd
    simp only [List.take_zero, List.nil_append, Option.toList_some, lzwDictionary_one] at hd
    rw [lzwSeed_getElem? k (by omega)] at hd
    exact ⟨by omega, by rw [List.getElem?_eq_getElem h0, hd]⟩
  · intro j k prev hk hprev
    have hj : j + 1 < ps.length := by rw [← hlen]; exact (List.getElem?_eq_some_iff.1 hk).1
    obtain ⟨-, ⟨k', hk', hlt, hd⟩, -⟩ := hp (j + 1) ps[j + 1] (List.getElem?_eq_getElem hj)
    cases (Option.some.inj (hk.symm.trans hk'))
    have hne := (hp j prev hprev).1
    rw [lzwDictionary_take hprev (List.getElem?_eq_getElem hj)] at hd
    have hdl := lzwDictionary_take_length (ps := ps) (j := j) (by omega)
    rw [List.getElem?_eq_getElem hj]
    split
    · rename_i p e
      rw [List.getElem?_append_left (List.getElem?_eq_some_iff.1 e).1, e] at hd
      exact hd.symm
    · rename_i e
      have hk256 : k = 256 + j := by rw [List.getElem?_eq_none_iff, hdl] at e; omega
      rw [List.getElem?_append_right (by omega), hdl, hk256] at hd
      have hd : prev ++ ps[j + 1].take 1 = ps[j + 1] := by simpa using hd
      cases prev with
      | nil => exact absurd rfl hne
      | cons x prev =>
        have h1 : ps[j + 1].take 1 = [x] := by rw [← hd]; rfl
        rw [← hd, h1]; rfl

/-! ### The decoder -/

/-- One turn of the loop of R188 on a code whose string is given. -/
theorem lzwDecodeLoop_step {cap : Nat} {codes : List Nat} {strs : List (List Byte)} (h : LzwExpansion codes strs) {j k : Nat}
    {prev cur : List Byte} (hprev : strs[j]? = some prev) (hk : codes[j + 1]? = some k)
    (hcur : strs[j + 1]? = some cur) (out : List Byte) (rest : List Nat) :
    lzwDecodeLoop cap (lzwDictionary (strs.take (j + 1))) prev out (j + 1) (k :: rest) =
      if out.length + cur.length > cap then .error ⟨.overflow, j + 1⟩
      else lzwDecodeLoop cap (lzwDictionary (strs.take (j + 2))) cur (out ++ cur) (j + 2) rest := by
  have hs : lzwString (lzwDictionary (strs.take (j + 1))) prev k = cur := by
    have := h.2.2 j k prev hk hprev
    rw [hcur] at this
    exact (Option.some.inj this).symm
  rw [lzwDecodeLoop]
  simp only [hs, lzwDictionary_take hprev hcur]

/-- The loop up to code `m`, none of whose strings before it overflows. -/
theorem lzwDecodeLoop_run {cap : Nat} {codes : List Nat} {strs : List (List Byte)} (h : LzwExpansion codes strs)
    (rest : List Nat) (m : Nat) (hm : m < strs.length) (hfit : (strs.take (m + 1)).flatten.length ≤ cap) :
    lzwDecode cap (codes ++ rest) =
      lzwDecodeLoop cap (lzwDictionary (strs.take (m + 1))) strs[m] (strs.take (m + 1)).flatten (m + 1)
        ((codes ++ rest).drop (m + 1)) := by
  induction m with
  | zero =>
    have h0 : 0 < codes.length := by rw [← h.1]; exact hm
    obtain ⟨hk, hs⟩ := h.2.1 codes[0] (List.getElem?_eq_getElem h0)
    obtain ⟨k, ks, rfl⟩ : ∃ k ks, codes = k :: ks := List.exists_cons_of_ne_nil (List.ne_nil_of_length_pos h0)
    have hs0 : strs[0] = [BitVec.ofNat 8 k] := by
      rw [List.getElem?_eq_getElem hm] at hs; exact Option.some.inj hs
    rw [List.cons_append, lzwDecode, if_neg (by simpa using hk), List.take_add_one, hs, hs0]
    simp
  | succ m ih =>
    have hmc : m + 1 < codes.length := by rw [← h.1]; exact hm
    have htake : (strs.take (m + 1 + 1)).flatten = (strs.take (m + 1)).flatten ++ strs[m + 1] := by
      rw [List.take_add_one, List.getElem?_eq_getElem hm, List.flatten_append]; simp
    rw [ih (by omega) (by rw [htake] at hfit; simp at hfit; simp; omega),
      show (codes ++ rest).drop (m + 1) = codes[m + 1] :: (codes ++ rest).drop (m + 2) by
        rw [List.drop_eq_getElem_cons (by simp; omega), List.getElem_append_left hmc],
      lzwDecodeLoop_step h (List.getElem?_eq_getElem (by omega)) (List.getElem?_eq_getElem hmc)
        (List.getElem?_eq_getElem hm), if_neg (by rw [htake] at hfit; simp at hfit; simp; omega), ← htake]

/-- Codes whose strings fit decode to the strings, one after the other (R188). -/
theorem lzwDecode_of_expansion {cap : Nat} {codes : List Nat} {strs : List (List Byte)} (h : LzwExpansion codes strs)
    (hfit : strs.flatten.length ≤ cap) : lzwDecode cap codes = .ok strs.flatten := by
  by_cases h0 : strs.length = 0
  · have hc : codes = [] := List.length_eq_zero_iff.1 (by rw [← h.1, h0])
    have hs : strs = [] := List.length_eq_zero_iff.1 h0
    subst hc hs
    rfl
  · have hall : strs.take (strs.length - 1 + 1) = strs := by
      rw [show strs.length - 1 + 1 = strs.length by omega]; exact List.take_length
    have := lzwDecodeLoop_run (cap := cap) h [] (strs.length - 1) (by omega) (by rw [hall]; exact hfit)
    rw [hall, List.append_nil, show codes.drop (strs.length - 1 + 1) = [] from
      List.drop_eq_nil_of_le (by rw [← h.1]; omega)] at this
    exact this

/-- The first code whose string passes `CAP` bytes is the overflow (R188). -/
theorem lzwDecode_overflow {cap : Nat} {codes : List Nat} {strs : List (List Byte)} {last : List Byte}
    (h : LzwExpansion codes (strs ++ [last])) (rest : List Nat) (hcap : 1 ≤ cap) (hfit : strs.flatten.length ≤ cap)
    (hover : cap < (strs ++ [last]).flatten.length) :
    lzwDecode cap (codes ++ rest) = .error ⟨.overflow, strs.length⟩ := by
  have hlen : codes.length = strs.length + 1 := by rw [← h.1]; simp
  rcases Nat.eq_zero_or_pos strs.length with h0 | h0
  · have hs : strs = [] := List.length_eq_zero_iff.1 h0
    subst hs
    obtain ⟨-, hs⟩ := h.2.1 codes[0] (List.getElem?_eq_getElem (by omega))
    have hs : last = [BitVec.ofNat 8 codes[0]] := by simpa using hs
    rw [hs] at hover
    simp at hover
    omega
  · have hpre : (strs ++ [last]).take (strs.length - 1 + 1) = strs := by
      rw [show strs.length - 1 + 1 = strs.length by omega]; simp
    have hrun := lzwDecodeLoop_run (cap := cap) h rest (strs.length - 1) (by simp) (by rw [hpre]; exact hfit)
    have hk : codes[strs.length - 1 + 1]? = some codes[strs.length - 1 + 1] := List.getElem?_eq_getElem (by omega)
    have hdrop : (codes ++ rest).drop (strs.length - 1 + 1) =
        codes[strs.length - 1 + 1] :: (codes ++ rest).drop (strs.length - 1 + 2) := by
      rw [List.drop_eq_getElem_cons (by simp; omega), List.getElem_append_left (by omega)]
    rw [hrun, hdrop, lzwDecodeLoop_step h (List.getElem?_eq_getElem (by simp)) hk
      (cur := last) (by rw [show strs.length - 1 + 1 = strs.length by omega]; simp), hpre,
      if_pos (by simpa using hover)]
    congr 2
    omega

end Sys2Proof.Machine
end

