-- ==== Sys2Proof/Laws/Operands.lean ====
section
/-! SUPPORT. Reading a logical buffer after it was written, for each of the four element layouts (spec/20_memory.md R62 to
R65), and what a logical buffer depends on. -/

namespace Sys2Proof.Machine

/-! ### What a read depends on -/

/-- A byte depends on the bytes listed in its window and on the draw, and on nothing else. -/
theorem State.byteAt_congr {s t : State} {w : Window} (hm : t.mem w = s.mem w) (hd : t.draw = s.draw) :
    t.byteAt w = s.byteAt w := by
  funext off
  rw [State.byteAt, State.byteAt, hm, hd]

/-- Where everything was written, the draw does not matter either. -/
theorem State.byteAt_of_written {s t : State} {w : Window} (hm : t.mem w = s.mem w) {off : Nat}
    (h : ((s.mem w).lookup off).isSome = true) : t.byteAt w off = s.byteAt w off := by
  obtain ⟨b, hb⟩ := Option.isSome_iff_exists.1 h
  rw [State.byteAt, State.byteAt, hm, hb]

theorem State.bytes_congr {s t : State} {w : Window} (n : Nat) (hm : t.mem w = s.mem w) (hd : t.draw = s.draw) :
    t.bytes w n = s.bytes w n := by
  rw [State.bytes, State.bytes, State.byteAt_congr hm hd]

@[simp] theorem State.bytes_length (s : State) (w : Window) (n : Nat) : (s.bytes w n).length = n := by simp [State.bytes]

@[simp] theorem State.words_length (s : State) (w : Window) (n : Nat) : (s.words w n).length = n := by simp [State.words]

@[simp] theorem State.textOf_length (s : State) (u : UnitId) : (s.textOf u).length = (s.unit u).textLen.toNat := by
  simp [State.textOf]

@[simp] theorem State.decompOf_length (s : State) (u : UnitId) : (s.decompOf u).length = (s.unit u).decompLen.toNat := by
  simp [State.decompOf]

@[simp] theorem State.bwtComp_length (s : State) : s.bwtComp.length = s.bwt.compLen.toNat := by simp [State.bwtComp]

@[simp] theorem State.rleComp_length (s : State) : s.rleComp.length = s.rle.compLen.toNat := by simp [State.rleComp]

@[simp] theorem State.lzwComp_length (s : State) : s.lzwComp.length = s.lzw.compLen.toNat := by simp [State.lzwComp]

@[simp] theorem State.hufComp_length (s : State) : s.hufComp.length = s.huf.compLen.toNat := by simp [State.hufComp]

theorem State.textOf_congr {s t : State} {u : UnitId} (hu : t.unit u = s.unit u) (hd : t.draw = s.draw) :
    t.textOf u = s.textOf u := by
  rw [State.textOf, State.textOf, hu]
  exact State.bytes_congr _ (by simp [hu]) hd

theorem State.bwtComp_congr {s t : State} (hu : t.bwt = s.bwt) (hd : t.draw = s.draw) : t.bwtComp = s.bwtComp := by
  rw [State.bwtComp, State.bwtComp, hu]
  exact State.bytes_congr _ (congrArg CodecUnit.comp hu) hd

theorem State.decompOf_congr {s t : State} {u : UnitId} (hu : t.unit u = s.unit u) (hd : t.draw = s.draw) :
    t.decompOf u = s.decompOf u := by
  rw [State.decompOf, State.decompOf, hu]
  exact State.bytes_congr _ (congrArg CodecUnit.decomp hu) hd

theorem State.rleComp_congr {s t : State} (hu : t.rle = s.rle) (hd : t.draw = s.draw) : t.rleComp = s.rleComp := by
  have hb := State.byteAt_congr (s := s) (t := t) (w := ⟨.rle, .comp⟩) (congrArg CodecUnit.comp hu) hd
  have hw : t.wordAt ⟨.rle, .comp⟩ = s.wordAt ⟨.rle, .comp⟩ := by
    funext k
    rw [State.wordAt, State.wordAt, hb]
  rw [State.rleComp, State.rleComp, State.words, State.words, hw, hu]

/-! ### Bytes -/

/-- A window that holds exactly the bytes `bs` reads as `bs`. -/
theorem State.byteAt_ofBytes {s : State} {w : Window} {bs : List Byte} (hm : s.mem w = Mem.ofBytes 0 bs) {i : Nat}
    (hi : i < bs.length) : s.byteAt w i = bs[i] := by
  rw [State.byteAt, hm, Mem.lookup_ofBytes_zero, List.getElem?_eq_getElem hi]

theorem State.bytes_ofBytes {s : State} {w : Window} {bs : List Byte} (hm : s.mem w = Mem.ofBytes 0 bs) :
    s.bytes w bs.length = bs := by
  refine List.ext_getElem (by simp) fun i h1 h2 => ?_
  simp [State.bytes, State.byteAt_ofBytes hm h2]

theorem toNat_length {α : Type} {l : List α} (h : l.length < 2 ^ 32) : (BitVec.ofNat 32 l.length).toNat = l.length := by
  simp
  omega

/-- `U.DECOMP` after it was written (R35). -/
theorem State.decompOf_eq {s : State} {u : UnitId} {bs : List Byte} (hm : (s.unit u).decomp = Mem.ofBytes 0 bs)
    (hl : (s.unit u).decompLen = BitVec.ofNat 32 bs.length) (h : bs.length < 2 ^ 32) : s.decompOf u = bs := by
  rw [State.decompOf, hl, toNat_length h]
  exact State.bytes_ofBytes hm

/-- `U.TEXT` after a command wrote it (R33). -/
theorem State.textOf_eq {s : State} {u : UnitId} {bs : List Byte} (hm : (s.unit u).text = Mem.ofBytes 0 bs)
    (hl : (s.unit u).textLen = BitVec.ofNat 32 bs.length) (h : bs.length < 2 ^ 32) : s.textOf u = bs := by
  rw [State.textOf, hl, toNat_length h]
  exact State.bytes_ofBytes hm

/-- `BWT.COMP` after it was written. -/
theorem State.bwtComp_eq {s : State} {bs : List Byte} (hm : s.bwt.comp = Mem.ofBytes 0 bs)
    (hl : s.bwt.compLen = BitVec.ofNat 32 bs.length) (h : bs.length < 2 ^ 32) : s.bwtComp = bs := by
  rw [State.bwtComp, hl, toNat_length h]
  exact State.bytes_ofBytes hm

/-! ### Words (R64) -/

theorem State.wordAt_ofBytes {s : State} {w : Window} {ws : List Word} (hm : s.mem w = Mem.ofBytes 0 (bytesOfWords ws))
    {k : Nat} (hk : k < ws.length) : s.wordAt w k = ws[k] := by
  have at' (j : Nat) (hj : j < 4) : s.byteAt w (4 * k + j) = (ws[k]).extractLsb' (8 * j) 8 := by
    have h1 := bytesOfWords_getElem? ws k j hj
    rw [List.getElem?_eq_getElem hk] at h1
    rw [State.byteAt, hm, Mem.lookup_ofBytes_zero, h1]
    rfl
  rw [State.wordAt, at' 1 (by omega), at' 2 (by omega), at' 3 (by omega)]
  have h0 := at' 0 (by omega)
  simp only [Nat.add_zero] at h0
  rw [h0]
  exact wordOfBytes_bytesOfWord _

theorem State.words_ofBytes {s : State} {w : Window} {ws : List Word} (hm : s.mem w = Mem.ofBytes 0 (bytesOfWords ws)) :
    s.words w ws.length = ws := by
  refine List.ext_getElem (by simp) fun i h1 h2 => ?_
  simp [State.words, State.wordAt_ofBytes hm h2]

theorem Part.getLsbD_toWord (p : Part) (i : Nat) :
    p.toWord.getLsbD i = if i < 8 then p.sym.getLsbD i else (BitVec.ofNat 24 p.count).getLsbD (i - 8) := by
  rw [Part.toWord]
  exact BitVec.getLsbD_append

theorem Part.ofWord_toWord {p : Part} (h : p.count < 2 ^ 24) : Part.ofWord p.toWord = p := by
  have hsym : p.toWord.extractLsb' 0 8 = p.sym := by
    refine BitVec.eq_of_getLsbD_eq fun i hi => ?_
    rw [BitVec.getLsbD_extractLsb', Part.getLsbD_toWord]
    simp [hi]
  have hcount : p.toWord.extractLsb' 8 24 = BitVec.ofNat 24 p.count := by
    refine BitVec.eq_of_getLsbD_eq fun i hi => ?_
    rw [BitVec.getLsbD_extractLsb', Part.getLsbD_toWord]
    simp [hi]
  obtain ⟨sym, count⟩ := p
  rw [Part.ofWord, hsym, hcount]
  simpa using h

/-- `RLE.COMP` after it was written (R34, R64). -/
theorem State.rleComp_eq {s : State} {ps : List Part} (hm : s.rle.comp = Mem.ofBytes 0 (bytesOfWords (ps.map Part.toWord)))
    (hl : s.rle.compLen = BitVec.ofNat 32 ps.length) (h : ps.length < 2 ^ 32) (hc : ∀ p ∈ ps, p.count < 2 ^ 24) :
    s.rleComp = ps := by
  rw [State.rleComp, hl, toNat_length h]
  have := State.words_ofBytes (w := ⟨.rle, .comp⟩) hm
  rw [List.length_map] at this
  rw [this, List.map_map]
  conv_rhs => rw [← List.map_id ps]
  exact List.map_congr_left fun p hp => Part.ofWord_toWord (hc p hp)

/-- `LZW.COMP` after it was written (R34, R64). -/
theorem State.lzwComp_eq {s : State} {ks : List Nat} (hm : s.lzw.comp = Mem.ofBytes 0 (bytesOfWords (ks.map (BitVec.ofNat 32))))
    (hl : s.lzw.compLen = BitVec.ofNat 32 ks.length) (h : ks.length < 2 ^ 32) (hc : ∀ k ∈ ks, k < 2 ^ 32) :
    s.lzwComp = ks := by
  rw [State.lzwComp, hl, toNat_length h]
  have := State.words_ofBytes (w := ⟨.lzw, .comp⟩) hm
  rw [List.length_map] at this
  rw [this, List.map_map]
  conv_rhs => rw [← List.map_id ks]
  refine List.map_congr_left fun k hk => ?_
  have := hc k hk
  simp
  omega

/-! ### Bits (R65) -/

@[simp] theorem packBits_length (bits : List Bool) : (packBits bits).length = (bits.length + 7) / 8 := by simp [packBits]

theorem packedByte_getLsbD (bits : List Bool) (j i : Nat) (hi : i < 8) :
    (packedByte bits j).getLsbD (7 - i) = bits.getD (8 * j + i) false := by
  have : (packedByte bits j).getLsbD (7 - i) = (packedByte bits j).getMsbD i := by
    rw [BitVec.getMsbD_eq_getLsbD]
    simp
    omega
  rw [this, packedByte, BitVec.getMsbD_ofBoolListBE]
  interval_cases i <;> rfl

/-- `HUF.COMP` after it was written (R34, R65). -/
theorem State.hufComp_eq {s : State} {bits : List Bool} (hm : s.huf.comp = Mem.ofBytes 0 (packBits bits))
    (hl : s.huf.compLen = BitVec.ofNat 32 bits.length) (h : bits.length < 2 ^ 32) : s.hufComp = bits := by
  rw [State.hufComp, hl, toNat_length h]
  refine List.ext_getElem (by simp) fun k h1 h2 => ?_
  rw [List.getElem_map, List.getElem_range, State.hufBitAt]
  have hj : k / 8 < (packBits bits).length := by simp; omega
  rw [State.byteAt_ofBytes (w := ⟨.huf, .comp⟩) hm hj]
  have hp : (packBits bits)[k / 8] = packedByte bits (k / 8) := by simp [packBits]
  rw [hp, packedByte_getLsbD bits (k / 8) (k % 8) (Nat.mod_lt _ (by omega)), Nat.div_add_mod]
  simp [List.getD_eq_getElem?_getD, h2]

end Sys2Proof.Machine
end

