-- ==== Sys2Proof/Laws/PerInstr.lean ====
section
/-! SUPPORT. What holds of every command as a word, one lemma per constructor (spec/30_encoding.md R90, R94, R96). -/

namespace Sys2Proof.Laws.Encoded

/-- The command is well formed, the reserved bits of its word are 0, its opcode is its `unit` and `fn` side by side, and the
four bytes of the word decode to it and nothing is left. -/
def Statement (i : Instr) : Prop :=
  i.wf = true ∧ (encode i).extractLsb' 8 24 = 0 ∧ (encode i).extractLsb' 0 8 = i.fields.unit ++ i.fields.fn ∧
    decodeBytes (encodeBytes i) = .ok (i, [])

theorem blkRst : Statement .blkRst := ⟨by decide, by decide, by decide, rfl⟩

theorem rleEnc : Statement .rleEnc := ⟨by decide, by decide, by decide, rfl⟩

theorem rleDec : Statement .rleDec := ⟨by decide, by decide, by decide, rfl⟩

theorem hufBuild : Statement .hufBuild := ⟨by decide, by decide, by decide, rfl⟩

theorem hufEnc : Statement .hufEnc := ⟨by decide, by decide, by decide, rfl⟩

theorem hufDec : Statement .hufDec := ⟨by decide, by decide, by decide, rfl⟩

theorem bwtFwd : Statement .bwtFwd := ⟨by decide, by decide, by decide, rfl⟩

theorem bwtInv : Statement .bwtInv := ⟨by decide, by decide, by decide, rfl⟩

theorem lzwEnc : Statement .lzwEnc := ⟨by decide, by decide, by decide, rfl⟩

theorem lzwDec : Statement .lzwDec := ⟨by decide, by decide, by decide, rfl⟩

theorem bwtrleEnc : Statement .bwtrleEnc := ⟨by decide, by decide, by decide, rfl⟩

theorem bwtrleDec : Statement .bwtrleDec := ⟨by decide, by decide, by decide, rfl⟩

end Sys2Proof.Laws.Encoded
end

