-- ==== Sys2Proof/Laws/Rle.lean ====
section
/-! SUPPORT. What the RLE scan and expansion compute (spec/43_rle.md R200 to R205), as facts about lists. -/

namespace Sys2Proof.Machine

@[simp] theorem expand_nil : expand [] = [] := rfl

@[simp] theorem expand_cons (p : Part) (ps : List Part) :
    expand (p :: ps) = List.replicate p.count p.sym ++ expand ps := rfl

theorem expand_append (ps qs : List Part) : expand (ps ++ qs) = expand ps ++ expand qs :=
  List.flatMap_append

theorem expand_rleScan (sym : Byte) (n : Nat) (l : List Byte) :
    expand (rleScan sym n l) = List.replicate n sym ++ l := by
  induction l generalizing sym n with
  | nil => simp [rleScan]
  | cons x rest ih =>
    by_cases h : x = sym
    · subst h
      simp [rleScan, ih, List.replicate_succ', List.append_assoc]
    · simp [rleScan, h, ih]

/-- Expanding the runs of a text in order gives the text back (R205). -/
theorem expand_rleEncode (l : List Byte) : expand (rleEncode l) = l := by
  cases l with
  | nil => rfl
  | cons x rest => simp [rleEncode, expand_rleScan]

theorem rleScan_count_pos {sym : Byte} {n : Nat} (hn : 1 ≤ n) (l : List Byte) :
    ∀ p ∈ rleScan sym n l, 1 ≤ p.count := by
  induction l generalizing sym n with
  | nil => simp [rleScan, hn]
  | cons x rest ih =>
    by_cases h : x = sym
    · simpa [rleScan, h] using ih (sym := sym) (Nat.le_add_left 1 n)
    · simpa [rleScan, h, hn] using ih (sym := x) (Nat.le_refl 1)

/-- Every count is at least 1 (R203). -/
theorem rleEncode_count_pos (l : List Byte) : ∀ p ∈ rleEncode l, 1 ≤ p.count := by
  cases l with
  | nil => simp [rleEncode]
  | cons x rest => exact rleScan_count_pos (Nat.le_refl 1) rest

theorem rleScan_head (sym : Byte) (n : Nat) (l : List Byte) :
    ∃ m ps, rleScan sym n l = ⟨sym, m⟩ :: ps := by
  induction l generalizing n with
  | nil => exact ⟨n, [], rfl⟩
  | cons x rest ih =>
    by_cases h : x = sym
    · simpa [rleScan, h] using ih (n + 1)
    · exact ⟨n, rleScan x 1 rest, by simp [rleScan, h]⟩

theorem rleScan_adjacent (sym : Byte) (n : Nat) (l : List Byte) :
    (rleScan sym n l).IsChain fun p q => p.sym ≠ q.sym := by
  induction l generalizing sym n with
  | nil => exact List.isChain_singleton _
  | cons x rest ih =>
    by_cases h : x = sym
    · simpa [rleScan, h] using ih sym (n + 1)
    · have hr := ih x 1
      obtain ⟨m, ps, hs⟩ := rleScan_head x 1 rest
      simp only [rleScan, h, if_false]
      rw [hs] at hr ⊢
      exact List.isChain_cons_cons.2 ⟨fun e => h e.symm, hr⟩

/-- Adjacent parts have different symbols (R203). -/
theorem rleEncode_adjacent (l : List Byte) : (rleEncode l).IsChain fun p q => p.sym ≠ q.sym := by
  cases l with
  | nil => exact List.isChain_nil
  | cons x rest => exact rleScan_adjacent x 1 rest

theorem rleScan_length_le (sym : Byte) (n : Nat) (l : List Byte) : (rleScan sym n l).length ≤ l.length + 1 := by
  induction l generalizing sym n with
  | nil => simp [rleScan]
  | cons x rest ih =>
    by_cases h : x = sym
    · simpa [rleScan, h] using Nat.le_succ_of_le (ih sym (n + 1))
    · simpa [rleScan, h] using ih x 1

/-- `|out| <= n` (R202). -/
theorem rleEncode_length_le (l : List Byte) : (rleEncode l).length ≤ l.length := by
  cases l with
  | nil => simp [rleEncode]
  | cons x rest => exact rleScan_length_le x 1 rest

theorem count_le_expand_length {p : Part} {ps : List Part} (h : p ∈ ps) : p.count ≤ (expand ps).length := by
  induction ps with
  | nil => simp at h
  | cons q qs ih =>
    rcases List.mem_cons.1 h with rfl | h
    · simp
    · have := ih h
      simp
      omega

/-- A count is at most the length of the text (R202: "a run is never split"). -/
theorem rleEncode_count_le (l : List Byte) : ∀ p ∈ rleEncode l, p.count ≤ l.length := fun p hp => by
  simpa [expand_rleEncode] using count_le_expand_length hp

/-- The expansion of parts that are all good (count at least 1, nothing past `cap`) completes with their text (R204). -/
theorem rleDecode_append_of_good {cap : Nat} (k : Nat) (ps rest : List Part) (out : List Byte)
    (hpos : ∀ p ∈ ps, 1 ≤ p.count) (hcap : out.length + (expand ps).length ≤ cap) :
    rleDecode cap k (ps ++ rest) out = rleDecode cap (k + ps.length) rest (out ++ expand ps) := by
  induction ps generalizing k out with
  | nil => simp
  | cons p ps ih =>
    have hp : p.count ≠ 0 := by have := hpos p (by simp); omega
    have hle : ¬ out.length + p.count > cap := by simp at hcap; omega
    rw [List.cons_append, rleDecode, if_neg hp, if_neg hle,
      ih (k + 1) (out ++ List.replicate p.count p.sym) (fun q hq => hpos q (by simp [hq]))
        (by simp at hcap ⊢; omega)]
    simp [Nat.add_assoc, Nat.add_comm 1]

theorem rleDecode_of_good {cap : Nat} (ps : List Part) (hpos : ∀ p ∈ ps, 1 ≤ p.count)
    (hcap : (expand ps).length ≤ cap) : rleDecode cap 0 ps [] = .ok (expand ps) := by
  simpa [rleDecode] using rleDecode_append_of_good 0 ps [] [] hpos (by simpa using hcap)

/-- What completes is the expansion, and it fits. -/
theorem rleDecode_ok {cap : Nat} {k : Nat} {ps : List Part} {out r : List Byte} (hout : out.length ≤ cap)
    (h : rleDecode cap k ps out = .ok r) : r = out ++ expand ps ∧ r.length ≤ cap := by
  induction ps generalizing k out with
  | nil => cases h; exact ⟨by simp, hout⟩
  | cons p ps ih =>
    rw [rleDecode] at h
    split at h
    · cases h
    · split at h
      · cases h
      · rename_i _ hle
        have := ih (by simp; omega) h
        exact ⟨by simpa using this.1, this.2⟩

/-- What a failing expansion reports is F_RLE_ZERO or F_OVERFLOW. -/
theorem rleDecode_error {cap : Nat} {k : Nat} {ps : List Part} {out : List Byte} {t : Trap}
    (h : rleDecode cap k ps out = .error t) : t.kind = .rleZero ∨ t.kind = .overflow := by
  induction ps generalizing k out with
  | nil => cases h
  | cons p ps ih =>
    rw [rleDecode] at h
    split at h
    · cases h; exact .inl rfl
    · split at h
      · cases h; exact .inr rfl
      · exact ih h

/-- The round trip of the pure codec (R205). -/
theorem rleDecode_rleEncode {cap : Nat} (l : List Byte) (h : l.length ≤ cap) :
    rleDecode cap 0 (rleEncode l) [] = .ok l := by
  simpa [expand_rleEncode] using
    rleDecode_of_good (rleEncode l) (rleEncode_count_pos l) (by simpa [expand_rleEncode] using h)

end Sys2Proof.Machine
end

