-- ==== Sys2Proof/Laws/Runs.lean ====
section
/-! SUPPORT. Runs of several commands: one step after the other, what a buffer holds after the command that wrote it, and
what stays of a text while the next actions are taken. -/

namespace Sys2Proof.Machine

/-! ### One step after the other -/

theorem coreRun_succ (M : Host.Core) (n : Nat) (s t : M.State) (h : M.step s = .next t) : M.run (n+1) s = M.run n t := by
  rw [Host.Core.run, h]

theorem runSteps_succ (n : Nat) (s t : State) (h : step s = .next t) : runSteps (n+1) s = runSteps n t :=
  coreRun_succ Sys2Proof.core n s t h

theorem decode_encode (i : Instr) : decode (encode i) = some i := by cases i <;> decide

/-- A command written to CMD runs. -/
theorem step_cmdWritten {s : State} {i : Instr} {rest : List HostAction} (h : s.host = cmdWrite s.params i :: rest) (hb : s.busy = false) (hf : s.fault = false) :
  step s = exec i (s.takeAction rest) := step_command h hb (decode_encode i) (.inl hf)

/-- A text that is wholly written stays while the draw goes on. -/
theorem textOf_takeAction {s : State} {u : UnitId} {n : Nat} (rest : List HostAction) (h : (s.unit u).textLen.toNat = n) (hw : s.written ⟨u, .text⟩ n) :
   (s.takeAction rest).textOf u = s.textOf u := by
  rw [State.textOf, State.textOf]
  simp only [State.unit_takeAction, State.bytes]
  refine List.map_congr_left fun i hi => ?_
  refine State.byteAt_of_written ?_ ?_
  · cases u <;> rfl
  · exact hw i (by simp at hi; omega)

/-! ### Bounds (R9) -/

theorem cap_lt {p : Params} (h : p.maxLenOk = true) : p.cap < 2 ^ 24 := by
  simp [Params.maxLenOk] at h; rw [Params.cap]; omega

theorem maxLen_lt {p : Params} (h : p.maxLenOk = true) : p.maxLen + 1 < 2 ^ 24 := by
  simp [Params.maxLenOk] at h; omega

/-! ### What a command has written -/

theorem decompOf_written {s t : State} {u : UnitId} {out : List Byte} (hm : s.params.maxLenOk = true) (hl : out.length ≤ s.params.cap)
  (h1 : (t.unit u).decomp = Mem.ofBytes 0 out) (h2 : (t.unit u).decompLen = BitVec.ofNat 32 out.length) : t.decompOf u = out :=
  State.decompOf_eq h1 h2 (by have := cap_lt hm; omega)

theorem rleComp_written {s t : State} (hm : s.params.maxLenOk = true) (hl : s.rle.textLen.toNat ≤ s.params.cap)
  (ht : t.rle.comp = Mem.ofBytes 0 (bytesOfWords ((rleEncode (s.textOf .rle)).map Part.toWord))) 
  (hc : t.rle.compLen = BitVec.ofNat 32 (rleEncode (s.textOf .rle)).length) : t.rleComp = rleEncode (s.textOf .rle) := by
  have hcap := cap_lt hm
  have hlen := rleEncode_length_le (s.textOf .rle)
  rw [State.textOf_length, State.unit_rle] at hlen
  refine State.rleComp_eq ht hc (by omega) fun p hp => ?_
  have := count_le_expand_length hp
  rw [expand_rleEncode, State.textOf_length, State.unit_rle] at this
  omega

theorem lzwComp_written {s t : State} (hm : s.params.maxLenOk = true) (hl : s.lzw.textLen.toNat ≤ s.params.cap) {text : List Byte}
  (htl : text.length = s.lzw.textLen.toNat)
  (h1 : t.lzw.comp = Mem.ofBytes 0 (bytesOfWords ((lzwEncode text).map (BitVec.ofNat 32))))
  (h2 : t.lzw.compLen = BitVec.ofNat 32 (lzwEncode text).length) : t.lzwComp = lzwEncode text := by
  have hcap := cap_lt hm
  have := lzwEncode_length_le text
  refine State.lzwComp_eq h1 h2 (by omega) fun k hk => ?_
  have := lzwEncode_mem_lt text k hk
  omega

theorem bwtComp_written {s t : State} (hm : s.params.maxLenOk = true) {text : List Byte} {c : Byte} (htl : text.length ≤ s.params.maxLen)
  (h1 : t.bwt.comp = Mem.ofBytes 0 (lastColumn (text ++ [c]))) (h2 : t.bwt.compLen = BitVec.ofNat 32 (lastColumn (text ++ [c])).length) :
  t.bwtComp = lastColumn (text ++ [c]) := by
  have hml := maxLen_lt hm
  exact State.bwtComp_eq h1 h2 (by rw [lastColumn_length]; simp; omega)

theorem putText_text {s : State} {bs : List Byte} (h : bs.length < 2^32) : (s.putText .rle bs).textOf .rle = bs :=
  State.textOf_eq rfl rfl h

end Sys2Proof.Machine
end

