-- ==== Sys2Proof/Tests/Slice0.lean ====
section
/-! SUPPORT. The model's own tests: ill-formed words are refused, words written out from R94 decode, and each command gives
what the spec's vectors say (spec/95_test_vectors.md; each test names its vector). After them, for each statement with
hypotheses, a state and operands that meet them. -/

open Sys2Proof Sys2Proof.Machine

section

/- One theorem after the other: the evaluations are large, and side by side they ask for more threads than there is memory
for. -/
set_option Elab.async false

/-! ### Helpers -/

/-- The bytes of an ASCII text. -/
def ascii (s : String) : List Byte := s.toList.map fun c => BitVec.ofNat 8 c.toNat

/-- The step has a next state, and it passes the check. -/
def ends (o : Host.Outcome State Fault Refusal) (check : State → Bool) : Bool :=
  match o with
  | .next t => check t
  | .fault _ => false
  | .refused _ => false

theorem next_of_ends {o : Host.Outcome State Fault Refusal} {check : State → Bool} (h : ends o check = true) :
    ∃ t, o = .next t ∧ check t = true := by
  cases o with
  | next t => exact ⟨t, rfl, h⟩
  | fault => cases h
  | refused => cases h

/-- The vectors' parameters: the default `MAX_LEN`, `HUF_TIE = ORDERED`. -/
def vectors : State := State.resetWith { Params.default with hufTie := .ordered }

/-- A block with `MAX_LEN = 3`, so `CAP = 4`: the limits can be met by short texts. -/
def tiny : State := State.resetWith { Params.default with maxLen := 3, hufTie := .ordered }

/-- A unit past its encode command. -/
def encoded (s : State) (u : UnitId) : State := s.setPhase u .encoded

/-! ### Ill-formed words -/

theorem test_wf_reserved_bits : (CommandFields.mk 1 0x1 0x0).wf = false := by decide
theorem test_wf_unknown_unit : (CommandFields.mk 0 0x6 0x0).wf = false := by decide
theorem test_wf_unknown_fn : (CommandFields.mk 0 0x1 0x2).wf = false := by decide
theorem test_wf_system_fn : (CommandFields.mk 0 0x0 0x0).wf = false := by decide
theorem test_wf_all_commands : [Instr.blkRst, .rleEnc, .rleDec, .hufBuild, .hufEnc, .hufDec, .bwtFwd, .bwtInv, .lzwEnc,
    .lzwDec, .bwtrleEnc, .bwtrleDec].all Instr.wf = true := by decide

theorem test_params_default : Params.default.wf = true := by decide
theorem test_params_max_len_low : { Params.default with maxLen := 0 }.wf = false := by decide
theorem test_params_max_len_high : { Params.default with maxLen := 2 ^ 24 - 1 }.wf = false := by decide
theorem test_params_misaligned : { Params.default with base := 2 }.wf = false := by decide
theorem test_params_overlap : { Params.default with base := 0x100000 }.wf = false := by decide

/-! ### Decoding: words written out from R94 (unit in bits 7:4, fn in bits 3:0) -/

theorem test_decode_blkRst : decode 0b0000_0000_0000_0000_0000_0000_0000_1111 = some .blkRst := by decide
theorem test_decode_rleEnc : decode 0b0000_0000_0000_0000_0000_0000_0001_0000 = some .rleEnc := by decide
theorem test_decode_rleDec : decode 0b0000_0000_0000_0000_0000_0000_0001_0001 = some .rleDec := by decide
theorem test_decode_hufBuild : decode 0b0000_0000_0000_0000_0000_0000_0010_0000 = some .hufBuild := by decide
theorem test_decode_hufEnc : decode 0b0000_0000_0000_0000_0000_0000_0010_0001 = some .hufEnc := by decide
theorem test_decode_hufDec : decode 0b0000_0000_0000_0000_0000_0000_0010_0010 = some .hufDec := by decide
theorem test_decode_bwtFwd : decode 0b0000_0000_0000_0000_0000_0000_0011_0000 = some .bwtFwd := by decide
theorem test_decode_bwtInv : decode 0b0000_0000_0000_0000_0000_0000_0011_0001 = some .bwtInv := by decide
theorem test_decode_lzwEnc : decode 0b0000_0000_0000_0000_0000_0000_0100_0000 = some .lzwEnc := by decide
theorem test_decode_lzwDec : decode 0b0000_0000_0000_0000_0000_0000_0100_0001 = some .lzwDec := by decide
theorem test_decode_bwtrleEnc : decode 0b0000_0000_0000_0000_0000_0000_0101_0000 = some .bwtrleEnc := by decide
theorem test_decode_bwtrleDec : decode 0b0000_0000_0000_0000_0000_0000_0101_0001 = some .bwtrleDec := by decide

/-- V-SYS-1, V-SYS-2: words that select nothing. -/
theorem test_decode_unselected : [0x00000000, 0x00000012, 0x00000100, 0x00000110, 0x00000060, 0x00000070].all
    (fun w => (decode w).isNone) = true := by decide

/-- The bytes of a word, lowest address first (R62). -/
theorem test_decode_bytes : (decodeBytes [0x22, 0x00, 0x00, 0x00, 0xAA]).toOption = some (.hufDec, [0xAA]) := by decide

/-! ### The commands -/

/-- V-SYS-11. -/
theorem test_blkRst : ends (exec .blkRst { encoded vectors .rle with sentinel := 0x23, done := true })
    (fun t => t.sentinel == 0x24 && t.rle.phase == .idle && t.statusWord == 0) = true := by decide +kernel

/-- V-RLE-1. -/
theorem test_rleEnc : ends (exec .rleEnc (vectors.putText .rle (ascii "aabbc")))
    (fun t => t.rle.comp.map Prod.snd == [0x61, 0x02, 0, 0, 0x62, 0x02, 0, 0, 0x63, 0x01, 0, 0] && t.rle.compLen == 3 &&
      t.rle.phase == .encoded && t.statusWord == 2) = true := by decide +kernel

/-- V-RLE-10. -/
theorem test_rleDec : ends (exec .rleDec (encoded (vectors.putRleComp [⟨0x61, 1⟩, ⟨0x61, 2⟩]) .rle))
    (fun t => t.decompOf .rle == ascii "aaa" && t.rle.phase == .decoded && t.statusWord == 2) = true := by decide +kernel

/-- V-RLE-11. -/
theorem test_rleDec_zero : ends (exec .rleDec (encoded (vectors.putRleComp [⟨0x61, 2⟩, ⟨0x62, 0⟩, ⟨0x63, 1⟩]) .rle))
    (fun t => t.faultCode == 0x06 && t.faultInfo == 1 && t.rle.decompLen == 0 && t.rle.phase == .encoded) = true := by
  decide +kernel

/-- V-HUF-3. -/
theorem test_hufBuild : ends (exec .hufBuild (vectors.putText .huf (ascii "abracadabra")))
    (fun t => t.hufNode == [.leaf 0x61 5, .leaf 0x62 2, .leaf 0x63 1, .leaf 0x64 1, .leaf 0x72 2, .internal 2 2 3,
        .internal 4 1 4, .internal 6 5 6, .internal 11 0 7] && t.hufRoot == 8 && t.hufNnodes == 9 &&
      t.codeOf 0x64 == some [true, false, true] && t.codeOf 0x72 == some [true, true, true]) = true := by decide +kernel

/-- V-HUF-2: the single leaf. -/
theorem test_hufBuild_leaf : ends (exec .hufBuild (vectors.putText .huf (ascii "aaaa")))
    (fun t => t.hufNode == [.leaf 0x61 4] && t.hufRoot == 0 && t.codeOf 0x61 == some [false]) = true := by decide +kernel

/-- A state with the tree of V-HUF-1 and its codes: `b = 0`, `c = 10`, `a = 11`. -/
def treeOfAabbc (s : State) : State :=
  { s with
    hufNode := [.leaf 0x61 2, .leaf 0x62 2, .leaf 0x63 1, .internal 3 2 0, .internal 5 1 3]
    hufRoot := 4
    hufNnodes := 5
    hufCode := Vector.ofFn fun b =>
      if b = 0x61 then some [true, true] else if b = 0x62 then some [false] else if b = 0x63 then some [true, false] else none }

/-- V-HUF-1. -/
theorem test_hufEnc : ends (exec .hufEnc (((treeOfAabbc vectors).putText .huf (ascii "aabbc")).setPhase .huf .codesGenerated))
    (fun t => t.huf.comp == [(0, 0xF2)] && t.huf.compLen == 8 && t.huf.phase == .encoded) = true := by decide +kernel

/-- V-HUF-17. -/
theorem test_hufEnc_no_code :
    ends (exec .hufEnc (((treeOfAabbc vectors).putText .huf (ascii "aazbc")).setPhase .huf .codesGenerated))
      (fun t => t.faultCode == 0x09 && t.faultInfo == 2 && t.huf.compLen == 0) = true := by decide +kernel

/-- V-HUF-10. -/
theorem test_hufDec : ends (exec .hufDec (encoded
    ((treeOfAabbc vectors).putHufComp [true, true, true, true, false, false, true, false]) .huf))
    (fun t => t.decompOf .huf == ascii "aabbc" && t.huf.phase == .decoded) = true := by decide +kernel

/-- V-HUF-14. -/
theorem test_hufDec_path : ends (exec .hufDec (encoded ((treeOfAabbc vectors).putHufComp [true, true, true]) .huf))
    (fun t => t.faultCode == 0x08 && t.faultInfo == 3 && t.huf.decompLen == 0) = true := by decide +kernel

/-- V-BWT-1. -/
theorem test_bwtFwd : ends (exec .bwtFwd (vectors.putText .bwt (ascii "banana")))
    (fun t => t.bwtSufidx == [6, 5, 3, 1, 0, 4, 2] && t.bwtOpos == 4 && t.bwtComp == ascii "annb$aa") = true := by
  decide +kernel

/-- V-BWT-7: a byte below the sentinel. -/
theorem test_bwtFwd_below_sentinel : ends (exec .bwtFwd (vectors.putText .bwt (ascii "ab ab")))
    (fun t => t.bwtSufidx == [2, 5, 0, 3, 1, 4] && t.bwtOpos == 2 && t.bwtComp == ascii "bb$ aa") = true := by decide +kernel

/-- V-BWT-8. -/
theorem test_bwtInv : ends (exec .bwtInv { encoded (vectors.putBwtComp (ascii "annb$aa")) .bwt with bwtOpos := 4 })
    (fun t => t.decompOf .bwt == ascii "banana" && t.bwt.phase == .decoded) = true := by decide +kernel

/-- V-BWT-17: the walk comes back too early. -/
theorem test_bwtInv_cycle : ends (exec .bwtInv { encoded (vectors.putBwtComp (ascii "$a")) .bwt with bwtOpos := 0 })
    (fun t => t.faultCode == 0x0A && t.faultInfo == 0 && t.bwt.decompLen == 0) = true := by decide +kernel

/-- V-LZW-6. -/
theorem test_lzwEnc : ends (exec .lzwEnc (vectors.putText .lzw (ascii "abababa")))
    (fun t => t.lzwComp == [97, 98, 256, 258] && t.lzw.phase == .encoded) = true := by decide +kernel

/-- V-LZW-11: codes above NEXT. -/
theorem test_lzwDec : ends (exec .lzwDec (encoded (vectors.putLzwComp [97, 256, 98, 258]) .lzw))
    (fun t => t.decompOf .lzw == ascii "aaabbb" && t.lzw.phase == .decoded) = true := by decide +kernel

/-- V-LZW-12. -/
theorem test_lzwDec_first : ends (exec .lzwDec (encoded (vectors.putLzwComp [256]) .lzw))
    (fun t => t.faultCode == 0x0B && t.faultInfo == 256 && t.lzw.decompLen == 0) = true := by decide +kernel

/-- V-CMP-1. -/
theorem test_bwtrleEnc : ends (exec .bwtrleEnc (vectors.putText .bwt (ascii "banana")))
    (fun t => t.textOf .rle == ascii "annb$aa" && t.rleComp == [⟨0x61, 1⟩, ⟨0x6E, 2⟩, ⟨0x62, 1⟩, ⟨0x24, 1⟩, ⟨0x61, 2⟩] &&
      t.bwt.phase == .encoded && t.rle.phase == .encoded) = true := by decide +kernel

/-- The state of V-CMP-1 in what `BWTRLE.DEC` reads. -/
def banana (column : String) : State :=
  { encoded (encoded ((vectors.putBwtComp (ascii column)).putRleComp
      [⟨0x61, 1⟩, ⟨0x6E, 2⟩, ⟨0x62, 1⟩, ⟨0x24, 1⟩, ⟨0x61, 2⟩]) .rle) .bwt with bwtOpos := 4 }

/-- V-CMP-2. -/
theorem test_bwtrleDec : ends (exec .bwtrleDec (banana "annb$aa"))
    (fun t => t.decompOf .bwt == ascii "banana" && t.rle.phase == .decoded && t.bwt.phase == .decoded) = true := by
  decide +kernel

/-- V-CMP-5. -/
theorem test_bwtrleDec_corrupted : ends (exec .bwtrleDec (banana "xnnb$aa"))
    (fun t => t.faultCode == 0x04 && t.faultInfo == 0 && t.rle.phase == .decoded && t.bwt.phase == .encoded &&
      t.decompOf .rle == ascii "annb$aa" && t.bwt.decompLen == 0) = true := by decide +kernel

/-! ### Acceptance and the host port -/

/-- V-SYS-1. -/
theorem test_selErr : ends (step (vectors.withFetchWord 32 0)) (fun t => t.statusWord == 8) = true := by decide +kernel

/-- V-SYS-4. -/
theorem test_wrong_phase : ends (step (vectors.withFetchWord 32 0x11))
    (fun t => t.statusWord == 4 && t.faultCode == 0x01 && t.faultInfo == 0x11) = true := by decide +kernel

/-- V-SYS-5. -/
theorem test_faulted_ignores : ends (step ((vectors.faultOnly .seq 0x11).withFetchWord 32 0))
    (fun t => t.statusWord == 4 && t.faultInfo == 0x11) = true := by decide +kernel

/-- V-SYS-10. -/
theorem test_sentinel_write : ends (step { vectors with host := [.write 0x010 4 0x123] })
    (fun t => t.readReg .sentinel == 0x23) = true := by decide +kernel

/-- V-LEN-2. -/
theorem test_bwt_len : ends (exec .bwtFwd { vectors with bwt := { vectors.bwt with textLen := 16385 } })
    (fun t => t.faultCode == 0x02 && t.faultInfo == 16385) = true := by decide +kernel

/-- R122, R123: the heap trace of V-HUF-1 up to its first pop, ids ranked (2,0), (2,1), (1,2). -/
theorem test_heap :
    let o := outranks .ordered [.leaf 0x61 2, .leaf 0x62 2, .leaf 0x63 1]
    heapPush o (heapPush o (heapPush o [] 0) 1) 2 = [2, 1, 0] ∧ heapPop o [2, 1, 0] = some (2, [0, 1]) := by decide

/-! ### Witnesses: for each statement with hypotheses, a state and operands that meet them all. Where the limits matter the
block is `tiny` (`CAP = 4`), and the lengths stand at the limit. -/

/-- The two ends of R9's range. -/
theorem witness_maxLenOk : { Params.default with maxLen := 1 }.maxLenOk = true ∧
    { Params.default with maxLen := 2 ^ 24 - 2 }.maxLenOk = true := by decide

/-- A CMD write next. -/
def writing (s : State) (w : Word) : State := { s with host := [.write s.params.base 4 w] }

/-- A block that has taken a fault. -/
def faulted : State := tiny.faultOnly .seq 0x11

theorem witness_StepRunsTheDecodedCommand :
    ((writing tiny 0x10).host = .write tiny.params.base 4 0x10 :: [] ∧ (writing tiny 0x10).busy = false ∧
      decode 0x10 = some .rleEnc ∧ (writing tiny 0x10).fault = false) ∧
    ((writing faulted 0x0F).host = .write faulted.params.base 4 0x0F :: [] ∧ (writing faulted 0x0F).busy = false ∧
      decode 0x0F = some .blkRst ∧ (writing faulted 0x0F).fault = true) ∧
    tiny.busy = false ∧ decodeTableWord 32 0x51 = some .bwtrleDec ∧ tiny.fault = false := by decide

theorem witness_FaultedBlockIgnoresCommands :
    (writing faulted 0x10F).host = .write faulted.params.base 4 0x10F :: [] ∧ (writing faulted 0x10F).busy = false ∧
      (writing faulted 0x10F).fault = true ∧ (0x10F : Word) ≠ 0x0F := by decide

theorem witness_UnselectedWordSetsSelErr :
    ((writing tiny 0x110).host = .write tiny.params.base 4 0x110 :: [] ∧ (writing tiny 0x110).busy = false ∧
      (writing tiny 0x110).fault = false) ∧ (0x110 : Word).extractLsb' 8 24 ≠ 0 ∧
    ((writing tiny 0x12).host = .write tiny.params.base 4 0x12 :: [] ∧ (writing tiny 0x12).busy = false ∧
      (writing tiny 0x12).fault = false) ∧
    (0x12 : Word).extractLsb' 0 8 ∉ ([0x0F, 0x10, 0x11, 0x20, 0x21, 0x22, 0x30, 0x31, 0x40, 0x41, 0x50, 0x51] : List Byte) ∧
    ∃ t, exec .rleEnc { tiny with selErr := true } = .next t ∧ (!t.fault) = true :=
  ⟨by decide, by decide, by decide, by decide, next_of_ends (by decide +kernel)⟩

theorem witness_AcceptedCommandsEnd : tiny.fault = false := by decide

/-- First with nothing to do, then with each of the two actions that discard the fault. -/
theorem witness_FaultSticksUntilReset :
    faulted.fault = true ∧ (∃ t, step faulted = .next t) ∧ (∃ t, step (writing faulted 0x0F) = .next t) ∧
      ∃ t, step { faulted with host := [.hardwareReset] } = .next t :=
  ⟨rfl, ⟨_, rfl⟩, ⟨_, rfl⟩, ⟨_, rfl⟩⟩

theorem witness_OnlyListedFaults : tiny.fault = false ∧ ∃ t, exec .rleDec tiny = .next t ∧ t.fault = true :=
  ⟨rfl, next_of_ends (by decide +kernel)⟩

theorem witness_BlkRstRestoresResetValues :
    { faulted with host := [.hardwareReset] }.host = .hardwareReset :: [] := by decide

theorem witness_PhasesGateAndAdvance :
    (¬ inPhase .rleDec tiny ∧ ¬ inPhase .bwtrleEnc (encoded tiny .rle)) ∧ tiny.fault = false ∧
      ∃ t, exec .bwtrleEnc (tiny.putText .bwt (ascii "aba")) = .next t ∧ (!t.fault) = true :=
  ⟨⟨by unfold inPhase; decide, by unfold inPhase; decide⟩, rfl, next_of_ends (by decide +kernel)⟩

/-- A length register of a unit. -/
def withLengths (s : State) (u : UnitId) (text comp : Word) : State :=
  s.setUnit u { s.unit u with textLen := text, compLen := comp }

/-- One above each of the three limits: `CAP`, `MAX_LEN` and `HUF_BITS_CAP` (R248). -/
theorem witness_LengthAboveLimitIsLenFault :
    (inPhase .rleEnc (withLengths tiny .rle 5 0) ∧ lengthCheck (withLengths tiny .rle 5 0) .rleEnc = some (5, 4)) ∧
    (inPhase .bwtFwd (withLengths tiny .bwt 4 0) ∧ lengthCheck (withLengths tiny .bwt 4 0) .bwtFwd = some (4, 3)) ∧
    (inPhase .hufDec (encoded (withLengths tiny .huf 0 1021) .huf) ∧
      lengthCheck (encoded (withLengths tiny .huf 0 1021) .huf) .hufDec = some (1021, 1020)) ∧
    (inPhase .bwtrleDec (encoded (encoded (withLengths tiny .bwt 0 5) .rle) .bwt) ∧
      (∃ a, exec .rleDec (encoded (encoded (withLengths tiny .bwt 0 5) .rle) .bwt) = .next a ∧ (!a.fault) = true) ∧
      tiny.params.cap < (encoded (encoded (withLengths tiny .bwt 0 5) .rle) .bwt).bwt.compLen.toNat) :=
  ⟨⟨by unfold inPhase; decide, by decide⟩, ⟨by unfold inPhase; decide, by decide⟩,
    ⟨by unfold inPhase; decide, by decide⟩, by unfold inPhase; decide, next_of_ends (by decide +kernel), by decide⟩

/-- A fault before anything is written, and one after. -/
theorem witness_UnitCommandFaultFrame :
    (∃ t, exec .rleDec tiny = .next t ∧ (t.fault && t.faultCode == 0x01) = true) ∧
      ∃ t, exec .bwtFwd (tiny.putText .bwt (ascii "a$")) = .next t ∧ (t.fault && t.faultCode == 0x03) = true :=
  ⟨next_of_ends (by decide +kernel), next_of_ends (by decide +kernel)⟩

/-! #### RLE -/

theorem witness_RleEncEmitsMaximalRuns :
    (tiny.putText .rle (ascii "aabb")).params.maxLenOk = true ∧ inPhase .rleEnc (tiny.putText .rle (ascii "aabb")) ∧
      (tiny.putText .rle (ascii "aabb")).rle.textLen.toNat = (tiny.putText .rle (ascii "aabb")).params.cap :=
  ⟨by decide, by unfold inPhase; decide, by decide⟩

/-- An `RLE.DEC` about to run. -/
def parts (ps : List Part) : State := encoded (tiny.putRleComp ps) .rle

theorem witness_RleDecExpandsParts :
    (parts [⟨0x61, 1⟩, ⟨0x61, 3⟩]).params.maxLenOk = true ∧ inPhase .rleDec (parts [⟨0x61, 1⟩, ⟨0x61, 3⟩]) ∧
      (parts [⟨0x61, 1⟩, ⟨0x61, 3⟩]).rle.compLen.toNat ≤ 4 ∧
      (parts [⟨0x61, 1⟩, ⟨0x61, 3⟩]).rleComp = [⟨0x61, 1⟩, ⟨0x61, 3⟩] ∧
      ([⟨0x61, 1⟩, ⟨0x61, 3⟩] : List Part).all (fun p => decide (1 ≤ p.count)) = true ∧
      ([⟨0x61, 1⟩, ⟨0x61, 3⟩].flatMap fun p : Part => List.replicate p.count p.sym).length = 4 :=
  ⟨by decide, by unfold inPhase; decide, by decide, by decide +kernel, by decide, by decide⟩

/-- A part of count 0 after parts that fill the buffer, and a part that passes the capacity by one. -/
theorem witness_RleDecFaultsAtFirstBadPart :
    (inPhase .rleDec (parts [⟨0x61, 4⟩, ⟨0x62, 0⟩]) ∧ (parts [⟨0x61, 4⟩, ⟨0x62, 0⟩]).rleComp = [⟨0x61, 4⟩] ++ ⟨0x62, 0⟩ :: []) ∧
    (inPhase .rleDec (parts [⟨0x61, 4⟩, ⟨0x62, 1⟩]) ∧ (parts [⟨0x61, 4⟩, ⟨0x62, 1⟩]).rleComp = [⟨0x61, 4⟩] ++ ⟨0x62, 1⟩ :: []) ∧
    ([⟨0x61, 4⟩].flatMap fun p : Part => List.replicate p.count p.sym).length = tiny.params.cap :=
  ⟨⟨by unfold inPhase; decide, by decide +kernel⟩, ⟨by unfold inPhase; decide, by decide +kernel⟩, by decide⟩

/-! #### Huffman -/

/-- The empty text, one byte value, and a text that fills the buffer. -/
theorem witness_HufBuildBuildsATree :
    [[], ascii "aaaa", ascii "abca"].all (fun text =>
      decide ((tiny.putText .huf text).huf.textLen.toNat ≤ 4) && (tiny.putText .huf text).huf.phase == .idle) = true := by
  decide

theorem witness_HufBuildMergesLowestTwo :
    tiny.fault = false ∧ ∃ t, exec .hufBuild (tiny.putText .huf (ascii "aab")) = .next t ∧
      (!t.fault && t.hufNode[2]? == some (.internal 3 1 0)) = true :=
  ⟨rfl, next_of_ends (by decide +kernel)⟩

theorem witness_HufBuildCodesArePaths :
    tiny.fault = false ∧ ∃ t, exec .hufBuild (tiny.putText .huf (ascii "a")) = .next t ∧
      (!t.fault && t.codeOf 0x61 == some [false]) = true :=
  ⟨rfl, next_of_ends (by decide +kernel)⟩

/-- An `HUF.ENC` about to run, with the codes of V-HUF-1. -/
def coded (text : List Byte) : State := ((treeOfAabbc tiny).putText .huf text).setPhase .huf .codesGenerated

theorem coded_length (text : List Byte) (b : Byte) (bits : List Bool) (h : (coded text).codeOf b = some bits) :
    bits.length ≤ 255 := by
  have hall : ∀ c : Fin 256, ∀ l, (treeOfAabbc tiny).hufCode.get c = some l → l.length ≤ 255 := by
    intro c l hl
    simp only [treeOfAabbc, Vector.get_eq_getElem, Vector.getElem_ofFn] at hl
    split at hl
    · cases hl; decide
    split at hl
    · cases hl; decide
    split at hl
    · cases hl; decide
    · cases hl
  exact hall _ _ h

theorem witness_HufEncConcatenatesCodes :
    (coded (ascii "abca")).params.maxLenOk = true ∧ inPhase .hufEnc (coded (ascii "abca")) ∧
      (coded (ascii "abca")).huf.textLen.toNat = (coded (ascii "abca")).params.cap ∧
      (∀ b bits, (coded (ascii "abca")).codeOf b = some bits → bits.length ≤ 255) ∧
      (((coded (ascii "abca")).textOf .huf).all fun b => ((coded (ascii "abca")).codeOf b).isSome) = true ∧
      (coded (ascii "abz")).textOf .huf = ascii "ab" ++ 0x7A :: [] ∧ (coded (ascii "abz")).codeOf 0x7A = none :=
  ⟨by decide, by unfold inPhase; decide, by decide, coded_length _, by decide +kernel, by decide +kernel, by decide +kernel⟩

/-- A `HUF.DEC` about to run on the tree of V-HUF-1. -/
def treeAndBits (bits : List Bool) : State := encoded ((treeOfAabbc tiny).putHufComp bits) .huf

/-- A `HUF.DEC` about to run on the tree of V-HUF-2. -/
def leafAndBits (bits : List Bool) : State :=
  encoded ({ tiny with hufNode := [.leaf 0x61 4], hufRoot := 0, hufNnodes := 1 }.putHufComp bits) .huf

theorem path_a (bits : List Bool) : TreePath (treeAndBits bits).hufNode 4 [true, true] 0 :=
  .right (f := 5) (l := 1) (r := 3) rfl (.right (f := 3) (l := 2) (r := 0) rfl (.here 0))

theorem path_b (bits : List Bool) : TreePath (treeAndBits bits).hufNode 4 [false] 1 :=
  .left (f := 5) (l := 1) (r := 3) rfl (.here 1)

theorem leafPaths_ab (bits : List Bool) (pieces : List (List Bool × Byte))
    (h : ∀ x, x ∈ pieces → x = ([true, true], 0x61) ∨ x = ([false], 0x62)) : (treeAndBits bits).leafPaths pieces := by
  refine ⟨fun e => absurd (show (4 : BitVec 9) = rootNone from e) (by decide), ⟨5, 1, 3, rfl⟩, fun x hx => ?_⟩
  rcases h x hx with rfl | rfl
  · exact ⟨0, 2, path_a bits, rfl⟩
  · exact ⟨1, 2, path_b bits, rfl⟩

theorem singleLeaf_a (bits : List Bool) : (leafAndBits bits).singleLeaf 0x61 :=
  ⟨fun e => absurd (show (0 : BitVec 9) = rootNone from e) (by decide), 4, rfl⟩

theorem descending_abc (bits : List Bool) : arenaDescending (treeAndBits bits).hufNode := by
  intro i n hn c hc
  have hi : i < 5 := (List.getElem?_eq_some_iff.1 hn).1
  match i, hi with
  | 0, _ => cases (show Node.leaf 0x61 2 = n from Option.some.inj hn); cases hc
  | 1, _ => cases (show Node.leaf 0x62 2 = n from Option.some.inj hn); cases hc
  | 2, _ => cases (show Node.leaf 0x63 1 = n from Option.some.inj hn); cases hc
  | 3, _ =>
    cases (show Node.internal 3 2 0 = n from Option.some.inj hn)
    simp [nodeChildren] at hc
    omega
  | 4, _ =>
    cases (show Node.internal 5 1 3 = n from Option.some.inj hn)
    simp [nodeChildren] at hc
    omega

/-- The bits of `"aabb"` under the tree of V-HUF-1, as their pieces. -/
def piecesOfAabb : List (List Bool × Byte) := [([true, true], 0x61), ([true, true], 0x61), ([false], 0x62), ([false], 0x62)]

theorem witness_HufDecWalksTheTree :
    (treeAndBits []).params.maxLenOk = true ∧
    (inPhase .hufDec (treeAndBits []) ∧ (treeAndBits []).hufComp = []) ∧
    (inPhase .hufDec (leafAndBits (List.replicate 4 false)) ∧ (leafAndBits (List.replicate 4 false)).singleLeaf 0x61 ∧
      4 ≤ tiny.params.cap ∧ (leafAndBits (List.replicate 4 false)).hufComp = List.replicate 4 false) ∧
    (inPhase .hufDec (treeAndBits (piecesOfAabb.flatMap Prod.fst)) ∧
      (treeAndBits (piecesOfAabb.flatMap Prod.fst)).leafPaths piecesOfAabb ∧ piecesOfAabb.length = tiny.params.cap ∧
      (treeAndBits (piecesOfAabb.flatMap Prod.fst)).hufComp = piecesOfAabb.flatMap Prod.fst) :=
  ⟨by decide, ⟨by unfold inPhase; decide, by decide +kernel⟩,
    ⟨by unfold inPhase; decide, singleLeaf_a _, by decide, by decide +kernel⟩,
    ⟨by unfold inPhase; decide, leafPaths_ab _ _ (by decide), by decide, by decide +kernel⟩⟩

theorem witness_HufDecFaults :
    (inPhase .hufDec (encoded (tiny.putHufComp [false]) .huf) ∧ (encoded (tiny.putHufComp [false]) .huf).hufComp ≠ [] ∧
      (encoded (tiny.putHufComp [false]) .huf).hufRoot = rootNone) ∧
    ((leafAndBits [false, false, false, false, true]).singleLeaf 0x61 ∧ 4 = tiny.params.cap ∧
      (leafAndBits [false, false, false, false, true]).hufComp = List.replicate 4 false ++ true :: []) ∧
    ((leafAndBits (List.replicate 5 false)).hufComp = List.replicate (tiny.params.cap + 1) false ++ []) ∧
    ((treeAndBits (piecesOfAabb.flatMap Prod.fst ++ [true])).leafPaths piecesOfAabb ∧
      arenaDescending (treeAndBits (piecesOfAabb.flatMap Prod.fst ++ [true])).hufNode ∧
      TreePath (treeAndBits (piecesOfAabb.flatMap Prod.fst ++ [true])).hufNode 4 [true] 3 ∧
      (treeAndBits (piecesOfAabb.flatMap Prod.fst ++ [true])).hufNode[3]? = some (.internal 3 2 0) ∧
      (treeAndBits (piecesOfAabb.flatMap Prod.fst ++ [true])).hufComp = piecesOfAabb.flatMap Prod.fst ++ [true]) ∧
    ((treeAndBits ((piecesOfAabb ++ [([false], 0x62)]).flatMap Prod.fst)).leafPaths (piecesOfAabb ++ [([false], 0x62)]) ∧
      (piecesOfAabb ++ [([false], 0x62)]).length = tiny.params.cap + 1 ∧
      (treeAndBits ((piecesOfAabb ++ [([false], 0x62)]).flatMap Prod.fst)).hufComp =
        (piecesOfAabb ++ [([false], 0x62)]).flatMap Prod.fst ++ []) :=
  ⟨⟨by unfold inPhase; decide, by decide +kernel, by decide⟩, ⟨singleLeaf_a _, by decide, by decide +kernel⟩,
    by decide +kernel,
    ⟨leafPaths_ab _ _ (by decide), descending_abc _, .right (f := 5) (l := 1) (r := 3) rfl (.here 3), rfl, by decide +kernel⟩,
    ⟨leafPaths_ab _ _ (by decide), by decide, by decide +kernel⟩⟩

/-- The order of the numbers, and a heap of it with two elements that could be swapped. -/
theorem witness_HeapMeetsContract :
    (∀ x : Nat, decide (x < x) = false) ∧
    (∀ x y z : Nat, decide (x < y) = true → decide (y < z) = true → decide (x < z) = true) ∧
    (∀ x y z : Nat, decide (x < z) = true → decide (x < y) = true ∨ decide (y < z) = true) ∧
    HeapProperty (fun x y => decide (x < y)) [0, 2, 1, 2] := by
  refine ⟨by simp, fun x y z => by simp; omega, fun x y z => by simp; omega, fun i h1 h2 => ?_⟩
  match i, h1, h2 with
  | 1, _, _ => decide
  | 2, _, _ => decide
  | 3, _, _ => decide

/-! #### BWT -/

theorem witness_BwtFwdSortsSuffixes :
    [[], ascii "aba"].all (fun text =>
      (tiny.putText .bwt text).params.maxLenOk && (tiny.putText .bwt text).bwt.phase == .idle &&
        decide ((tiny.putText .bwt text).bwt.textLen.toNat ≤ 3) &&
          !((tiny.putText .bwt text).textOf .bwt).contains (tiny.putText .bwt text).sentinel) = true := by decide +kernel

theorem witness_BwtFwdRejectsSentinel :
    inPhase .bwtFwd (tiny.putText .bwt (ascii "ab$")) ∧
      (tiny.putText .bwt (ascii "ab$")).bwt.textLen.toNat = (tiny.putText .bwt (ascii "ab$")).params.maxLen ∧
      (tiny.putText .bwt (ascii "ab$")).textOf .bwt =
        ascii "ab" ++ (tiny.putText .bwt (ascii "ab$")).sentinel :: [] ∧
      (tiny.putText .bwt (ascii "ab$")).sentinel ∉ ascii "ab" :=
  ⟨by unfold inPhase; decide, by decide, by decide +kernel, by decide +kernel⟩

theorem witness_BwtFwdOutputHoldsSentinelOnce :
    tiny.fault = false ∧ (tiny.putText .bwt (ascii "aba")).bwt.textLen ≠ 0 ∧
      ∃ t, exec .bwtFwd (tiny.putText .bwt (ascii "aba")) = .next t ∧ (!t.fault) = true :=
  ⟨rfl, by decide, next_of_ends (by decide +kernel)⟩

/-- A `BWT.INV` about to run. -/
def column (l : List Byte) (opos : Word) : State := { encoded (tiny.putBwtComp l) .bwt with bwtOpos := opos }

/-- `"c$ab"`, the transform of `"abc"`: `LSHIFT` is `[1, 2, 3, 0]`. -/
theorem witness_BwtInvWalksBack :
    (column (ascii "c$ab") 1).params.maxLenOk = true ∧ inPhase .bwtInv (column (ascii "c$ab") 1) ∧
      (column (ascii "c$ab") 1).bwt.compLen.toNat = (column (ascii "c$ab") 1).params.cap ∧
      leftShift (sortedColumn (column (ascii "c$ab") 1).bwtComp) (buckets (column (ascii "c$ab") 1).bwtComp) = [1, 2, 3, 0] ∧
      (∀ r i : Nat, ([1, 2, 3, 0] : List Nat)[r]? = some i → (i + 3) % 4 = r) ∧
      (column (ascii "c$ab") 1).bwtComp.count (column (ascii "c$ab") 1).sentinel = 1 ∧
      (column (ascii "c$ab") 1).bwtComp[1]? = some (column (ascii "c$ab") 1).sentinel ∧
      (∀ a, a < 4 → ∀ b, b < 4 → a < b → (fun i => (i + 3) % 4)^[a] 1 ≠ (fun i => (i + 3) % 4)^[b] 1) := by
  refine ⟨by decide, by unfold inPhase; decide, by decide, by decide +kernel, fun r i h => ?_, by decide +kernel,
    by decide +kernel, by decide⟩
  have hr : r < 4 := (List.getElem?_eq_some_iff.1 h).1
  match r, hr with
  | 0, _ => cases h; rfl
  | 1, _ => cases h; rfl
  | 2, _ => cases h; rfl
  | 3, _ => cases h; rfl

/-- OPOS at the length, no sentinel, the wrong byte at OPOS, and a walk that stays at one position. -/
theorem witness_BwtInvRejects :
    (inPhase .bwtInv (column (ascii "c$ab") 4) ∧
      (column (ascii "c$ab") 4).bwt.compLen.toNat = (column (ascii "c$ab") 4).bwtOpos.toNat) ∧
    (column (ascii "cxab") 1).bwtComp.count (column (ascii "cxab") 1).sentinel ≠ 1 ∧
    (column (ascii "c$ab") 0).bwtComp[0]? ≠ some (column (ascii "c$ab") 0).sentinel ∧
    leftShift (sortedColumn (column (ascii "$a") 0).bwtComp) (buckets (column (ascii "$a") 0).bwtComp) = [0, 1] ∧
    (fun i : Nat => i)^[0] (column (ascii "$a") 0).bwtOpos.toNat = (fun i : Nat => i)^[1] (column (ascii "$a") 0).bwtOpos.toNat :=
  ⟨⟨by unfold inPhase; decide, by decide⟩, by decide +kernel, by decide +kernel, by decide +kernel, rfl⟩

theorem witness_BwtInvNeverEmitsSentinel :
    tiny.fault = false ∧ ∃ t, exec .bwtInv (column (ascii "c$ab") 1) = .next t ∧ (!t.fault) = true :=
  ⟨rfl, next_of_ends (by decide +kernel)⟩

/-! #### LZW -/

theorem witness_LzwEncGreedyParse :
    (tiny.putText .lzw (ascii "aaaa")).params.maxLenOk = true ∧ inPhase .lzwEnc (tiny.putText .lzw (ascii "aaaa")) ∧
      (tiny.putText .lzw (ascii "aaaa")).lzw.textLen.toNat = (tiny.putText .lzw (ascii "aaaa")).params.cap :=
  ⟨by decide, by unfold inPhase; decide, by decide⟩

/-- An `LZW.DEC` about to run. -/
def codes (ks : List Nat) : State := encoded (tiny.putLzwComp ks) .lzw

/-- A code that is present, and one that is not. -/
theorem expansion_ab_present : LzwExpansion [97, 98, 256] [ascii "a", ascii "b", ascii "ab"] := by
  refine ⟨rfl, fun k hk => by cases hk; decide, fun j k prev hk hp => ?_⟩
  match j with
  | 0 => cases hk; cases hp; decide +kernel
  | 1 => cases hk; cases hp; decide +kernel
  | j + 2 => simp at hk

theorem expansion_a_absent : LzwExpansion [97, 300, 97] [ascii "a", ascii "aa", ascii "a"] := by
  refine ⟨rfl, fun k hk => by cases hk; decide, fun j k prev hk hp => ?_⟩
  match j with
  | 0 => cases hk; cases hp; decide +kernel
  | 1 => cases hk; cases hp; decide +kernel
  | j + 2 => simp at hk

theorem witness_LzwDecExpandsCodes :
    (codes [97, 98, 256]).params.maxLenOk = true ∧ inPhase .lzwDec (codes [97, 98, 256]) ∧
      (codes [97, 98, 256]).lzw.compLen.toNat ≤ 4 ∧ (codes [97, 98, 256]).lzwComp = [97, 98, 256] ∧
      LzwExpansion [97, 98, 256] [ascii "a", ascii "b", ascii "ab"] ∧
      [ascii "a", ascii "b", ascii "ab"].flatten.length = tiny.params.cap :=
  ⟨by decide, by unfold inPhase; decide, by decide, by decide +kernel, expansion_ab_present, by decide⟩

theorem witness_LzwDecFaults :
    (inPhase .lzwDec (codes [256]) ∧ (codes [256]).lzwComp = 256 :: []) ∧
    ((codes [97, 300, 97, 98]).lzwComp = [97, 300, 97] ++ [98] ∧
      LzwExpansion [97, 300, 97] ([ascii "a", ascii "aa"] ++ [ascii "a"])) ∧
    LzwExpansion [97, 98, 256] ([ascii "a", ascii "b"] ++ [ascii "ab"]) ∧
    { Params.default with maxLen := 2 }.cap < ([ascii "a", ascii "b"] ++ [ascii "ab"]).flatten.length ∧
    [ascii "a", ascii "b"].flatten.length ≤ { Params.default with maxLen := 2 }.cap :=
  ⟨⟨by unfold inPhase; decide, by decide +kernel⟩, ⟨by decide +kernel, expansion_a_absent⟩, expansion_ab_present, by decide,
    by decide⟩

/-! #### The composite -/

theorem witness_BwtrleEncIsFwdThenRle :
    (tiny.putText .bwt (ascii "aba")).params.maxLenOk = true ∧ inPhase .bwtrleEnc (tiny.putText .bwt (ascii "aba")) ∧
      (tiny.putText .bwt (ascii "aba")).fault = false ∧
      (tiny.putText .bwt (ascii "aba")).bwt.textLen.toNat = (tiny.putText .bwt (ascii "aba")).params.maxLen ∧
      (tiny.putText .bwt (ascii "aba")).sentinel ∉ (tiny.putText .bwt (ascii "aba")).textOf .bwt :=
  ⟨by decide, by unfold inPhase; decide, by decide, by decide, by decide +kernel⟩

/-- A `BWTRLE.DEC` about to run. -/
def columnAndParts (l : List Byte) (opos : Word) (ps : List Part) : State :=
  { encoded (encoded ((tiny.putBwtComp l).putRleComp ps) .rle) .bwt with bwtOpos := opos }

/-- The column and the parts of `"abc"`; for the other clauses the empty text, a column above `CAP`, and a column that is not
what the parts stand for. -/
theorem witness_BwtrleDecChecksAndInverts :
    let s := columnAndParts (ascii "c$ab") 1 [⟨0x63, 1⟩, ⟨0x24, 1⟩, ⟨0x61, 1⟩, ⟨0x62, 1⟩]
    let e := columnAndParts [] 0 []
    let x := columnAndParts (ascii "c$aa") 1 [⟨0x63, 1⟩, ⟨0x24, 1⟩, ⟨0x61, 1⟩, ⟨0x62, 1⟩]
    (s.params.maxLenOk = true ∧ inPhase .bwtrleDec s ∧ s.fault = false ∧ (ascii "abc").length = s.params.maxLen ∧
      s.sentinel ∉ ascii "abc" ∧ s.bwtComp = lastColumn (ascii "abc" ++ [s.sentinel]) ∧
      s.bwtOpos.toNat = originalPos (ascii "abc" ++ [s.sentinel]) ∧ s.rle.compLen.toNat = s.params.cap ∧
      (s.rleComp.flatMap fun p => List.replicate p.count p.sym) = s.bwtComp) ∧
    (inPhase .bwtrleDec e ∧ e.bwtComp = []) ∧
    (inPhase .bwtrleDec x ∧ x.bwt.compLen.toNat = x.params.cap ∧ (x.rleComp.flatMap fun p => List.replicate p.count p.sym) ≠ x.bwtComp) ∧
    ∃ t, exec .rleDec x = .next t ∧ (!t.fault) = true :=
  ⟨⟨by decide, by unfold inPhase; decide, by decide, by decide, by decide +kernel, by decide +kernel, by decide +kernel,
      by decide, by decide +kernel⟩,
    ⟨by unfold inPhase; decide, by decide +kernel⟩, ⟨by unfold inPhase; decide, by decide, by decide +kernel⟩,
    next_of_ends (by decide +kernel)⟩

/-! #### Round trips -/

/-- A unit loaded with a text that fills its buffer, and the commands of a codec next. -/
def loaded (u : UnitId) (v : Variant) (text : List Byte) : State :=
  { tiny.putText u text with host := cmdWrites tiny.params (v.encode ++ v.decode) }

theorem written_loaded (u : UnitId) (v : Variant) (text : List Byte) (h : text.length ≤ 4) :
    (loaded u v text).written ⟨u, .text⟩ text.length := by
  intro off ho
  have hm : (loaded u v text).mem ⟨u, .text⟩ = Mem.ofBytes 0 text := by cases u <;> rfl
  rw [hm]
  match text, h with
  | [_], _ => match off, ho with
    | 0, _ => rfl
  | [_, _], _ => match off, ho with
    | 0, _ => rfl
    | 1, _ => rfl
  | [_, _, _], _ => match off, ho with
    | 0, _ => rfl
    | 1, _ => rfl
    | 2, _ => rfl
  | [_, _, _, _], _ => match off, ho with
    | 0, _ => rfl
    | 1, _ => rfl
    | 2, _ => rfl
    | 3, _ => rfl

theorem witness_RoundTripRle :
    let s := loaded .rle .rle (ascii "aaaa")
    s.params.maxLenOk = true ∧ s.busy = false ∧ s.fault = false ∧
      s.host = cmdWrites s.params (Variant.rle.encode ++ Variant.rle.decode) ++ [] ∧ s.rle.phase = .idle ∧
      s.rle.textLen.toNat = s.params.cap ∧ s.written ⟨.rle, .text⟩ 4 :=
  ⟨by decide, by decide, by decide, by decide, by decide, by decide, written_loaded _ _ _ (by decide)⟩

theorem witness_RoundTripHuffman :
    let s := loaded .huf .huffman (ascii "aaaa")
    s.params.maxLenOk = true ∧ s.busy = false ∧ s.fault = false ∧
      s.host = cmdWrites s.params (Variant.huffman.encode ++ Variant.huffman.decode) ++ [] ∧ s.huf.phase = .idle ∧
      s.huf.textLen.toNat = s.params.cap ∧ s.written ⟨.huf, .text⟩ 4 :=
  ⟨by decide, by decide, by decide, by decide, by decide, by decide, written_loaded _ _ _ (by decide)⟩

theorem witness_RoundTripBwt :
    let s := loaded .bwt .bwt (ascii "aaa")
    s.params.maxLenOk = true ∧ s.busy = false ∧ s.fault = false ∧
      s.host = cmdWrites s.params (Variant.bwt.encode ++ Variant.bwt.decode) ++ [] ∧ s.bwt.phase = .idle ∧
      s.bwt.textLen.toNat = s.params.maxLen ∧ s.written ⟨.bwt, .text⟩ 3 ∧ s.sentinel ∉ s.textOf .bwt :=
  ⟨by decide, by decide, by decide, by decide, by decide, by decide, written_loaded _ _ _ (by decide), by decide +kernel⟩

theorem witness_RoundTripLzw :
    let s := loaded .lzw .lzw (ascii "aaaa")
    s.params.maxLenOk = true ∧ s.busy = false ∧ s.fault = false ∧
      s.host = cmdWrites s.params (Variant.lzw.encode ++ Variant.lzw.decode) ++ [] ∧ s.lzw.phase = .idle ∧
      s.lzw.textLen.toNat = s.params.cap ∧ s.written ⟨.lzw, .text⟩ 4 :=
  ⟨by decide, by decide, by decide, by decide, by decide, by decide, written_loaded _ _ _ (by decide)⟩

theorem witness_RoundTripComposite :
    let s := loaded .bwt .bwtRle (ascii "aaa")
    s.params.maxLenOk = true ∧ s.busy = false ∧ s.fault = false ∧
      s.host = cmdWrites s.params (Variant.bwtRle.encode ++ Variant.bwtRle.decode) ++ [] ∧ s.bwt.phase = .idle ∧
      s.rle.phase = .idle ∧ s.bwt.textLen.toNat = s.params.maxLen ∧ s.written ⟨.bwt, .text⟩ 3 ∧
      s.sentinel ∉ s.textOf .bwt :=
  ⟨by decide, by decide, by decide, by decide, by decide, by decide, by decide, written_loaded _ _ _ (by decide),
    by decide +kernel⟩

/-! #### Frames -/

/-- Every command has a next state in every state; here the reset state, where the encode commands complete. -/
theorem witness_EncodeFrames :
    [Instr.rleEnc, .hufEnc, .bwtFwd, .lzwEnc].all (fun i => ends (exec i tiny) fun _ => true) = true := by decide +kernel

theorem witness_DecodeFrames :
    [Instr.rleDec, .hufDec, .bwtInv, .lzwDec].all (fun i => ends (exec i (encoded tiny .lzw)) fun _ => true) = true := by
  decide +kernel

theorem witness_BuildAndCompositeFrames :
    [Instr.hufBuild, .bwtrleEnc, .bwtrleDec].all (fun i => ends (exec i tiny) fun _ => true) = true := by decide +kernel

/-! #### The host port -/

theorem witness_HostReadsReturnRegisters : tiny.busy = false ∧
    { tiny with host := [.read (tiny.params.base + 0x13C) 4] }.host = .read (tiny.params.base + 0x13C) 4 :: [] := by decide

theorem witness_HostWritesToRegisters : tiny.busy = false ∧
    { tiny with host := [.write (tiny.params.base + 0x13C) 4 7] }.host = .write (tiny.params.base + 0x13C) 4 7 :: [] := by
  decide

/-- Each width, the last access of a window (4 bytes of TEXT in `tiny`), and the byte that holds the last of 5 bits of
HUF.COMP: its fifth bit is written and below COMP_LEN, its sixth is written and not. -/
theorem witness_HostReadsWrittenBytes :
    let s := (tiny.putText .rle (ascii "abcd")).putHufComp [true, false, true, true, false]
    s.params.wf = true ∧ s.busy = false ∧
      [(3, 1), (2, 2), (0, 4)].all (fun x => decide (x.1 % x.2 = 0) && decide (x.1 + x.2 = s.params.windowSize ⟨.rle, .text⟩) &&
        decide (8 * (x.1 + x.2 - 1) + (7 - 0) < s.liveBits ⟨.rle, .text⟩)) = true ∧
      (s.mem ⟨.rle, .text⟩).lookup 3 = some 0x64 ∧ (s.mem ⟨.huf, .comp⟩).lookup 0 = some 0xB0 ∧
      8 * 0 + (7 - 3) < s.liveBits ⟨.huf, .comp⟩ ∧ ¬8 * 0 + (7 - 2) < s.liveBits ⟨.huf, .comp⟩ :=
  ⟨by decide, by decide, by decide, by decide, by decide, by decide, by decide⟩

/-- R65's five-bit example `10110` read back by the host: the bits below COMP_LEN, whatever the free bits are (R36). -/
theorem test_read_of_last_partial_byte :
    let s := tiny.putHufComp [true, false, true, true, false]
    [7, 6, 5, 4, 3].map (fun i => (s.hostByteAt ⟨.huf, .comp⟩ 0).getLsbD i) = [true, false, true, true, false] := by
  dsimp only [List.map]
  rw [hostByteAt_getLsbD _ _ _ 7 (by decide), hostByteAt_getLsbD _ _ _ 6 (by decide),
    hostByteAt_getLsbD _ _ _ 5 (by decide), hostByteAt_getLsbD _ _ _ 4 (by decide),
    hostByteAt_getLsbD _ _ _ 3 (by decide)]
  decide

theorem witness_HostWritesToWindows :
    tiny.params.wf = true ∧ tiny.busy = false ∧
      [(15, 1), (14, 2), (12, 4)].all (fun x =>
        decide (x.1 % x.2 = 0) && decide (x.1 + x.2 = tiny.params.windowSize ⟨.rle, .comp⟩)) = true ∧
      (⟨.rle, .comp⟩ : Window).kind ≠ .decomp ∧ (⟨.rle, .decomp⟩ : Window).kind = .decomp ∧
      0 + 4 = tiny.params.windowSize ⟨.rle, .decomp⟩ := by decide

/-- The last element of a window of bytes, of words and of bits. -/
theorem witness_PokeOverwritesOneElement :
    tiny.params.wf = true ∧ tiny.busy = false ∧
    3 + 1 = tiny.params.cap ∧ 1019 + 1 = tiny.params.hufBitsCap ∧
    { tiny with host := [pokeByte tiny.params ⟨.bwt, .comp⟩ 3 0x78] }.host = pokeByte tiny.params ⟨.bwt, .comp⟩ 3 0x78 :: [] ∧
    { tiny with host := [pokeWord tiny.params ⟨.rle, .comp⟩ 3 0x36E] }.host =
      pokeWord tiny.params ⟨.rle, .comp⟩ 3 0x36E :: [] ∧
    { tiny with host := [pokeBit tiny 1019 true] }.host = pokeBit { tiny with host := [pokeBit tiny 1019 true] } 1019 true :: [] :=
  ⟨by decide, rfl, by decide, by decide, rfl, rfl, rfl⟩

/-- R65's bits `11110010` (byte 0xF2) with bit 4 poked to 1 are `11111010`, and `10110` written over them by WRBUF is
`10110` and the three bits of 0xF2 that follow. -/
theorem test_poke_and_write_bits :
    let s := tiny.putHufComp [true, true, true, true, false, false, true, false]
    pokeBit s 4 true = .write (tiny.params.compBase.huf + 0) 1 0xFA ∧
      wrBits s [true, false, true, true, false] =
        [.write (tiny.params.compBase.huf + 0) 1 0xB2, .write (tiny.params.base + 0x088) 4 5] := by decide

/-- A block with `CAP = 5`, so that an aligned access can pass a window's end. -/
def five : Params := { Params.default with maxLen := 4 }

theorem witness_MeaninglessAccessesHaveNoNextState :
    five.wf = true ∧ isAccess (.read 5 4) 5 4 ∧ isAccess (.write 5 4 0) 5 4 ∧
    five.regions.all (fun r => decide (five.base + 0x140 < r.1) || decide (r.1 + r.2 ≤ five.base + 0x140)) = true ∧
    inRegion (five.base + 0x13F) (five.base, 0x140) ∧
    inRegion (five.textBase.rle + 1) (five.textBase.rle, five.windowSize ⟨.rle, .text⟩) ∧
    (five.textBase.rle + 1) % 2 ≠ 0 ∧
    inRegion (five.textBase.rle + 4) (five.textBase.rle, five.windowSize ⟨.rle, .text⟩) ∧
    five.textBase.rle + five.windowSize ⟨.rle, .text⟩ < five.textBase.rle + 4 + 2 ∧
    { tiny with busy := true }.busy = true ∧ HostAction.read (five.base + 0x004) 2 ≠ .read (five.base + 0x004) 4 := by
  refine ⟨by decide, .inl rfl, .inr ⟨0, rfl⟩, by decide, ?_, ?_, by decide, ?_, by decide, by decide, by decide⟩
  all_goals unfold inRegion; decide

theorem witness_ReadsChangeNoBlockState :
    ∃ t, step { tiny with host := [.read (tiny.params.base + 0x004) 4] } = .next t :=
  ⟨_, rfl⟩

theorem witness_ElementLayouts :
    (tiny.putText .rle (ascii "abcd")).rle.textLen.toNat = 4 ∧ (tiny.putDecomp .rle (ascii "abcd")).rle.decompLen.toNat = 4 ∧
    (tiny.putBwtComp (ascii "abcd")).bwt.compLen.toNat = 4 ∧ (tiny.putRleComp [⟨0xFF, 0x012345⟩]).rle.compLen.toNat = 1 ∧
    (tiny.putLzwComp [256, 97]).lzw.compLen.toNat = 2 ∧ (tiny.putHufComp [true, false]).huf.compLen.toNat = 2 ∧
    ∃ t, exec .hufEnc (coded (ascii "ab")) = .next t ∧
      (!t.fault && decide (t.huf.compLen.toNat ≤ 3) && decide (3 < 8 * ((t.huf.compLen.toNat + 7) / 8))) = true :=
  ⟨by decide, by decide, by decide, by decide, by decide, by decide, next_of_ends (by decide +kernel)⟩

theorem witness_memInv : (coded (ascii "ab")).memInv := ⟨by decide, by decide, coded_length _⟩

/-! #### Invariants -/

theorem witness_StepTakesOneHostAction : (∃ t, step tiny = .next t) ∧ ∃ t, step (tiny.withFetchWord 32 0x0F) = .next t :=
  ⟨⟨_, rfl⟩, ⟨_, rfl⟩⟩

/-- A faulted block, and one that has decoded. -/
theorem witness_StepKeepsStatusAndPhases :
    [faulted, encoded (parts [⟨0x61, 4⟩]) .rle, { tiny.setPhase .huf .codesGenerated with done := true }].all (fun s =>
      s.params.maxLenOk && s.statusOk && s.phasesOk && s.decompOk) = true ∧
    ∃ t, step ((parts [⟨0x61, 4⟩]).withFetchWord 32 0x11) = .next t ∧ (t.rle.decompLen == 4) = true :=
  ⟨by decide, next_of_ends (by decide +kernel)⟩

theorem witness_StepKeepsWindowsCanonical :
    (coded (ascii "ab")).memInv ∧ ∃ t, step ((coded (ascii "ab")).withFetchWord 32 0x21) = .next t ∧ (!t.fault) = true :=
  ⟨witness_memInv, next_of_ends (by decide +kernel)⟩

/-- The single-leaf tree and its code. -/
def oneLeaf : State :=
  { leafAndBits [] with hufCode := Vector.ofFn fun b => if b = 0x61 then some [false] else none }

theorem oneLeaf_code (b : Byte) (bits : List Bool) (h : oneLeaf.codeOf b = some bits) : b = 0x61 ∧ bits = [false] := by
  simp only [State.codeOf, oneLeaf, Vector.get_eq_getElem, Vector.getElem_ofFn] at h
  split at h
  · rename_i e
    exact ⟨BitVec.eq_of_toFin_eq e, (Option.some.inj h).symm⟩
  · cases h

theorem witness_StepKeepsHuffmanTree :
    oneLeaf.hufInv ∧ ∃ t, step (oneLeaf.withFetchWord 32 0x22) = .next t ∧ (!t.fault) = true := by
  refine ⟨⟨⟨by decide, by decide, by decide, fun _ => by decide, ?_, fun _ => ?_⟩, ?_, ?_, ?_⟩, next_of_ends (by decide +kernel)⟩
  · intro i n hn c hc
    have hi : i < 1 := (List.getElem?_eq_some_iff.1 hn).1
    match i, hi with
    | 0, _ => cases (show Node.leaf 0x61 4 = n from Option.some.inj hn); cases hc
  · intro c hc
    match c, hc with
    | 0, _ => rfl
  · intro b bits h
    obtain ⟨rfl, rfl⟩ := oneLeaf_code b bits h
    exact .inl ⟨4, rfl, rfl⟩
  · intro b bits h
    obtain ⟨rfl, rfl⟩ := oneLeaf_code b bits h
    decide
  · intro b c bits h more h'
    exact (oneLeaf_code _ _ h).1.trans (oneLeaf_code _ _ h').1.symm

end
end

