-- ==== Sys2Proof/Proofs/Reset.lean ====
section
/-! SUPPORT. The state `BLK.RST` and hardware reset leave (spec/10_state.md R47, spec/70_reset_and_hazards.md R281). -/

namespace Sys2Proof.Machine

/-! ### The logical buffers of a reset block are empty -/

@[simp] theorem State.textOf_resetBlock (s : State) (u : UnitId) : s.resetBlock.textOf u = [] := by
  simp [State.textOf, State.bytes, CodecUnit.reset]

@[simp] theorem State.decompOf_resetBlock (s : State) (u : UnitId) : s.resetBlock.decompOf u = [] := by
  simp [State.decompOf, State.bytes, CodecUnit.reset]

@[simp] theorem State.rleComp_resetBlock (s : State) : s.resetBlock.rleComp = [] := rfl

@[simp] theorem State.hufComp_resetBlock (s : State) : s.resetBlock.hufComp = [] := rfl

@[simp] theorem State.bwtComp_resetBlock (s : State) : s.resetBlock.bwtComp = [] := rfl

@[simp] theorem State.lzwComp_resetBlock (s : State) : s.resetBlock.lzwComp = [] := rfl

@[simp] theorem State.statusWord_resetBlock (s : State) : s.resetBlock.statusWord = 0 := by
  simp [State.statusWord]

/-- The hardware reset and `BLK.RST` leave one and the same state (R281). -/
theorem step_hardwareReset {s : State} {rest : List HostAction} (h : s.host = .hardwareReset :: rest) :
    step s = exec .blkRst (s.takeAction rest) := by
  rw [exec_blkRst, step_answered h rfl]

/-- Settles O11: `BLK.RST` goes on to `resetBlock` from every state, whose fields are R47's values, and the hardware reset
takes the block there too. -/
theorem blkRstRestoresResetValues : Obligations.BlkRstRestoresResetValues := by
  unfold Obligations.BlkRstRestoresResetValues
  refine ⟨fun s => ⟨s.resetBlock, exec_blkRst s, s.statusWord_resetBlock, rfl, rfl, rfl, fun u => ?units,
    s.rleComp_resetBlock, s.hufComp_resetBlock, s.bwtComp_resetBlock, s.lzwComp_resetBlock, rfl, rfl, rfl,
    fun b => ?tables⟩, fun _ _ => step_hardwareReset⟩
  case units =>
    rw [State.unit_resetBlock]
    exact ⟨rfl, s.textOf_resetBlock u, rfl, s.decompOf_resetBlock u⟩
  case tables => simp [Vector.get_eq_getElem]

end Sys2Proof.Machine
end

