-- ==== Sys2Proof/Proofs/HuffmanBuild.lean ====
section
/-! SUPPORT. The tree `HUF.BUILD` leaves, as R40 states it: the seeds in front, Internal nodes behind them, the root last
(spec/40_huffman.md R128, R130, R131, R133). -/

namespace Sys2Proof.Machine

section
variable (tie : HufTie) (choices : Nat → Nat) (freq : Vector Nat 256)

/-! ### The arena of a built tree -/

/-- The seeds are the first nodes (R128). -/
theorem buildTree_take_seeds : (buildTree tie choices freq).1.take (seedLeaves freq).length = seedLeaves freq :=
  (List.prefix_iff_eq_take.1 (buildTree_inv tie choices freq).1.leaves).symm

/-- Every node after the seeds is Internal, with the frequency of its two children, which are older (R130). -/
theorem buildTree_inner {i : Nat} (hi : (seedLeaves freq).length ≤ i) (hlt : i < (buildTree tie choices freq).1.length) :
    ∃ l r, (buildTree tie choices freq).1[i]? = some (.internal (arenaFreq (buildTree tie choices freq).1 l +
      arenaFreq (buildTree tie choices freq).1 r) l r) ∧ l < i ∧ r < i := by
  have hn := List.getElem?_eq_getElem hlt
  obtain ⟨f, l, r, e⟩ := (buildTree_inv tie choices freq).1.inner i _ hn hi
  rw [e] at hn
  obtain ⟨rfl, hl, hr, -⟩ := buildTree_merged tie choices freq i f l r hn
  exact ⟨l, r, hn, hl, hr⟩

variable {freq} (h : seedLeaves freq ≠ [])
include h

/-- Every node but the last is the child of exactly one node (R38, R131). -/
theorem buildTree_treeShaped :
    arenaTreeShaped (buildTree tie choices freq).1 (2 * (seedLeaves freq).length - 2) := fun c hc => by
  simpa [(buildTree_root tie choices freq h).1] using (buildTree_inv tie choices freq).1.counts c hc

/-- The root has the frequencies of all the seeds together (R131). -/
theorem buildTree_rootFreq :
    arenaFreq (buildTree tie choices freq).1 (2 * (seedLeaves freq).length - 2) = ((seedLeaves freq).map nodeFreq).sum := by
  simpa [(buildTree_root tie choices freq h).1] using (buildTree_inv tie choices freq).1.weight

/-- The ROOT register names the last node. -/
theorem rootOf_buildTree_toNat :
    (rootOf (buildTree tie choices freq).2).toNat = 2 * (seedLeaves freq).length - 2 := by
  have hle := seedLeaves_length_le freq
  rw [(buildTree_root tie choices freq h).1, rootOf, BitVec.toNat_ofNat]
  omega

/-- The NNODES register does not overflow (R31). -/
theorem nnodes_buildTree_toNat :
    (BitVec.ofNat 10 (buildTree tie choices freq).1.length).toNat = 2 * (seedLeaves freq).length - 1 := by
  have hle := seedLeaves_length_le freq
  rw [(buildTree_root tie choices freq h).2, BitVec.toNat_ofNat]
  omega

end

/-- Settles O18: whatever the ties do, the merge loop keeps a forest over the seeds until one tree is left. -/
theorem hufBuildBuildsATree : Obligations.HufBuildBuildsATree := by
  unfold Obligations.HufBuildBuildsATree
  intro s hp hl
  have hseeds := seedLeaves_eq (s.textOf .huf)
  have hk := congrArg List.length hseeds
  rw [List.length_map] at hk
  refine ⟨_, exec_hufBuild_passes hp hl, completed_ended s, rfl, frequencies_get _, fun b => ?codes, ?_⟩
  case codes =>
    rw [State.codeOf, codeTable_built, builtCode_isSome, frequencies_get, List.count_pos_iff]
  dsimp only
  rw [← hk, ← hseeds]
  refine ⟨fun h0 => ?_, fun h1 => ?_⟩
  · have hnil := List.length_eq_zero_iff.1 h0
    rw [State.builtTree, buildTree_empty _ _ _ hnil]
    exact ⟨rfl, rfl, rfl⟩
  · have hne := List.length_pos_iff.1 h1
    have hlen := (buildTree_root s.params.hufTie (Config.tieChoice s.draw) _ hne).2
    refine ⟨nnodes_buildTree_toNat _ _ hne, hlen, rootOf_buildTree_toNat _ _ hne, buildTree_take_seeds _ _ _,
      fun i hi hlt => buildTree_inner _ _ _ hi (hlen ▸ hlt), buildTree_treeShaped _ _ hne, ?_⟩
    calc arenaFreq s.builtTree.1 (2 * (seedLeaves (frequencies (s.textOf .huf))).length - 2)
        = ((seedLeaves (frequencies (s.textOf .huf))).map nodeFreq).sum := buildTree_rootFreq _ _ hne
      _ = (s.textOf .huf).length := sum_freq _
      _ = s.huf.textLen.toNat := State.textOf_length s .huf

end Sys2Proof.Machine
end

