-- ==== Sys2Proof/Proofs/Layouts.lean ====
section
/-! SUPPORT. Where the elements of a logical buffer lie in its window (spec/20_memory.md R63 to R65): the values of the
little-endian words, and the bits `HUF.ENC` leaves behind its last one. -/

namespace Sys2Proof.Machine

/-! ### Elements by their index -/

theorem State.bytes_getElem? (s : State) (w : Window) {n i : Nat} (h : i < n) :
    (s.bytes w n)[i]? = some (s.byteAt w i) := by
  simp [State.bytes, h]

theorem State.words_getElem? (s : State) (w : Window) {n k : Nat} (h : k < n) :
    (s.words w n)[k]? = some (s.wordAt w k) := by
  simp [State.words, h]

theorem State.rleComp_getElem? (s : State) {k : Nat} (h : k < s.rle.compLen.toNat) :
    s.rleComp[k]? = some (Part.ofWord (s.wordAt ⟨.rle, .comp⟩ k)) := by
  rw [State.rleComp, List.getElem?_map, s.words_getElem? _ h, Option.map_some]

theorem State.lzwComp_getElem? (s : State) {k : Nat} (h : k < s.lzw.compLen.toNat) :
    s.lzwComp[k]? = some (s.wordAt ⟨.lzw, .comp⟩ k).toNat := by
  rw [State.lzwComp, List.getElem?_map, s.words_getElem? _ h, Option.map_some]

theorem State.hufComp_getElem? (s : State) {k : Nat} (h : k < s.huf.compLen.toNat) :
    s.hufComp[k]? = some (s.hufBitAt k) := by
  simp [State.hufComp, h]

/-! ### Values of little-endian words (R62, R64) -/

theorem toNat_append_byte {n : Nat} (x : BitVec n) (b : Byte) : (x ++ b).toNat = b.toNat + 0x100 * x.toNat := by
  rw [BitVec.toNat_append, ← Nat.shiftLeft_add_eq_or_of_lt b.isLt, Nat.shiftLeft_eq]
  omega

theorem wordOfBytes_toNat (b0 b1 b2 b3 : Byte) :
    (wordOfBytes b0 b1 b2 b3).toNat =
      b0.toNat + 0x100 * b1.toNat + 0x10000 * b2.toNat + 0x1000000 * b3.toNat := by
  rw [wordOfBytes, toNat_append_byte, toNat_append_byte, toNat_append_byte]
  omega

/-- The symbol is the byte at the lowest address, the count the three bytes above it (R64). -/
theorem Part.ofWord_wordOfBytes (b0 b1 b2 b3 : Byte) :
    Part.ofWord (wordOfBytes b0 b1 b2 b3) = ⟨b0, b1.toNat + 0x100 * b2.toNat + 0x10000 * b3.toNat⟩ := by
  have hcount : (b3 ++ b2 ++ b1).toNat = b1.toNat + 0x100 * b2.toNat + 0x10000 * b3.toNat := by
    rw [toNat_append_byte, toNat_append_byte]
    omega
  rw [Part.ofWord, wordOfBytes, BitVec.extractLsb'_append_eq_right, BitVec.extractLsb'_append_eq_left, hcount]

/-! ### The bits of the last byte (R65) -/

/-- Over the whole of its last byte, a window that holds packed bits reads as the bits and then 0. -/
theorem State.hufBitAt_packBits {s : State} {bits : List Bool} (hm : s.huf.comp = Mem.ofBytes 0 (packBits bits)) {k : Nat}
    (hk : k < 8 * ((bits.length + 7) / 8)) : s.hufBitAt k = bits.getD k false := by
  have hj : k / 8 < (packBits bits).length := by rw [packBits_length]; omega
  have hp : (packBits bits)[k / 8] = packedByte bits (k / 8) := by simp [packBits]
  rw [State.hufBitAt, State.byteAt_ofBytes (w := ⟨.huf, .comp⟩) hm hj, hp,
    packedByte_getLsbD bits (k / 8) (k % 8) (Nat.mod_lt _ (by omega)), Nat.div_add_mod]

/-! ### What `HUF.ENC` writes -/

/-- Codes of at most `m` bits make an output of at most `m` bits a byte (R8). -/
theorem hufEncode_length_le {code : Byte → Option (List Bool)} {m : Nat} (hcode : ∀ b bits, code b = some bits → bits.length ≤ m)
    {l : List Byte} {out : List Bool} (h : hufEncode code 0 l [] = .ok out) : out.length ≤ l.length * m := by
  obtain ⟨-, rfl⟩ := hufEncode_ok_iff h
  have hbyte (b : Byte) : ((code b).getD []).length ≤ m := by
    cases hb : code b with
    | none => simp
    | some bits => exact hcode b bits hb
  rw [List.nil_append, List.length_flatMap]
  simpa using List.sum_le_card_nsmul (l.map fun b => ((code b).getD []).length) m (by simpa using fun b _ => hbyte b)

/-- A `HUF.ENC` without fault has passed its checks and has written the packed output of the encoder (R145). -/
theorem exec_hufEnc_without_fault {s t : State} (h : exec .hufEnc s = .next t) (hf : t.fault = false) :
    s.huf.textLen.toNat ≤ s.params.cap ∧ ∃ out, hufEncode s.codeOf 0 (s.textOf .huf) [] = .ok out ∧
      t.huf.compLen = BitVec.ofNat 32 out.length ∧ t.huf.comp = Mem.ofBytes 0 (packBits out) := by
  rw [exec_hufEnc] at h
  obtain rfl := Host.Outcome.next.inj h
  split at hf
  · cases hf
  split at hf
  · cases hf
  rename_i hphase hlen
  rw [if_neg hphase, if_neg hlen]
  split at hf
  · cases hf
  · rename_i out hout
    rw [hout]
    exact ⟨Nat.le_of_not_lt hlen, out, rfl, rfl, rfl⟩

/-- The output of `HUF.ENC` is short enough for COMP_LEN to count its bits (R8, R9). -/
theorem hufEncode_length_lt {s : State} (hs : s.memInv) (hlen : s.huf.textLen.toNat ≤ s.params.cap) {out : List Bool}
    (h : hufEncode s.codeOf 0 (s.textOf .huf) [] = .ok out) : out.length < 2 ^ 32 := by
  obtain ⟨hparams, -, hcodes⟩ := hs
  have hcap := cap_lt hparams
  have hout := hufEncode_length_le hcodes h
  rw [State.textOf_length] at hout
  have htext : (s.unit .huf).textLen.toNat ≤ s.params.cap := hlen
  omega

/-- The unused low bits of the last byte of `HUF.COMP` are 0 after a `HUF.ENC` without fault (R65). -/
theorem hufEnc_padding_zero {s t : State} (hs : s.memInv) (h : exec .hufEnc s = .next t) (hf : t.fault = false) {k : Nat}
    (hk : t.huf.compLen.toNat ≤ k) (hk' : k < 8 * ((t.huf.compLen.toNat + 7) / 8)) : t.hufBitAt k = false := by
  obtain ⟨hlen, out, hout, hcl, hcomp⟩ := exec_hufEnc_without_fault h hf
  rw [hcl, toNat_length (hufEncode_length_lt hs hlen hout)] at hk hk'
  rw [State.hufBitAt_packBits hcomp hk']
  exact List.getD_eq_default _ _ hk

/-- Settles O54: every logical buffer lists the elements of its window by their index, words being little-endian; the bits
behind the last one of a `HUF.ENC` are those the packing fills up with. -/
theorem elementLayouts : Obligations.ElementLayouts := by
  unfold Obligations.ElementLayouts
  refine ⟨fun s u i hi => s.bytes_getElem? _ hi, fun s u i hi => s.bytes_getElem? _ hi, fun s i hi => s.bytes_getElem? _ hi,
    fun s k hk => ?rle, fun s k hk => ?lzw, fun s k hk => s.hufComp_getElem? hk,
    fun s t k hs _ h hf hk hk' => hufEnc_padding_zero hs h hf hk hk'⟩
  case rle => rw [s.rleComp_getElem? hk, State.wordAt, Part.ofWord_wordOfBytes]
  case lzw => rw [s.lzwComp_getElem? hk, State.wordAt, wordOfBytes_toNat]

end Sys2Proof.Machine
end

