-- ==== Sys2Proof/Proofs/Encoding.lean ====
section
/-! SUPPORT. The command word as its fields (spec/30_encoding.md R90), the opcode map as the set of the commands' encodings
(R94, R96), and which words select no command (R95). -/

namespace Sys2Proof

/-! ### The fields of a word (R90) -/

theorem CommandFields.word_eq (f : CommandFields) : f.word = f.rsv ++ (f.unit ++ f.fn) := BitVec.append_assoc

@[simp] theorem CommandFields.word_rsv (f : CommandFields) : f.word.extractLsb' 8 24 = f.rsv := by
  rw [CommandFields.word_eq, BitVec.extractLsb'_append_eq_left]

/-- The opcode is `unit` and `fn` side by side. -/
@[simp] theorem CommandFields.word_opcode (f : CommandFields) : f.word.extractLsb' 0 8 = f.unit ++ f.fn := by
  rw [CommandFields.word_eq, BitVec.extractLsb'_append_eq_right]

/-- A word is known by its reserved bits and its opcode. -/
theorem word_ext {v w : Word} (hrsv : v.extractLsb' 8 24 = w.extractLsb' 8 24)
    (hop : v.extractLsb' 0 8 = w.extractLsb' 0 8) : v = w := by
  rw [← BitVec.extractLsb'_append_extractLsb' (w := 24) (len := 8) (x := v), hrsv, hop,
    BitVec.extractLsb'_append_extractLsb']

/-- Different fields make different words. -/
theorem CommandFields.word_injective : Function.Injective CommandFields.word := by
  rintro ⟨rsv, unit, fn⟩ ⟨rsv', unit', fn'⟩ h
  have hrsv := congrArg (BitVec.extractLsb' 8 24) h
  have hop := congrArg (BitVec.extractLsb' 0 8) h
  rw [CommandFields.word_rsv, CommandFields.word_rsv] at hrsv
  rw [CommandFields.word_opcode, CommandFields.word_opcode] at hop
  have hunit := congrArg (BitVec.extractLsb' 4 4) hop
  have hfn := congrArg (BitVec.extractLsb' 0 4) hop
  rw [BitVec.extractLsb'_append_eq_left, BitVec.extractLsb'_append_eq_left] at hunit
  rw [BitVec.extractLsb'_append_eq_right, BitVec.extractLsb'_append_eq_right] at hfn
  rw [CommandFields.mk.injEq]
  exact ⟨hrsv, hunit, hfn⟩

/-- A byte as a word: its reserved bits are 0 and its opcode is the byte. -/
theorem eq_setWidth_iff {w : Word} {b : Byte} :
    w = b.setWidth 32 ↔ w.extractLsb' 8 24 = 0 ∧ w.extractLsb' 0 8 = b := by
  have hb : b.setWidth 32 = (0 : BitVec 24) ++ b := BitVec.setWidth_eq_append (by decide)
  have hrsv : (b.setWidth 32).extractLsb' 8 24 = 0 := by rw [hb, BitVec.extractLsb'_append_eq_left]
  have hop : (b.setWidth 32).extractLsb' 0 8 = b := by rw [hb, BitVec.extractLsb'_append_eq_right]
  constructor
  · rintro rfl
    exact ⟨hrsv, hop⟩
  · rintro ⟨h, h'⟩
    exact word_ext (h.trans hrsv.symm) (h'.trans hop.symm)

/-! ### The opcode map (R94) -/

/-- The opcodes of R94. -/
def opcodes : List Byte := [0x0F, 0x10, 0x11, 0x20, 0x21, 0x22, 0x30, 0x31, 0x40, 0x41, 0x50, 0x51]

theorem opcodes_eq : opcodes = opcodeRows.map fun row => row.word.extractLsb' 0 8 := by decide

/-- The rows are the commands with their encodings: the `word` column agrees with the `unit` and `fn` columns. -/
theorem mem_opcodeRows {w : Word} {i : Instr} : ⟨w, i⟩ ∈ opcodeRows ↔ w = encode i := by
  constructor
  · have h : ∀ row ∈ opcodeRows, row.word = encode row.instr := by decide
    exact h ⟨w, i⟩
  · rintro rfl
    cases i <;> decide

/-- Decoding undoes encoding. -/
theorem decode_encode (i : Instr) : decode (encode i) = some i := by cases i <;> rfl

/-- A word selects a command exactly if it is the command's encoding (R96). -/
theorem decode_eq_some_iff {w : Word} {i : Instr} : decode w = some i ↔ w = encode i :=
  ⟨Machine.decode_sound, fun h => h ▸ decode_encode i⟩

theorem encode_rsv (i : Instr) : (encode i).extractLsb' 8 24 = 0 := by
  rw [encode, CommandFields.word_rsv]
  cases i <;> rfl

theorem mem_opcodes {b : Byte} : b ∈ opcodes ↔ ∃ i, b = (encode i).extractLsb' 0 8 := by
  rw [opcodes_eq, List.mem_map]
  constructor
  · rintro ⟨⟨w, i⟩, hrow, rfl⟩
    exact ⟨i, by rw [mem_opcodeRows.1 hrow]⟩
  · rintro ⟨i, rfl⟩
    exact ⟨⟨encode i, i⟩, mem_opcodeRows.2 rfl, rfl⟩

/-! ### Selected and unselected words (R95) -/

/-- A word selects a command exactly if its reserved bits are 0 and its opcode is one of the twelve. -/
theorem selects_iff {w : Word} :
    (∃ i, decode w = some i) ↔ w.extractLsb' 8 24 = 0 ∧ w.extractLsb' 0 8 ∈ opcodes := by
  simp only [decode_eq_some_iff]
  constructor
  · rintro ⟨i, rfl⟩
    exact ⟨encode_rsv i, mem_opcodes.2 ⟨i, rfl⟩⟩
  · rintro ⟨hrsv, hop⟩
    obtain ⟨i, hi⟩ := mem_opcodes.1 hop
    exact ⟨i, word_ext (hrsv.trans (encode_rsv i).symm) hi⟩

theorem decode_eq_none_iff {w : Word} :
    decode w = none ↔ w.extractLsb' 8 24 ≠ 0 ∨ w.extractLsb' 0 8 ∉ opcodes := by
  rw [← not_iff_not, ← ne_eq, Option.ne_none_iff_exists', selects_iff]
  tauto

theorem decodeWord_reservedBitsSet_iff {w : Word} :
    decodeWord w = .error .reservedBitsSet ↔ w.extractLsb' 8 24 ≠ 0 := by
  constructor
  · intro h
    rw [decodeWord] at h
    split at h
    · cases h
    · split at h
      · cases h
      · assumption
  · intro h
    rw [decodeWord, decode_eq_none_iff.2 (.inl h)]
    exact if_neg h

theorem decodeWord_unknownOpcode_iff {w : Word} {b : Byte} :
    decodeWord w = .error (.unknownOpcode b) ↔ w = b.setWidth 32 ∧ b ∉ opcodes := by
  rw [eq_setWidth_iff]
  constructor
  · intro h
    rw [decodeWord] at h
    split at h
    · cases h
    · rename_i hnone
      split at h
      · rename_i hrsv
        cases h
        exact ⟨⟨hrsv, rfl⟩, (decode_eq_none_iff.1 hnone).resolve_left fun hne => hne hrsv⟩
      · cases h
  · rintro ⟨⟨hrsv, rfl⟩, hop⟩
    rw [decodeWord, decode_eq_none_iff.2 (.inr hop)]
    exact if_pos hrsv

/-! ### Well-formed fields -/

/-- The two functions of the RLE, BWT, LZW and composite groups. -/
theorem eq_zero_or_one_of_toNat_le {fn : BitVec 4} (h : decide (fn.toNat ≤ 1) = true) : fn = 0 ∨ fn = 1 := by
  have := of_decide_eq_true h
  bv_omega

/-- The three functions of the HUF group. -/
theorem eq_zero_or_one_or_two_of_toNat_le {fn : BitVec 4} (h : decide (fn.toNat ≤ 2) = true) :
    fn = 0 ∨ fn = 1 ∨ fn = 2 := by
  have := of_decide_eq_true h
  bv_omega

theorem eq_of_unitKnown {rsv : BitVec 24} {unit fn : BitVec 4} (h : (CommandFields.mk rsv unit fn).unitKnown = true) :
    unit = 0 ∨ unit = 1 ∨ unit = 2 ∨ unit = 3 ∨ unit = 4 ∨ unit = 5 := by
  have : unit.toNat ≤ 5 := of_decide_eq_true h
  bv_omega

/-- Well-formed fields are those of a command: in each unit group, the functions R94 has for it. -/
theorem CommandFields.wf_iff {f : CommandFields} : f.wf = true ↔ ∃ i : Instr, f = i.fields := by
  constructor
  · obtain ⟨rsv, unit, fn⟩ := f
    intro h
    rw [CommandFields.wf, Bool.and_eq_true, Bool.and_eq_true] at h
    obtain ⟨⟨hrsv, hunit⟩, hfn⟩ := h
    obtain rfl : rsv = 0 := eq_of_beq hrsv
    obtain rfl | rfl | rfl | rfl | rfl | rfl := eq_of_unitKnown hunit
    · obtain rfl : fn = 0xF := eq_of_beq hfn
      exact ⟨.blkRst, rfl⟩
    · obtain rfl | rfl := eq_zero_or_one_of_toNat_le hfn
      · exact ⟨.rleEnc, rfl⟩
      · exact ⟨.rleDec, rfl⟩
    · obtain rfl | rfl | rfl := eq_zero_or_one_or_two_of_toNat_le hfn
      · exact ⟨.hufBuild, rfl⟩
      · exact ⟨.hufEnc, rfl⟩
      · exact ⟨.hufDec, rfl⟩
    · obtain rfl | rfl := eq_zero_or_one_of_toNat_le hfn
      · exact ⟨.bwtFwd, rfl⟩
      · exact ⟨.bwtInv, rfl⟩
    · obtain rfl | rfl := eq_zero_or_one_of_toNat_le hfn
      · exact ⟨.lzwEnc, rfl⟩
      · exact ⟨.lzwDec, rfl⟩
    · obtain rfl | rfl := eq_zero_or_one_of_toNat_le hfn
      · exact ⟨.bwtrleEnc, rfl⟩
      · exact ⟨.bwtrleDec, rfl⟩
  · rintro ⟨i, rfl⟩
    cases i <;> rfl

/-- Fields pass the check exactly if their word selects a command. -/
theorem CommandFields.wf_iff_selects {f : CommandFields} : f.wf = true ↔ ∃ i, decode f.word = some i := by
  simp only [decode_eq_some_iff, encode, CommandFields.word_injective.eq_iff]
  exact CommandFields.wf_iff

/-- Settles O2: the decoder's table is the set of the commands' encodings, and a word is told from its reserved bits and its
opcode. -/
theorem decodeIsExactlyTheTable : Obligations.DecodeIsExactlyTheTable := by
  unfold Obligations.DecodeIsExactlyTheTable
  refine ⟨fun w i => ?rows, fun _ _ => decode_eq_some_iff, fun _ => CommandFields.wf_iff_selects,
    fun _ => decodeWord_reservedBitsSet_iff, fun _ _ => decodeWord_unknownOpcode_iff⟩
  case rows =>
    rw [decode_eq_some_iff, ← mem_opcodeRows]
    simp [opcodeRows]

end Sys2Proof
end

