-- ==== Sys2Proof/Proofs/Selection.lean ====
section
/-! SUPPORT. The SEL_ERR flag: set by a CMD write that selects no command (spec/30_encoding.md R92, R95), cleared by every
command that is executed (spec/60_exceptions.md R252). -/

namespace Sys2Proof.Machine

/-! ### A CMD write that selects no command -/

/-- Case 3 of R92. -/
theorem issue_unselected {w : Word} {s : State} (hf : s.fault = false) (hd : decode w = none) :
    issue w s = .answered (.next s.selectionError) := by
  have hw : w ≠ 0x0000000F := by
    rintro rfl
    cases hd.symm.trans decode_blkRst
  rw [issue, if_neg hw, hf, hd]
  rfl

theorem step_unselected {s : State} {w : Word} {rest : List HostAction} (h : s.host = .write s.params.base 4 w :: rest)
    (hb : s.busy = false) (hf : s.fault = false) (hd : decode w = none) :
    step s = .next (s.takeAction rest).selectionError := by
  rw [step_cmdWrite h hb, issue_unselected (s := s.takeAction rest) hf hd]

/-! ### Every command clears SEL_ERR -/

theorem selErr_ite {c : Prop} [Decidable c] {t u : State} (ht : t.selErr = false) (hu : u.selErr = false) :
    (if c then t else u).selErr = false := by
  split
  · exact ht
  · exact hu

theorem State.afterRleEnc_selErr (s : State) : s.afterRleEnc.selErr = false := by
  rw [State.afterRleEnc]
  exact selErr_ite rfl rfl

theorem State.afterRleDec_selErr (s : State) : s.afterRleDec.selErr = false := by
  rw [State.afterRleDec]
  exact selErr_ite rfl (by split <;> rfl)

theorem State.afterBwtFwd_selErr (s : State) : s.afterBwtFwd.selErr = false := by
  rw [State.afterBwtFwd]
  exact selErr_ite rfl (selErr_ite rfl (selErr_ite rfl rfl))

theorem State.afterBwtInv_selErr (s : State) : s.afterBwtInv.selErr = false := by
  rw [State.afterBwtInv]
  exact selErr_ite rfl (by split <;> rfl)

theorem State.afterCheckedBwtInv_selErr (s : State) : s.afterCheckedBwtInv.selErr = false := by
  rw [State.afterCheckedBwtInv]
  exact selErr_ite rfl (selErr_ite rfl s.afterBwtInv_selErr)

/-- An executed command goes on to a state with SEL_ERR 0, whether it completes or faults. -/
theorem exec_clears_selErr (i : Instr) (s : State) : ∃ t, exec i s = .next t ∧ t.selErr = false := by
  cases i with
  | blkRst => exact ⟨_, exec_blkRst s, rfl⟩
  | rleEnc => exact ⟨_, exec_rleEnc s, selErr_ite rfl s.afterRleEnc_selErr⟩
  | rleDec => exact ⟨_, exec_rleDec s, selErr_ite rfl s.afterRleDec_selErr⟩
  | hufBuild => exact ⟨_, exec_hufBuild s, selErr_ite rfl (selErr_ite rfl rfl)⟩
  | hufEnc => exact ⟨_, exec_hufEnc s, selErr_ite rfl (selErr_ite rfl (by split <;> rfl))⟩
  | hufDec => exact ⟨_, exec_hufDec s, selErr_ite rfl (selErr_ite rfl (by split <;> rfl))⟩
  | bwtFwd => exact ⟨_, exec_bwtFwd s, selErr_ite rfl s.afterBwtFwd_selErr⟩
  | bwtInv => exact ⟨_, exec_bwtInv s, selErr_ite rfl s.afterBwtInv_selErr⟩
  | lzwEnc => exact ⟨_, exec_lzwEnc s, selErr_ite rfl (selErr_ite rfl rfl)⟩
  | lzwDec => exact ⟨_, exec_lzwDec s, selErr_ite rfl (selErr_ite rfl (by split <;> rfl))⟩
  | bwtrleEnc =>
    exact ⟨_, exec_bwtrleEnc s, selErr_ite rfl (selErr_ite (State.afterRleEnc_selErr _) s.afterBwtFwd_selErr)⟩
  | bwtrleDec =>
    exact ⟨_, exec_bwtrleDec s, selErr_ite rfl (selErr_ite (State.afterCheckedBwtInv_selErr _) s.afterRleDec_selErr)⟩

/-- Settles O5: such a word decodes to nothing, so the write is answered by the selection error; and every command that is
executed goes on to a state with SEL_ERR 0. -/
theorem unselectedWordSetsSelErr : Obligations.UnselectedWordSetsSelErr := by
  unfold Obligations.UnselectedWordSetsSelErr
  refine ⟨fun s w rest h hb hf hw => step_unselected h hb hf (decode_eq_none_iff.2 hw), fun s t i h => ?_⟩
  obtain ⟨u, hu, hsel⟩ := exec_clears_selErr i s
  cases hu.symm.trans h
  exact hsel

end Sys2Proof.Machine
end

