-- ==== Sys2Proof/Proofs/HuffmanRoundTrip.lean ====
section
/-! SUPPORT. `HUF.BUILD`, `HUF.ENC`, `HUF.DEC` one after the other on one text (spec/40_huffman.md R150): the state each
leaves when nothing faults, and what of it the next one reads. -/

namespace Sys2Proof.Machine

/-! ### The states the three commands complete in -/

/-- After a `HUF.BUILD` whose merge loop leaves `tree` (R140). -/
def State.hufBuilt (s : State) (tree : List Node × List Nat) : State :=
  { s.ended with
    huf := { s.huf with phase := .codesGenerated }
    hufFreq := frequencies (s.textOf .huf)
    hufNode := tree.1
    hufNnodes := BitVec.ofNat 10 tree.1.length
    hufRoot := rootOf tree.2
    hufCode := codeTable (treeCodes tree.1 (rootId (rootOf tree.2))) }

/-- After a `HUF.ENC` whose output is `bits` (R145). -/
def State.hufEncoded (s : State) (bits : List Bool) : State :=
  { s.ended with
    huf := { s.huf with
      phase := .encoded
      compLen := BitVec.ofNat 32 bits.length
      comp := Mem.ofBytes 0 (packBits bits) } }

/-- After a `HUF.DEC` whose output is `out` (R148). -/
def State.hufDecoded (s : State) (out : List Byte) : State :=
  { s.ended with
    huf := { s.huf with
      phase := .decoded
      decompLen := BitVec.ofNat 32 out.length
      decomp := Mem.ofBytes 0 out } }

theorem exec_hufBuild_eq_hufBuilt {s : State} (hp : s.huf.phase = .idle) (hl : s.huf.textLen.toNat ≤ s.params.cap) :
    exec .hufBuild s = .next (s.hufBuilt s.builtTree) :=
  exec_hufBuild_passes (by simp [inPhase, requiredPhases, hp]) hl

theorem exec_hufEnc_eq_hufEncoded {s : State} {bits : List Bool} (hp : s.huf.phase = .codesGenerated)
    (hl : s.huf.textLen.toNat ≤ s.params.cap) (h : hufEncode s.codeOf 0 (s.textOf .huf) [] = .ok bits) :
    exec .hufEnc s = .next (s.hufEncoded bits) := by
  rw [exec_hufEnc, if_neg (not_not_intro hp), if_neg (Nat.not_lt.2 hl), h]
  rfl

theorem exec_hufDec_eq_hufDecoded {s : State} {out : List Byte} (hp : s.huf.phase = .encoded)
    (hl : s.huf.compLen.toNat ≤ s.params.hufBitsCap)
    (h : hufDecode s.nodeAt s.params.cap s.hufRoot s.hufComp = .ok out) :
    exec .hufDec s = .next (s.hufDecoded out) := by
  rw [exec_hufDec, if_neg (not_not_intro hp), if_neg (Nat.not_lt.2 hl), h]
  rfl

/-! ### What the next command reads -/

@[simp] theorem State.hufBuilt_hufNode (s : State) (tree : List Node × List Nat) :
    (s.hufBuilt tree).hufNode = tree.1 := rfl

@[simp] theorem State.hufBuilt_hufRoot (s : State) (tree : List Node × List Nat) :
    (s.hufBuilt tree).hufRoot = rootOf tree.2 := rfl

/-- The codes of the stored table are those of the built tree. -/
theorem State.codeOf_hufBuilt (s : State) : (s.hufBuilt s.builtTree).codeOf =
    builtCode s.params.hufTie (Config.tieChoice s.draw) (frequencies (s.textOf .huf)) :=
  funext (codeTable_built s)

/-- Every byte of the text has a code (R40), so the text can be encoded. -/
theorem hufEncode_hufBuilt (s : State) :
    ∃ bits, hufEncode (s.hufBuilt s.builtTree).codeOf 0 (s.textOf .huf) [] = .ok bits := by
  refine ⟨_, hufEncode_ok 0 _ [] fun b hb => ?_⟩
  rw [s.codeOf_hufBuilt, builtCode_isSome, frequencies_get]
  exact List.count_pos_iff.2 hb

/-- The bits of an encoded text fit in COMP (R137, R8), and every state that still holds the nodes of the tree decodes
them to the text (R150). -/
theorem hufDecode_of_hufEncode_hufBuilt {s t : State} {bits : List Bool} (hl : s.huf.textLen.toNat ≤ s.params.cap)
    (henc : hufEncode (s.hufBuilt s.builtTree).codeOf 0 (s.textOf .huf) [] = .ok bits)
    (ht : t.hufNode = (s.hufBuilt s.builtTree).hufNode) :
    bits.length ≤ s.params.hufBitsCap ∧
      hufDecode t.nodeAt s.params.cap (s.hufBuilt s.builtTree).hufRoot bits = .ok (s.textOf .huf) := by
  rw [State.hufBuilt_hufNode] at ht
  rw [State.hufBuilt_hufRoot]
  have htext : (s.textOf .huf).length ≤ s.params.cap := (State.textOf_length s .huf).trans_le hl
  have hnode : ∀ i n, s.builtTree.1[i]? = some n → t.nodeAt i = n := fun i n h => nodeAt_eq i n (by rwa [ht])
  obtain ⟨out, hout, hlen, hdec⟩ := hufDecode_hufEncode s.params.hufTie (Config.tieChoice s.draw) _ htext hnode
  rw [s.codeOf_hufBuilt, hout] at henc
  cases henc
  exact ⟨hlen.trans (Nat.mul_le_mul_left 255 htext), hdec⟩

/-- COMP_LEN counts as many bits as COMP holds (R8, R9). -/
theorem hufBitsCap_lt {p : Params} (h : p.maxLenOk = true) : p.hufBitsCap < 2 ^ 32 := by
  have hcap := cap_lt h
  rw [Params.hufBitsCap]
  omega

/-! ### The run -/

section
variable {s : State} {rest : List HostAction} (hb : s.busy = false) (hf : s.fault = false)
include hb hf

theorem step_hufBuild (hhost : s.host = cmdWrite s.params .hufBuild :: rest) (hp : s.huf.phase = .idle)
    (hl : s.huf.textLen.toNat ≤ s.params.cap) :
    step s = .next ((s.takeAction rest).hufBuilt (s.takeAction rest).builtTree) :=
  (step_cmdWritten hhost hb hf).trans (exec_hufBuild_eq_hufBuilt hp hl)

/-- The command reads the text after its own host action, which leaves a written text as it is (R290). -/
theorem step_hufEnc (hhost : s.host = cmdWrite s.params .hufEnc :: rest) (hp : s.huf.phase = .codesGenerated)
    (hl : s.huf.textLen.toNat ≤ s.params.cap) (hw : s.written ⟨.huf, .text⟩ s.huf.textLen.toNat) {bits : List Bool}
    (henc : hufEncode s.codeOf 0 (s.textOf .huf) [] = .ok bits) :
    step s = .next ((s.takeAction rest).hufEncoded bits) := by
  rw [step_cmdWritten hhost hb hf]
  refine exec_hufEnc_eq_hufEncoded hp hl ?_
  rw [textOf_takeAction rest rfl hw]
  exact henc

/-- The command reads from COMP the bits an encoder has packed into it (R65). -/
theorem step_hufDec (hhost : s.host = cmdWrite s.params .hufDec :: rest) (hm : s.params.maxLenOk = true)
    (hp : s.huf.phase = .encoded) {bits : List Bool} (hl : bits.length ≤ s.params.hufBitsCap)
    (hcomp : s.huf.comp = Mem.ofBytes 0 (packBits bits)) (hlen : s.huf.compLen = BitVec.ofNat 32 bits.length)
    {out : List Byte} (hdec : hufDecode (s.takeAction rest).nodeAt s.params.cap s.hufRoot bits = .ok out) :
    step s = .next ((s.takeAction rest).hufDecoded out) := by
  have hlt := hl.trans_lt (hufBitsCap_lt hm)
  have hbits : (s.takeAction rest).hufComp = bits := State.hufComp_eq hcomp hlen hlt
  have hcl : s.huf.compLen.toNat ≤ s.params.hufBitsCap := by rwa [hlen, toNat_length hlt]
  rw [step_cmdWritten hhost hb hf]
  refine exec_hufDec_eq_hufDecoded hp hcl ?_
  rw [hbits]
  exact hdec

/-- Where the codes and the stored tree agree on the text, encoding and decoding it gives it back. -/
theorem runSteps_hufEnc_hufDec (hm : s.params.maxLenOk = true)
    (hhost : s.host = cmdWrites s.params [.hufEnc, .hufDec] ++ rest)
    (hp : s.huf.phase = .codesGenerated) (hl : s.huf.textLen.toNat ≤ s.params.cap)
    (hw : s.written ⟨.huf, .text⟩ s.huf.textLen.toNat) {bits : List Bool} (hbits : bits.length ≤ s.params.hufBitsCap)
    (henc : hufEncode s.codeOf 0 (s.textOf .huf) [] = .ok bits)
    (hdec : ∀ t : State, t.hufNode = s.hufNode →
      hufDecode t.nodeAt s.params.cap s.hufRoot bits = .ok (s.textOf .huf)) :
    ∃ t, runSteps 2 s = .next t ∧ t.host = rest ∧ t.fault = false ∧ t.done = true ∧ t.huf.phase = .decoded ∧
      t.decompOf .huf = s.textOf .huf := by
  have h₁ := step_hufEnc (rest := cmdWrites s.params [.hufDec] ++ rest) hb hf hhost hp hl hw henc
  have h₂ := step_hufDec (s := (s.takeAction (cmdWrites s.params [.hufDec] ++ rest)).hufEncoded bits) (rest := rest)
    rfl hf rfl hm rfl hbits rfl rfl (hdec _ rfl)
  exact ⟨_, (runSteps_succ 1 _ _ h₁).trans (runSteps_succ 0 _ _ h₂), rfl, hf, rfl, rfl,
    decompOf_written hm ((State.textOf_length s .huf).trans_le hl) rfl rfl⟩

end

/-- `HUF.BUILD` leaves codes and a tree that agree on its text, whatever its ties do. -/
theorem runSteps_hufBuilt {s : State} {rest : List HostAction} (hm : s.params.maxLenOk = true) (hf : s.fault = false)
    (hhost : s.host = cmdWrites s.params [.hufEnc, .hufDec] ++ rest) (hl : s.huf.textLen.toNat ≤ s.params.cap)
    (hw : s.written ⟨.huf, .text⟩ s.huf.textLen.toNat) :
    ∃ t, runSteps 2 (s.hufBuilt s.builtTree) = .next t ∧ t.host = rest ∧ t.fault = false ∧ t.done = true ∧
      t.huf.phase = .decoded ∧ t.decompOf .huf = s.textOf .huf := by
  obtain ⟨bits, henc⟩ := hufEncode_hufBuilt s
  have hdec {t : State} := hufDecode_of_hufEncode_hufBuilt (t := t) hl henc
  exact runSteps_hufEnc_hufDec (s := s.hufBuilt s.builtTree) rfl hf hm hhost rfl hl hw (hdec rfl).1 henc
    fun t ht => (hdec ht).2

/-- Settles O40: the text, being written, is the same before the step of `HUF.BUILD` and after it, and `HUF.ENC` and
`HUF.DEC` give it back. -/
theorem roundTripHuffman : Obligations.RoundTripHuffman := by
  unfold Obligations.RoundTripHuffman
  intro s rest hm hb hf hhost hp hl hw
  have hbuild := step_hufBuild (rest := cmdWrites s.params [.hufEnc, .hufDec] ++ rest) hb hf hhost hp hl
  obtain ⟨t, hrun, hrest, hfault, hdone, hphase, hout⟩ :=
    runSteps_hufBuilt (s := s.takeAction (cmdWrites s.params [.hufEnc, .hufDec] ++ rest)) hm hf rfl hl hw
  exact ⟨t, (runSteps_succ 2 _ _ hbuild).trans hrun, hrest, hfault, hdone, hphase,
    hout.trans (textOf_takeAction _ rfl hw)⟩

end Sys2Proof.Machine
end

