-- ==== Sys2Proof/Proofs/BwtTransform.lean ====
section
/-! SUPPORT. The order of suffixes and the columns of the Burrows-Wheeler transform as the spec states them
(spec/41_bwt.md R163, R166, R168, R169), when the inverse of R171 answers a text, and the transform and its inverse with
their short cuts on nothing (R165, R171). -/

namespace Sys2Proof.Machine

/-! ### The order of suffixes (R163) -/

theorem map_toNat_prefix_iff {a b : List Byte} :
    a.map BitVec.toNat <+: b.map BitVec.toNat ↔ ∀ i, i < a.length → a[i]? = b[i]? := by
  rw [List.prefix_map_iff_of_injective fun _ _ => BitVec.eq_of_toNat_eq, List.prefix_iff_getElem?]
  refine forall₂_congr fun i hi => ?_
  rw [List.getElem?_eq_getElem hi, eq_comm]

/-- Settles O26: `lexLt` is the lexicographic order of the byte values, which Mathlib describes by the first difference. -/
theorem lexLtIsTheSpecs : Obligations.LexLtIsTheSpecs := by
  unfold Obligations.LexLtIsTheSpecs
  intro a b
  rw [lexLt_iff, List.lt_iff_exists, ← List.prefix_iff_eq_take, map_toNat_prefix_iff]
  simp only [List.length_map, List.getElem_map]
  constructor
  · rintro (⟨hprefix, hlen⟩ | ⟨j, ha, hb, hbefore, hlt⟩)
    · exact ⟨a.length, hprefix, .inr ⟨rfl, hlen⟩⟩
    · refine ⟨j, fun i hi => ?_, .inl ⟨a[j], b[j], List.getElem?_eq_getElem ha, List.getElem?_eq_getElem hb, hlt⟩⟩
      rw [List.getElem?_eq_getElem (hi.trans ha), List.getElem?_eq_getElem (hi.trans hb),
        BitVec.eq_of_toNat_eq (hbefore i hi)]
  · rintro ⟨j, hbefore, ⟨x, y, hx, hy, hlt⟩ | ⟨rfl, hlen⟩⟩
    · obtain ⟨ha, rfl⟩ := List.getElem?_eq_some_iff.1 hx
      obtain ⟨hb, rfl⟩ := List.getElem?_eq_some_iff.1 hy
      refine .inr ⟨j, ha, hb, fun i hi => ?_, hlt⟩
      have h := hbefore i hi
      rw [List.getElem?_eq_getElem (hi.trans ha), List.getElem?_eq_getElem (hi.trans hb)] at h
      exact congrArg BitVec.toNat (Option.some.inj h)
    · exact .inl ⟨hbefore, hlen⟩

/-! ### The columns of the sorted rotations (R164, R166) -/

/-- `lex_lt(S[SUFIDX[r] ..], S[SUFIDX[r+1] ..])`. -/
theorem lexLt_suffixIndices {ext : List Byte} {r i j : Nat} (hi : (suffixIndices ext)[r]? = some i)
    (hj : (suffixIndices ext)[r + 1]? = some j) : lexLt (ext.drop i) (ext.drop j) = true := by
  obtain ⟨hr, rfl⟩ := List.getElem?_eq_some_iff.1 hi
  obtain ⟨hr', rfl⟩ := List.getElem?_eq_some_iff.1 hj
  exact (lexLt_iff _ _).2 (List.pairwise_iff_getElem.1 (suffixIndices_sorted ext) r (r + 1) hr hr' r.lt_succ_self)

/-- The character before offset 0 is the sentinel, that before any other offset its neighbour (R166). -/
theorem Terminated.charBefore {t ext : List Byte} {c : Byte} (h : Terminated t c ext) {i : Nat} (hi : i < ext.length) :
    some (charBefore ext i) = if i = 0 then some c else ext[i - 1]? := by
  rw [← charBefore_eq hi]
  split
  next h0 =>
    rw [h0, Nat.zero_add, Nat.mod_eq_of_lt (Nat.sub_lt h.pos Nat.one_pos), h.getLast]
  next h0 =>
    rw [show i + ext.length - 1 = i - 1 + ext.length by omega, Nat.add_mod_right, Nat.mod_eq_of_lt (by omega)]

theorem Terminated.lastColumn_getElem? {t ext : List Byte} {c : Byte} (h : Terminated t c ext) {r i : Nat}
    (hr : (suffixIndices ext)[r]? = some i) : (lastColumn ext)[r]? = if i = 0 then some c else ext[i - 1]? := by
  rw [← h.charBefore (mem_suffixIndices.1 (List.mem_of_getElem? hr)), lastColumn, List.getElem?_map, hr, Option.map_some]

/-! ### The sorted column and LSHIFT (R168, R169) -/

/-- `L[LSHIFT[r]] = F[r]`. -/
theorem getElem?_positionsByByte {l : List Byte} {r i : Nat} (h : (positionsByByte l)[r]? = some i) :
    l[i]? = (sortedColumn l)[r]? := by
  have hi := mem_positionsByByte.1 (List.mem_of_getElem? h)
  rw [sortedColumn_eq, List.getElem?_map, h, Option.map_some, List.getD_eq_getElem?_getD, List.getElem?_eq_getElem hi,
    Option.getD_some]

/-- Settles O30: `LSHIFT` lists the positions byte value by byte value, each value's positions ascending. -/
theorem leftShiftTakesBucketsInOrder : Obligations.LeftShiftTakesBucketsInOrder := by
  unfold Obligations.LeftShiftTakesBucketsInOrder
  intro l
  rw [leftShift_eq_positions]
  refine ⟨sortedColumn_perm l, sortedColumn_sorted l, positionsByByte_perm l, fun r i => getElem?_positionsByByte, ?_⟩
  intro r r' i i' hlt hi hi'
  obtain ⟨hr, rfl⟩ := List.getElem?_eq_some_iff.1 hi
  obtain ⟨hr', rfl⟩ := List.getElem?_eq_some_iff.1 hi'
  exact List.pairwise_iff_getElem.1 (positionsByByte_stable l) r r' hr hr' hlt

/-! ### When the inverse answers a text (R170, R171) -/

/-- What the walk of R170 by `lf` from `p` emits in `n` steps. -/
def walkedBytes (l : List Byte) (lf : Nat → Nat) (p n : Nat) : List Byte :=
  (List.range n).map fun k => l.getD (lf^[k] p) 0

theorem walkedBytes_length (l : List Byte) (lf : Nat → Nat) (p n : Nat) : (walkedBytes l lf p n).length = n := by
  rw [walkedBytes, List.length_map, List.length_range]

/-- Reversed and without the last, they are the bytes met after the first step. -/
theorem mem_take_reverse_walkedBytes {l : List Byte} {lf : Nat → Nat} {p n : Nat} {b : Byte}
    (h : b ∈ (walkedBytes l lf p n).reverse.take (n - 1)) : ∃ k, 0 < k ∧ k < n ∧ l.getD (lf^[k] p) 0 = b := by
  have htail : (walkedBytes l lf p n).reverse.take (n - 1) = (walkedBytes l lf p n).tail.reverse := by
    rw [← List.dropLast_reverse, List.dropLast_eq_take, List.length_reverse, walkedBytes_length]
  rw [htail, List.mem_reverse, walkedBytes, ← List.map_tail, List.tail_range] at h
  obtain ⟨k, hk, hb⟩ := List.mem_map.1 h
  have hk := List.mem_range'_1.1 hk
  exact ⟨k, hk.1, by omega, hb⟩

section
variable {l : List Byte} {lf : Nat → Nat} {c : Byte} {p : Nat}
  (hlf : ∀ r i : Nat, (leftShift (sortedColumn l) (buckets l))[r]? = some i → lf i = r)
include hlf

theorem iterate_inverse_lt (hp : p < l.length) (k : Nat) : lf^[k] p < l.length := by
  induction k with
  | zero => exact hp
  | succ k ih =>
    rw [Function.iterate_succ_apply']
    exact (inversePermutation_getD hlf ih).2

/-- The inverse answers exactly where the four checks of R171 hold, with the bytes met, reversed, without the last. -/
theorem bwtInverse_eq_ok_iff {out : List Byte} :
    bwtInverse l c p = .ok out ↔
      l.count c = 1 ∧ l[p]? = some c ∧ (∀ a b, a < b → b < l.length → lf^[a] p ≠ lf^[b] p) ∧
        (walkedBytes l lf p l.length).reverse.take (l.length - 1) = out := by
  have htab := fun q => inversePermutation_getD (p := q) hlf
  have hwalk (hp : p < l.length) (hne : ∀ a b, a < b → b < l.length → lf^[a] p ≠ lf^[b] p) :=
    walkBack_eq htab l.length p hp [] [] (fun _ _ => List.not_mem_nil) hne
  constructor
  · intro h
    rw [bwtInverse] at h
    split at h
    · cases h
    split at h
    · cases h
    split at h
    · cases h
    next hp hcount hat =>
      have hp := Nat.lt_of_not_le hp
      cases hw : walkBack l (inversePermutation (leftShift (sortedColumn l) (buckets l))) l.length p [] [] with
      | error t => rw [hw] at h; cases h
      | ok em =>
        have hne := (walkBack_distinct htab hp hw).2
        have hem := hw.symm.trans (hwalk hp hne)
        rw [hw] at h
        cases h
        cases hem
        exact ⟨not_not.1 hcount, not_not.1 hat, hne, rfl⟩
  · rintro ⟨hcount, hat, hne, rfl⟩
    have hp := (List.getElem?_eq_some_iff.1 hat).1
    rw [bwtInverse, if_neg (Nat.not_le.2 hp), if_neg (not_not_intro hcount), if_neg (not_not_intro hat), hwalk hp hne]
    rfl

end

/-- The walk meets the sentinel's only position first, and that byte is the one dropped (R173). -/
theorem not_mem_bwtInverse {l out : List Byte} {c : Byte} {p : Nat} (h : bwtInverse l c p = .ok out) : c ∉ out := by
  have hlf := inversePermutation_spec l
  obtain ⟨hcount, hat, hne, rfl⟩ := (bwtInverse_eq_ok_iff hlf).1 h
  intro hmem
  obtain ⟨k, hpos, hk, hc⟩ := mem_take_reverse_walkedBytes hmem
  have hkl := iterate_inverse_lt hlf (List.getElem?_eq_some_iff.1 hat).1 k
  rw [List.getD_eq_getElem?_getD, List.getElem?_eq_getElem hkl, Option.getD_some] at hc
  exact hne 0 k hpos hk (position_unique hcount hat (by rw [List.getElem?_eq_getElem hkl, hc]))

/-! ### The empty text and the empty COMP (R165, R171) -/

/-- COMP of a text whose sentinel is `c`. -/
def bwtColumn (text : List Byte) (c : Byte) : List Byte := if text = [] then [] else lastColumn (text ++ [c])

/-- OPOS of a text whose sentinel is `c`. -/
def bwtRank (text : List Byte) (c : Byte) : Nat := if text = [] then 0 else originalPos (text ++ [c])

/-- The text of a COMP, or the fault of a COMP no text has. -/
def bwtText (l : List Byte) (c : Byte) (opos : Nat) : Except Trap (List Byte) :=
  if l = [] then .ok [] else bwtInverse l c opos

theorem bwtColumn_length_le (text : List Byte) (c : Byte) : (bwtColumn text c).length ≤ text.length + 1 := by
  rw [bwtColumn]
  split
  · exact Nat.zero_le _
  · rw [lastColumn_length, List.length_append, List.length_singleton]

theorem bwtRank_le {text : List Byte} {c : Byte} (hc : c ∉ text) : bwtRank text c ≤ text.length := by
  rw [bwtRank]
  split
  · exact Nat.zero_le _
  · have hlt := originalPos_lt (ext := text ++ [c]) ⟨rfl, hc⟩
    rw [List.length_append] at hlt
    exact Nat.le_of_lt_succ hlt

/-- The round trip of R172, the empty text included. -/
theorem bwtText_bwtColumn {text : List Byte} {c : Byte} (hc : c ∉ text) :
    bwtText (bwtColumn text c) c (bwtRank text c) = .ok text := by
  rw [bwtText, bwtColumn, bwtRank]
  by_cases h : text = []
  · rw [if_pos h, if_pos rfl, h]
  · have hlen : lastColumn (text ++ [c]) ≠ [] :=
      List.ne_nil_of_length_pos (by rw [lastColumn_length, List.length_append]; exact Nat.succ_pos _)
    rw [if_neg h, if_neg h, if_neg hlen]
    exact bwtInverse_lastColumn ⟨rfl, hc⟩

theorem bwtText_length {l out : List Byte} {c : Byte} {opos : Nat} (h : bwtText l c opos = .ok out) :
    out.length = l.length - 1 := by
  rw [bwtText] at h
  split at h
  next hl => cases h; rw [hl]; rfl
  next => exact bwtInverse_ok_length h

theorem not_mem_bwtText {l out : List Byte} {c : Byte} {opos : Nat} (h : bwtText l c opos = .ok out) : c ∉ out := by
  rw [bwtText] at h
  split at h
  · cases h; exact List.not_mem_nil
  · exact not_mem_bwtInverse h

end Sys2Proof.Machine
end

