-- ==== Sys2Proof/Proofs/BwtCommands.lean ====
section
/-! SUPPORT. `BWT.FWD` and `BWT.INV` as commands (spec/41_bwt.md R165 to R173): the state each leaves when nothing faults,
and that a command that raises no fault leaves that state. -/

namespace Sys2Proof.Machine

/-! ### Empty buffers -/

theorem State.textOf_bwt_eq_nil (s : State) : s.textOf .bwt = [] ↔ s.bwt.textLen.toNat = 0 := by
  rw [← List.length_eq_zero_iff, State.textOf_length, State.unit_bwt]

theorem State.bwtComp_eq_nil (s : State) : s.bwtComp = [] ↔ s.bwt.compLen.toNat = 0 := by
  rw [← List.length_eq_zero_iff, State.bwtComp_length]

theorem word_toNat_eq_zero (w : Word) : w.toNat = 0 ↔ w = 0 := by
  rw [← BitVec.toNat_inj]; rfl

/-! ### `BWT.FWD` -/

/-- After a `BWT.FWD` that completes (R165). -/
def State.bwtEncoded (s : State) : State :=
  { s.ended with
    bwt := { s.bwt with
      phase := .encoded
      compLen := BitVec.ofNat 32 (bwtColumn (s.textOf .bwt) s.sentinel).length
      comp := Mem.ofBytes 0 (bwtColumn (s.textOf .bwt) s.sentinel) }
    bwtSufidx := if s.textOf .bwt = [] then s.bwtSufidx else suffixIndices (extended s)
    bwtOpos := BitVec.ofNat 32 (bwtRank (s.textOf .bwt) s.sentinel) }

theorem State.afterBwtFwd_eq_bwtEncoded {s : State} (hl : s.bwt.textLen.toNat ≤ s.params.maxLen)
    (hs : s.sentinel ∉ s.textOf .bwt) : s.afterBwtFwd = s.bwtEncoded := by
  rw [State.afterBwtFwd, if_neg (Nat.not_lt.2 hl), if_neg hs, State.bwtEncoded, bwtColumn, bwtRank]
  by_cases h : s.textOf .bwt = []
  · rw [if_pos (s.textOf_bwt_eq_nil.1 h), if_pos h, if_pos h, if_pos h]; rfl
  · rw [if_neg (mt s.textOf_bwt_eq_nil.2 h), if_neg h, if_neg h, if_neg h]; rfl

theorem exec_bwtFwd_eq_bwtEncoded {s : State} (hp : s.bwt.phase = .idle) (hl : s.bwt.textLen.toNat ≤ s.params.maxLen)
    (hs : s.sentinel ∉ s.textOf .bwt) : exec .bwtFwd s = .next s.bwtEncoded := by
  rw [exec_bwtFwd, if_neg (not_not_intro hp), State.afterBwtFwd_eq_bwtEncoded hl hs]

/-- The only way through `BWT.FWD` without a fault. -/
theorem bwtFwd_of_no_fault {s t : State} (h : exec .bwtFwd s = .next t) (hf : t.fault = false) :
    s.bwt.textLen.toNat ≤ s.params.maxLen ∧ s.sentinel ∉ s.textOf .bwt ∧ t = s.bwtEncoded := by
  rw [exec_bwtFwd] at h
  split at h
  · cases h; cases hf
  by_cases hl : s.bwt.textLen.toNat > s.params.maxLen
  · rw [State.afterBwtFwd, if_pos hl] at h; cases h; cases hf
  have hl := Nat.le_of_not_lt hl
  by_cases hs : s.sentinel ∈ s.textOf .bwt
  · have hne : s.textOf .bwt ≠ [] := List.ne_nil_of_mem hs
    rw [State.afterBwtFwd, if_neg (Nat.not_lt.2 hl), if_neg (mt s.textOf_bwt_eq_nil.2 hne), if_pos hs] at h
    cases h; cases hf
  · rw [State.afterBwtFwd_eq_bwtEncoded hl hs] at h
    cases h
    exact ⟨hl, hs, rfl⟩

/-- COMP fits its buffer (R8): the capacity is one above `MAX_LEN`. -/
theorem bwtColumn_length_le_cap {s : State} (hl : s.bwt.textLen.toNat ≤ s.params.maxLen) :
    (bwtColumn (s.textOf .bwt) s.sentinel).length ≤ s.params.cap :=
  (bwtColumn_length_le _ _).trans (Nat.succ_le_succ ((State.textOf_length s .bwt).trans_le hl))

section
variable {s : State} (hm : s.params.maxLenOk = true) (hl : s.bwt.textLen.toNat ≤ s.params.maxLen)
include hm hl

theorem bwtColumn_length_lt : (bwtColumn (s.textOf .bwt) s.sentinel).length < 2 ^ 32 :=
  (bwtColumn_length_le_cap hl).trans_lt ((cap_lt hm).trans (by decide))

theorem State.bwtComp_bwtEncoded : s.bwtEncoded.bwtComp = bwtColumn (s.textOf .bwt) s.sentinel :=
  State.bwtComp_eq rfl rfl (bwtColumn_length_lt hm hl)

theorem State.bwtOpos_bwtEncoded (hs : s.sentinel ∉ s.textOf .bwt) :
    s.bwtEncoded.bwtOpos.toNat = bwtRank (s.textOf .bwt) s.sentinel := by
  have hr := (bwtRank_le hs).trans ((State.textOf_length s .bwt).trans_le hl)
  have hlt := maxLen_lt hm
  exact Nat.mod_eq_of_lt (by omega)

end

/-- Settles O27: SUFIDX is the sorted suffixes' offsets, OPOS the rank of the whole text's, COMP their last column. -/
theorem bwtFwdSortsSuffixes : Obligations.BwtFwdSortsSuffixes := by
  unfold Obligations.BwtFwdSortsSuffixes
  intro s hm hp hl hs
  have hphase : s.bwt.phase = .idle := hp (.bwt, .idle) (List.mem_singleton.2 rfl)
  refine ⟨s.bwtEncoded, exec_bwtFwd_eq_bwtEncoded hphase hl hs, completed_ended s, rfl, fun h0 => ?empty, fun h0 => ?full⟩
  case empty =>
    have hnil := s.textOf_bwt_eq_nil.2 ((word_toNat_eq_zero _).2 h0)
    rw [State.bwtComp_bwtEncoded hm hl, State.bwtEncoded, hnil]
    exact ⟨rfl, rfl, rfl⟩
  case full =>
    have hne := mt s.textOf_bwt_eq_nil.1 (mt (word_toNat_eq_zero _).1 h0)
    have hext : Terminated (s.textOf .bwt) s.sentinel (extended s) := ⟨rfl, hs⟩
    have hidx : s.bwtEncoded.bwtSufidx = suffixIndices (extended s) := if_neg hne
    rw [State.bwtComp_bwtEncoded hm hl, State.bwtOpos_bwtEncoded hm hl hs, bwtColumn, bwtRank, if_neg hne, if_neg hne, hidx]
    exact ⟨suffixIndices_perm _, fun _ _ _ => lexLt_suffixIndices, getElem?_rankOf hext.pos, lastColumn_length _,
      fun _ _ => hext.lastColumn_getElem?⟩

/-- Settles O29: a `BWT.FWD` without fault has found no sentinel in the text, and COMP is the last column. -/
theorem bwtFwdOutputHoldsSentinelOnce : Obligations.BwtFwdOutputHoldsSentinelOnce := by
  unfold Obligations.BwtFwdOutputHoldsSentinelOnce
  intro s t hm _ h0 h hf
  obtain ⟨hl, hs, rfl⟩ := bwtFwd_of_no_fault h hf
  have hne := mt s.textOf_bwt_eq_nil.1 (mt (word_toNat_eq_zero _).1 h0)
  have hext : Terminated (s.textOf .bwt) s.sentinel (extended s) := ⟨rfl, hs⟩
  rw [← State.bwtComp_length, State.bwtComp_bwtEncoded hm hl, State.bwtOpos_bwtEncoded hm hl hs, bwtColumn, bwtRank,
    if_neg hne, if_neg hne]
  refine ⟨?_, lastColumn_perm _, lastColumn_count hext, lastColumn_originalPos hext⟩
  rw [lastColumn_length, List.length_append, State.textOf_length, State.unit_bwt, List.length_singleton]

/-! ### `BWT.INV` -/

/-- After a `BWT.INV` whose output is `out` (R171). -/
def State.bwtDecoded (s : State) (out : List Byte) : State :=
  { s.ended with
    bwt := { s.bwt with
      phase := .decoded
      decompLen := BitVec.ofNat 32 out.length
      decomp := Mem.ofBytes 0 out } }

/-- `BWT.INV` past its length check: what the inverse says of COMP. -/
theorem State.afterBwtInv_eq {s : State} (hl : s.bwt.compLen.toNat ≤ s.params.cap) :
    s.afterBwtInv =
      match bwtText s.bwtComp s.sentinel s.bwtOpos.toNat with
      | .error t => (s.dropDecomp .bwt).faultOnly t.kind t.info
      | .ok out => s.bwtDecoded out := by
  rw [State.afterBwtInv, if_neg (Nat.not_lt.2 hl), bwtText, ← if_congr s.bwtComp_eq_nil rfl rfl]
  rfl

theorem exec_bwtInv_eq_bwtDecoded {s : State} {out : List Byte} (hp : s.bwt.phase = .encoded)
    (hl : s.bwt.compLen.toNat ≤ s.params.cap) (h : bwtText s.bwtComp s.sentinel s.bwtOpos.toNat = .ok out) :
    exec .bwtInv s = .next (s.bwtDecoded out) := by
  rw [exec_bwtInv, if_neg (not_not_intro hp), State.afterBwtInv_eq hl, h]

/-- The only way through `BWT.INV` without a fault. -/
theorem bwtInv_of_no_fault {s t : State} (h : exec .bwtInv s = .next t) (hf : t.fault = false) :
    ∃ out, s.bwt.compLen.toNat ≤ s.params.cap ∧ bwtText s.bwtComp s.sentinel s.bwtOpos.toNat = .ok out ∧
      t = s.bwtDecoded out := by
  rw [exec_bwtInv] at h
  split at h
  · cases h; cases hf
  by_cases hl : s.bwt.compLen.toNat > s.params.cap
  · rw [State.afterBwtInv, if_pos hl] at h; cases h; cases hf
  have hl := Nat.le_of_not_lt hl
  rw [State.afterBwtInv_eq hl] at h
  cases hout : bwtText s.bwtComp s.sentinel s.bwtOpos.toNat with
  | error t => rw [hout] at h; cases h; cases hf
  | ok out => rw [hout] at h; cases h; exact ⟨out, hl, rfl, rfl⟩

/-- DECOMP is what the inverse answered. -/
theorem State.decompOf_bwtDecoded {s : State} {out : List Byte} (hm : s.params.maxLenOk = true)
    (hl : s.bwt.compLen.toNat ≤ s.params.cap) (h : bwtText s.bwtComp s.sentinel s.bwtOpos.toNat = .ok out) :
    (s.bwtDecoded out).decompOf .bwt = out := by
  refine decompOf_written hm ?_ rfl rfl
  rw [bwtText_length h, State.bwtComp_length]
  exact (Nat.sub_le _ _).trans hl

/-- Where the inverse answers a text, `BWT.INV` completes with it. -/
theorem bwtInv_completes {s : State} {out : List Byte} (hm : s.params.maxLenOk = true) (hp : inPhase .bwtInv s)
    (hl : s.bwt.compLen.toNat ≤ s.params.cap) (h : bwtText s.bwtComp s.sentinel s.bwtOpos.toNat = .ok out) :
    ∃ t, exec .bwtInv s = .next t ∧ Completed s t ∧ t.bwt.phase = .decoded ∧ t.decompOf .bwt = out :=
  ⟨s.bwtDecoded out, exec_bwtInv_eq_bwtDecoded (hp (.bwt, .encoded) (List.mem_singleton.2 rfl)) hl h, completed_ended s,
    rfl, State.decompOf_bwtDecoded hm hl h⟩

/-- Settles O31: on the empty COMP the inverse answers the empty text, and where the four checks hold the bytes walked. -/
theorem bwtInvWalksBack : Obligations.BwtInvWalksBack := by
  unfold Obligations.BwtInvWalksBack
  intro s hm hp hl
  refine ⟨fun h0 => bwtInv_completes hm hp hl ?empty, fun lf hlf hcount hat hne => bwtInv_completes hm hp hl ?walk⟩
  case empty => exact if_pos (s.bwtComp_eq_nil.2 ((word_toNat_eq_zero _).2 h0))
  case walk =>
    rw [bwtText, if_neg (List.ne_nil_of_mem (List.mem_of_getElem? hat))]
    exact (bwtInverse_eq_ok_iff hlf).2 ⟨hcount, hat, hne, rfl⟩

/-- Settles O33: DECOMP is what the inverse answered, which drops the only sentinel. -/
theorem bwtInvNeverEmitsSentinel : Obligations.BwtInvNeverEmitsSentinel := by
  unfold Obligations.BwtInvNeverEmitsSentinel
  intro s t hm _ h hf
  obtain ⟨out, hl, hout, rfl⟩ := bwtInv_of_no_fault h hf
  rw [State.decompOf_bwtDecoded hm hl hout]
  exact not_mem_bwtText hout

end Sys2Proof.Machine
end

