-- ==== Sys2Proof/Proofs/BwtRoundTrip.lean ====
section
/-! SUPPORT. `BWT.FWD` and `BWT.INV` one after the other on one text (spec/41_bwt.md R172). -/

namespace Sys2Proof.Machine

/-- The command reads the text after its own host action, which leaves a written text as it is (R290). -/
theorem step_bwtFwd {s : State} {rest : List HostAction} (hb : s.busy = false) (hf : s.fault = false)
    (hhost : s.host = cmdWrite s.params .bwtFwd :: rest) (hp : s.bwt.phase = .idle)
    (hl : s.bwt.textLen.toNat ≤ s.params.maxLen) (hw : s.written ⟨.bwt, .text⟩ s.bwt.textLen.toNat)
    (hs : s.sentinel ∉ s.textOf .bwt) : step s = .next (s.takeAction rest).bwtEncoded := by
  rw [step_cmdWritten hhost hb hf]
  refine exec_bwtFwd_eq_bwtEncoded hp hl ?_
  rw [textOf_takeAction rest rfl hw]
  exact hs

/-- On the COMP and OPOS a `BWT.FWD` has just written, `BWT.INV` gives the text back. -/
theorem step_bwtInv_of_bwtEncoded {s : State} {rest : List HostAction} (hm : s.params.maxLenOk = true)
    (hf : s.fault = false) (hhost : s.host = cmdWrite s.params .bwtInv :: rest)
    (hl : s.bwt.textLen.toNat ≤ s.params.maxLen) (hs : s.sentinel ∉ s.textOf .bwt) :
    ∃ t, step s.bwtEncoded = .next t ∧ t.host = rest ∧ t.fault = false ∧ t.done = true ∧ t.bwt.phase = .decoded ∧
      t.decompOf .bwt = s.textOf .bwt := by
  have hcol := bwtColumn_length_lt hm hl
  have hcomp : (s.bwtEncoded.takeAction rest).bwtComp = bwtColumn (s.textOf .bwt) s.sentinel :=
    State.bwtComp_eq rfl rfl hcol
  have hlen : (s.bwtEncoded.takeAction rest).bwt.compLen.toNat ≤ s.params.cap :=
    (toNat_length hcol).trans_le (bwtColumn_length_le_cap hl)
  have htext : bwtText (s.bwtEncoded.takeAction rest).bwtComp s.sentinel s.bwtEncoded.bwtOpos.toNat =
      .ok (s.textOf .bwt) := by
    rw [hcomp, State.bwtOpos_bwtEncoded hm hl hs, bwtText_bwtColumn hs]
  exact ⟨(s.bwtEncoded.takeAction rest).bwtDecoded (s.textOf .bwt),
    (step_cmdWritten (s := s.bwtEncoded) hhost rfl hf).trans (exec_bwtInv_eq_bwtDecoded rfl hlen htext), rfl, hf, rfl, rfl,
    State.decompOf_bwtDecoded hm hlen htext⟩

/-- Settles O41: the text, being written, is the same before the step of `BWT.FWD` and after it, and `BWT.INV` gives it
back. -/
theorem roundTripBwt : Obligations.RoundTripBwt := by
  unfold Obligations.RoundTripBwt
  intro s rest hm hb hf hhost hp hl hw hs
  have hsame := textOf_takeAction (cmdWrites s.params [.bwtInv] ++ rest) rfl hw
  have hfwd := step_bwtFwd (rest := cmdWrites s.params [.bwtInv] ++ rest) hb hf hhost hp hl hw hs
  obtain ⟨t, hinv, hrest, hfault, hdone, hphase, hout⟩ :=
    step_bwtInv_of_bwtEncoded (s := s.takeAction (cmdWrites s.params [.bwtInv] ++ rest)) hm hf rfl hl (hsame ▸ hs)
  exact ⟨t, (runSteps_succ 1 _ _ hfwd).trans (runSteps_succ 0 _ _ hinv), hrest, hfault, hdone, hphase, hout.trans hsame⟩

end Sys2Proof.Machine
end

