-- ==== Sys2Proof/Proofs/Lzw.lean ====
section
/-! SUPPORT. `LZW.ENC` and `LZW.DEC` as commands, and the two one after the other on one text (spec/42_lzw.md R183 to
R190): the state each leaves when nothing faults, and the codes the second finds in COMP. -/

namespace Sys2Proof.Machine

/-! ### `LZW.ENC` -/

/-- After an `LZW.ENC` that completes (R184). -/
def State.lzwEncoded (s : State) : State :=
  { s.ended with
    lzw := { s.lzw with
      phase := .encoded
      compLen := BitVec.ofNat 32 (lzwEncode (s.textOf .lzw)).length
      comp := Mem.ofBytes 0 (bytesOfWords ((lzwEncode (s.textOf .lzw)).map (BitVec.ofNat 32))) } }

theorem exec_lzwEnc_eq_lzwEncoded {s : State} (hp : s.lzw.phase = .idle) (hl : s.lzw.textLen.toNat ≤ s.params.cap) :
    exec .lzwEnc s = .next s.lzwEncoded := by
  rw [exec_lzwEnc, if_neg (not_not_intro hp), if_neg (Nat.not_lt.2 hl), State.lzwEncoded]

/-- Wherever COMP and its length stay as `LZW.ENC` left them, the codes read are those of the text (R34, R64). -/
theorem State.lzwComp_of_lzwEncoded {s t : State} (hm : s.params.maxLenOk = true)
    (hl : s.lzw.textLen.toNat ≤ s.params.cap) (hcomp : t.lzw.comp = s.lzwEncoded.lzw.comp)
    (hlen : t.lzw.compLen = s.lzwEncoded.lzw.compLen) : t.lzwComp = lzwEncode (s.textOf .lzw) :=
  lzwComp_written hm hl (State.textOf_length s .lzw) hcomp hlen

/-- There are no more codes than bytes (R184), so COMP_LEN passes the length check of `LZW.DEC`. -/
theorem lzwEncode_length_le_cap {s : State} (hl : s.lzw.textLen.toNat ≤ s.params.cap) :
    (lzwEncode (s.textOf .lzw)).length ≤ s.params.cap :=
  (lzwEncode_length_le _).trans ((State.textOf_length s .lzw).trans_le hl)

/-- Settles O34: COMP holds the codes the encoder's loop gives, which are those of the greedy parse. -/
theorem lzwEncGreedyParse : Obligations.LzwEncGreedyParse := by
  unfold Obligations.LzwEncGreedyParse
  intro s hm hp hl
  have hphase : s.lzw.phase = .idle := hp (.lzw, .idle) (List.mem_singleton.2 rfl)
  obtain ⟨phrases, hflat, hparse⟩ := lzwEncode_parses (s.textOf .lzw)
  rw [← State.lzwComp_of_lzwEncoded (t := s.lzwEncoded) hm hl rfl rfl] at hparse
  exact ⟨s.lzwEncoded, phrases, exec_lzwEnc_eq_lzwEncoded hphase hl, completed_ended s, rfl, hflat, hparse⟩

/-! ### `LZW.DEC` -/

/-- After an `LZW.DEC` whose output is `out` (R188). -/
def State.lzwDecoded (s : State) (out : List Byte) : State :=
  { s.ended with
    lzw := { s.lzw with
      phase := .decoded
      decompLen := BitVec.ofNat 32 out.length
      decomp := Mem.ofBytes 0 out } }

/-- Where the codes have strings that fit, `LZW.DEC` completes with them. -/
theorem exec_lzwDec_eq_lzwDecoded {s : State} {strs : List (List Byte)} (hp : s.lzw.phase = .encoded)
    (hl : s.lzw.compLen.toNat ≤ s.params.cap) (hx : LzwExpansion s.lzwComp strs)
    (hfit : strs.flatten.length ≤ s.params.cap) : exec .lzwDec s = .next (s.lzwDecoded strs.flatten) := by
  rw [exec_lzwDec, if_neg (not_not_intro hp), if_neg (Nat.not_lt.2 hl), lzwDecode_of_expansion hx hfit]
  rfl

theorem State.decompOf_lzwDecoded {s : State} {out : List Byte} (hm : s.params.maxLenOk = true)
    (hfit : out.length ≤ s.params.cap) : (s.lzwDecoded out).decompOf .lzw = out :=
  decompOf_written hm hfit rfl rfl

/-- Settles O35: the decoder's loop gives each code its string. -/
theorem lzwDecExpandsCodes : Obligations.LzwDecExpandsCodes := by
  unfold Obligations.LzwDecExpandsCodes
  intro s strs hm hp hl hx hfit
  have hphase : s.lzw.phase = .encoded := hp (.lzw, .encoded) (List.mem_singleton.2 rfl)
  exact ⟨s.lzwDecoded strs.flatten, exec_lzwDec_eq_lzwDecoded hphase hl hx hfit, completed_ended s, rfl,
    State.decompOf_lzwDecoded hm hfit⟩

/-! ### One after the other (R190) -/

theorem step_lzwEnc {s : State} {rest : List HostAction} (hb : s.busy = false) (hf : s.fault = false)
    (hhost : s.host = cmdWrite s.params .lzwEnc :: rest) (hp : s.lzw.phase = .idle)
    (hl : s.lzw.textLen.toNat ≤ s.params.cap) : step s = .next (s.takeAction rest).lzwEncoded :=
  (step_cmdWritten hhost hb hf).trans (exec_lzwEnc_eq_lzwEncoded hp hl)

/-- On the codes an `LZW.ENC` has just written, `LZW.DEC` gives the text back. It leaves the codes in COMP, and the strings
it gives them are the phrases of the parse. -/
theorem step_lzwDec_of_lzwEncoded {s : State} {rest : List HostAction} (hm : s.params.maxLenOk = true)
    (hf : s.fault = false) (hhost : s.host = cmdWrite s.params .lzwDec :: rest)
    (hl : s.lzw.textLen.toNat ≤ s.params.cap) :
    ∃ t phrases, step s.lzwEncoded = .next t ∧ t.host = rest ∧ t.fault = false ∧ t.done = true ∧
      t.lzw.phase = .decoded ∧ t.decompOf .lzw = s.textOf .lzw ∧ LzwParse phrases t.lzwComp ∧
        LzwExpansion t.lzwComp phrases := by
  have hcodes : (s.lzwEncoded.takeAction rest).lzwComp = lzwEncode (s.textOf .lzw) :=
    State.lzwComp_of_lzwEncoded hm hl rfl rfl
  have hkept : ((s.lzwEncoded.takeAction rest).lzwDecoded (s.textOf .lzw)).lzwComp = lzwEncode (s.textOf .lzw) :=
    State.lzwComp_of_lzwEncoded hm hl rfl rfl
  have hlen : (s.lzwEncoded.takeAction rest).lzw.compLen.toNat ≤ s.params.cap := by
    rw [← State.lzwComp_length, hcodes]
    exact lzwEncode_length_le_cap hl
  have hfit : (s.textOf .lzw).length ≤ s.params.cap := (State.textOf_length s .lzw).trans_le hl
  obtain ⟨phrases, hflat, hparse⟩ := lzwEncode_parses (s.textOf .lzw)
  have hdec := exec_lzwDec_eq_lzwDecoded (s := s.lzwEncoded.takeAction rest) rfl hlen (hcodes ▸ hparse.expansion)
    (hflat ▸ hfit)
  rw [hflat] at hdec
  exact ⟨_, phrases, (step_cmdWritten (s := s.lzwEncoded) hhost rfl hf).trans hdec, rfl, hf, rfl, rfl,
    State.decompOf_lzwDecoded hm hfit, hkept ▸ hparse, hkept ▸ hparse.expansion⟩

/-- Settles O42: `LZW.DEC` gives back the text `LZW.ENC` read, which, being written, is the one before its step (R290). -/
theorem roundTripLzw : Obligations.RoundTripLzw := by
  unfold Obligations.RoundTripLzw
  intro s rest hm hb hf hhost hp hl hw
  have hsame := textOf_takeAction (cmdWrites s.params [.lzwDec] ++ rest) rfl hw
  have henc := step_lzwEnc (rest := cmdWrites s.params [.lzwDec] ++ rest) hb hf hhost hp hl
  obtain ⟨t, phrases, hdec, hrest, hfault, hdone, hphase, hout, hparse, hx⟩ :=
    step_lzwDec_of_lzwEncoded (s := s.takeAction (cmdWrites s.params [.lzwDec] ++ rest)) hm hf rfl hl
  exact ⟨t, phrases, (runSteps_succ 1 _ _ henc).trans (runSteps_succ 0 _ _ hdec), hrest, hfault, hdone, hphase,
    hout.trans hsame, hparse, hx⟩

end Sys2Proof.Machine
end

