-- ==== Sys2Proof/Proofs/Rle.lean ====
section
/-! SUPPORT. `RLE.ENC` and `RLE.DEC` as commands, and the two one after the other on one text (spec/43_rle.md R202 to
R205): the state each leaves when nothing faults, and the parts the second finds in COMP. -/

namespace Sys2Proof.Machine

/-! ### Facts about parts -/

theorem sum_counts_eq_expand_length (ps : List Part) : (ps.map Part.count).sum = (expand ps).length := by
  simp [expand, List.length_flatMap]

theorem rleEncode_adjacent_getElem? {l : List Byte} {k : Nat} {p q : Part} (hp : (rleEncode l)[k]? = some p)
    (hq : (rleEncode l)[k + 1]? = some q) : p.sym ≠ q.sym := by
  obtain ⟨hk, rfl⟩ := List.getElem?_eq_some_iff.1 hp
  obtain ⟨hk1, rfl⟩ := List.getElem?_eq_some_iff.1 hq
  exact List.isChain_iff_getElem.1 (rleEncode_adjacent l) k hk1

/-! ### `RLE.ENC` -/

/-- After an `RLE.ENC` that completes (R202). -/
def State.rleEncoded (s : State) : State :=
  { s.ended with
    rle := { s.rle with
      phase := .encoded
      compLen := BitVec.ofNat 32 (rleEncode (s.textOf .rle)).length
      comp := Mem.ofBytes 0 (bytesOfWords ((rleEncode (s.textOf .rle)).map Part.toWord)) } }

theorem State.afterRleEnc_eq_rleEncoded {s : State} (hl : s.rle.textLen.toNat ≤ s.params.cap) :
    s.afterRleEnc = s.rleEncoded := by
  rw [State.afterRleEnc, if_neg (Nat.not_lt.2 hl), State.rleEncoded]

theorem exec_rleEnc_eq_rleEncoded {s : State} (hp : s.rle.phase = .idle) (hl : s.rle.textLen.toNat ≤ s.params.cap) :
    exec .rleEnc s = .next s.rleEncoded := by
  rw [exec_rleEnc, if_neg (not_not_intro hp), State.afterRleEnc_eq_rleEncoded hl]

/-- Wherever COMP and its length stay as `RLE.ENC` left them, the parts read are those of the text (R34, R64). -/
theorem State.rleComp_of_rleEncoded {s t : State} (hm : s.params.maxLenOk = true)
    (hl : s.rle.textLen.toNat ≤ s.params.cap) (hcomp : t.rle.comp = s.rleEncoded.rle.comp)
    (hlen : t.rle.compLen = s.rleEncoded.rle.compLen) : t.rleComp = rleEncode (s.textOf .rle) :=
  rleComp_written hm hl hcomp hlen

theorem rleEncode_textOf_length_le (s : State) : (rleEncode (s.textOf .rle)).length ≤ s.rle.textLen.toNat :=
  (rleEncode_length_le _).trans_eq (State.textOf_length s .rle)

/-- Settles O15: COMP holds the parts the scan gives, one for each maximal run. -/
theorem rleEncEmitsMaximalRuns : Obligations.RleEncEmitsMaximalRuns := by
  unfold Obligations.RleEncEmitsMaximalRuns
  intro s hm hp hl
  have hphase : s.rle.phase = .idle := hp (.rle, .idle) (List.mem_singleton.2 rfl)
  refine ⟨s.rleEncoded, exec_rleEnc_eq_rleEncoded hphase hl, completed_ended s, rfl, ?_⟩
  rw [← State.rleComp_length, State.rleComp_of_rleEncoded hm hl rfl rfl]
  refine ⟨expand_rleEncode _, rleEncode_count_pos _, fun k p q => rleEncode_adjacent_getElem?, ?_,
    rleEncode_textOf_length_le s⟩
  rw [sum_counts_eq_expand_length, expand_rleEncode, State.textOf_length, State.unit_rle]

/-! ### `RLE.DEC` -/

/-- After an `RLE.DEC` whose output is `out` (R204). -/
def State.rleDecoded (s : State) (out : List Byte) : State :=
  { s.ended with
    rle := { s.rle with
      phase := .decoded
      decompLen := BitVec.ofNat 32 out.length
      decomp := Mem.ofBytes 0 out } }

theorem State.afterRleDec_eq_rleDecoded {s : State} {out : List Byte} (hl : s.rle.compLen.toNat ≤ s.params.cap)
    (h : rleDecode s.params.cap 0 s.rleComp [] = .ok out) : s.afterRleDec = s.rleDecoded out := by
  rw [State.afterRleDec, if_neg (Nat.not_lt.2 hl), h]
  rfl

theorem exec_rleDec_eq_rleDecoded {s : State} {out : List Byte} (hp : s.rle.phase = .encoded)
    (hl : s.rle.compLen.toNat ≤ s.params.cap) (h : rleDecode s.params.cap 0 s.rleComp [] = .ok out) :
    exec .rleDec s = .next (s.rleDecoded out) := by
  rw [exec_rleDec, if_neg (not_not_intro hp), State.afterRleDec_eq_rleDecoded hl h]

theorem State.decompOf_rleDecoded {s : State} {out : List Byte} (hm : s.params.maxLenOk = true)
    (hfit : out.length ≤ s.params.cap) : (s.rleDecoded out).decompOf .rle = out :=
  decompOf_written hm hfit rfl rfl

/-! ### One after the other (R205) -/

theorem step_rleEnc {s : State} {rest : List HostAction} (hb : s.busy = false) (hf : s.fault = false)
    (hhost : s.host = cmdWrite s.params .rleEnc :: rest) (hp : s.rle.phase = .idle)
    (hl : s.rle.textLen.toNat ≤ s.params.cap) : step s = .next (s.takeAction rest).rleEncoded :=
  (step_cmdWritten hhost hb hf).trans (exec_rleEnc_eq_rleEncoded hp hl)

/-- On the parts an `RLE.ENC` has just written, `RLE.DEC` gives the text back: there are no more parts than bytes, so they
pass its length check, and their expansion is the text, so it fits. -/
theorem step_rleDec_of_rleEncoded {s : State} {rest : List HostAction} (hm : s.params.maxLenOk = true)
    (hf : s.fault = false) (hhost : s.host = cmdWrite s.params .rleDec :: rest)
    (hl : s.rle.textLen.toNat ≤ s.params.cap) :
    step s.rleEncoded = .next ((s.rleEncoded.takeAction rest).rleDecoded (s.textOf .rle)) := by
  have hparts : (s.rleEncoded.takeAction rest).rleComp = rleEncode (s.textOf .rle) :=
    State.rleComp_of_rleEncoded hm hl rfl rfl
  have hlen : (s.rleEncoded.takeAction rest).rle.compLen.toNat ≤ s.params.cap := by
    rw [← State.rleComp_length, hparts]
    exact (rleEncode_textOf_length_le s).trans hl
  have hdec : rleDecode s.params.cap 0 (s.rleEncoded.takeAction rest).rleComp [] = .ok (s.textOf .rle) := by
    rw [hparts]
    exact rleDecode_rleEncode _ ((State.textOf_length s .rle).trans_le hl)
  exact (step_cmdWritten (s := s.rleEncoded) hhost rfl hf).trans (exec_rleDec_eq_rleDecoded rfl hlen hdec)

/-- Settles O39: `RLE.DEC` gives back the text `RLE.ENC` read, which, being written, is the one before its step (R290). -/
theorem roundTripRle : Obligations.RoundTripRle := by
  unfold Obligations.RoundTripRle
  intro s rest hm hb hf hhost hp hl hw
  have hsame := textOf_takeAction (cmdWrites s.params [.rleDec] ++ rest) rfl hw
  have henc := step_rleEnc (rest := cmdWrites s.params [.rleDec] ++ rest) hb hf hhost hp hl
  have hdec := step_rleDec_of_rleEncoded (rest := rest) (s := s.takeAction (cmdWrites s.params [.rleDec] ++ rest)) hm hf
    rfl hl
  have hfit : (s.textOf .rle).length ≤ s.params.cap := (State.textOf_length s .rle).trans_le hl
  rw [hsame] at hdec
  exact ⟨_, (runSteps_succ 1 _ _ henc).trans (runSteps_succ 0 _ _ hdec), rfl, hf, rfl, rfl,
    State.decompOf_rleDecoded hm hfit⟩

end Sys2Proof.Machine
end

