-- ==== Sys2Proof/Proofs/CompositeRoundTrip.lean ====
section
/-! SUPPORT. `BWTRLE.ENC` and `BWTRLE.DEC` as commands, and the two one after the other on one text
(spec/44_composite_system.md R216 to R220): the state each leaves when nothing faults, and what the second finds in the
buffers of both units. -/

namespace Sys2Proof.Machine

/-! ### `BWTRLE.ENC` (R216) -/

/-- Between the stages of `BWTRLE.ENC`: `BWT.FWD` is through and its column is copied to RLE.TEXT. -/
def State.columnCopied (s : State) : State := s.bwtEncoded.putText .rle (bwtColumn (s.textOf .bwt) s.sentinel)

/-- After a `BWTRLE.ENC` that completes. -/
def State.bwtrleEncoded (s : State) : State := s.columnCopied.rleEncoded

section
variable {s : State} (hm : s.params.maxLenOk = true) (hl : s.bwt.textLen.toNat ≤ s.params.maxLen)
include hm hl

theorem State.textOf_columnCopied : s.columnCopied.textOf .rle = bwtColumn (s.textOf .bwt) s.sentinel :=
  putText_text (bwtColumn_length_lt hm hl)

theorem State.textLen_columnCopied_le : s.columnCopied.rle.textLen.toNat ≤ s.params.cap :=
  (toNat_length (bwtColumn_length_lt hm hl)).trans_le (bwtColumn_length_le_cap hl)

theorem exec_bwtrleEnc_eq_bwtrleEncoded (hbwt : s.bwt.phase = .idle) (hrle : s.rle.phase = .idle)
    (hs : s.sentinel ∉ s.textOf .bwt) : exec .bwtrleEnc s = .next s.bwtrleEncoded := by
  have hphases : ¬(s.bwt.phase ≠ .idle ∨ s.rle.phase ≠ .idle) := not_or.2 ⟨not_not_intro hbwt, not_not_intro hrle⟩
  have hdone : s.bwtEncoded.done = true := rfl
  rw [exec_bwtrleEnc, if_neg hphases, State.afterBwtFwd_eq_bwtEncoded hl hs, if_pos hdone, State.bwtComp_bwtEncoded hm hl,
    ← State.columnCopied, State.afterRleEnc_eq_rleEncoded (State.textLen_columnCopied_le hm hl), State.bwtrleEncoded]

/-- Wherever the BWT unit stays as `BWTRLE.ENC` left it, BWT.COMP is the column of the text. -/
theorem State.bwtComp_of_bwtrleEncoded {t : State} (ht : t.bwt = s.bwtrleEncoded.bwt) :
    t.bwtComp = bwtColumn (s.textOf .bwt) s.sentinel :=
  State.bwtComp_eq (congrArg CodecUnit.comp ht) (congrArg CodecUnit.compLen ht) (bwtColumn_length_lt hm hl)

/-- Wherever the RLE unit stays as `BWTRLE.ENC` left it, RLE.COMP holds the parts of that column. -/
theorem State.rleComp_of_bwtrleEncoded {t : State} (ht : t.rle = s.bwtrleEncoded.rle) :
    t.rleComp = rleEncode (bwtColumn (s.textOf .bwt) s.sentinel) := by
  rw [← State.textOf_columnCopied hm hl]
  exact State.rleComp_of_rleEncoded (s := s.columnCopied) hm (State.textLen_columnCopied_le hm hl)
    (congrArg CodecUnit.comp ht) (congrArg CodecUnit.compLen ht)

end

/-! ### `BWTRLE.DEC` (R217) -/

/-- After a `BWTRLE.DEC` that completes: RLE.DECOMP is BWT.COMP, BWT.DECOMP is `out`. -/
def State.bwtrleDecoded (s : State) (out : List Byte) : State := (s.rleDecoded s.bwtComp).bwtDecoded out

theorem State.afterCheckedBwtInv_eq_bwtDecoded {s : State} {out : List Byte} (hl : s.bwt.compLen.toNat ≤ s.params.cap)
    (hsame : s.decompOf .rle = s.bwtComp) (h : bwtText s.bwtComp s.sentinel s.bwtOpos.toNat = .ok out) :
    s.afterCheckedBwtInv = s.bwtDecoded out := by
  rw [State.afterCheckedBwtInv, if_neg (Nat.not_lt.2 hl), if_neg (not_not_intro hsame), State.afterBwtInv_eq hl, h]

/-- `RLE.DEC` gives back the BWT.COMP whose parts it finds: there are no more parts than bytes. -/
theorem State.afterRleDec_eq_of_rleComp {s : State} (hl : s.bwt.compLen.toNat ≤ s.params.cap)
    (hparts : s.rleComp = rleEncode s.bwtComp) : s.afterRleDec = s.rleDecoded s.bwtComp := by
  have hfit : s.bwtComp.length ≤ s.params.cap := s.bwtComp_length.trans_le hl
  refine State.afterRleDec_eq_rleDecoded ?_ ?_
  · rw [← State.rleComp_length, hparts]
    exact (rleEncode_length_le _).trans hfit
  · rw [hparts, rleDecode_rleEncode _ hfit]

/-- Where RLE.COMP is the encoding of BWT.COMP, the comparison between the stages passes. -/
theorem exec_bwtrleDec_eq_bwtrleDecoded {s : State} {out : List Byte} (hm : s.params.maxLenOk = true)
    (hrle : s.rle.phase = .encoded) (hbwt : s.bwt.phase = .encoded) (hl : s.bwt.compLen.toNat ≤ s.params.cap)
    (hparts : s.rleComp = rleEncode s.bwtComp) (h : bwtText s.bwtComp s.sentinel s.bwtOpos.toNat = .ok out) :
    exec .bwtrleDec s = .next (s.bwtrleDecoded out) := by
  have hphases : ¬(s.rle.phase ≠ .encoded ∨ s.bwt.phase ≠ .encoded) :=
    not_or.2 ⟨not_not_intro hrle, not_not_intro hbwt⟩
  have hdone : (s.rleDecoded s.bwtComp).done = true := rfl
  have hsame : (s.rleDecoded s.bwtComp).decompOf .rle = s.bwtComp :=
    State.decompOf_rleDecoded hm (s.bwtComp_length.trans_le hl)
  have hinv : (s.rleDecoded s.bwtComp).afterCheckedBwtInv = s.bwtrleDecoded out :=
    State.afterCheckedBwtInv_eq_bwtDecoded hl hsame h
  rw [exec_bwtrleDec, if_neg hphases, State.afterRleDec_eq_of_rleComp hl hparts, if_pos hdone, hinv]

theorem State.decompOf_bwtrleDecoded {s : State} {out : List Byte} (hm : s.params.maxLenOk = true)
    (hfit : out.length ≤ s.params.cap) : (s.bwtrleDecoded out).decompOf .bwt = out :=
  decompOf_written hm hfit rfl rfl

/-! ### One after the other (R220) -/

/-- The command reads the text after its own host action, which leaves a written text as it is (R290). -/
theorem step_bwtrleEnc {s : State} {rest : List HostAction} (hm : s.params.maxLenOk = true) (hb : s.busy = false)
    (hf : s.fault = false) (hhost : s.host = cmdWrite s.params .bwtrleEnc :: rest) (hbwt : s.bwt.phase = .idle)
    (hrle : s.rle.phase = .idle) (hl : s.bwt.textLen.toNat ≤ s.params.maxLen)
    (hw : s.written ⟨.bwt, .text⟩ s.bwt.textLen.toNat) (hs : s.sentinel ∉ s.textOf .bwt) :
    step s = .next (s.takeAction rest).bwtrleEncoded := by
  rw [step_cmdWritten hhost hb hf]
  refine exec_bwtrleEnc_eq_bwtrleEncoded hm hl hbwt hrle ?_
  rw [textOf_takeAction rest rfl hw]
  exact hs

/-- On the column, OPOS and parts a `BWTRLE.ENC` has just written, `BWTRLE.DEC` gives the text back. -/
theorem step_bwtrleDec_of_bwtrleEncoded {s : State} {rest : List HostAction} (hm : s.params.maxLenOk = true)
    (hf : s.fault = false) (hhost : s.host = cmdWrite s.params .bwtrleDec :: rest)
    (hl : s.bwt.textLen.toNat ≤ s.params.maxLen) (hs : s.sentinel ∉ s.textOf .bwt) :
    step s.bwtrleEncoded = .next ((s.bwtrleEncoded.takeAction rest).bwtrleDecoded (s.textOf .bwt)) := by
  have hcomp : (s.bwtrleEncoded.takeAction rest).bwtComp = bwtColumn (s.textOf .bwt) s.sentinel :=
    State.bwtComp_of_bwtrleEncoded hm hl rfl
  have hparts : (s.bwtrleEncoded.takeAction rest).rleComp = rleEncode (s.bwtrleEncoded.takeAction rest).bwtComp := by
    rw [hcomp]
    exact State.rleComp_of_bwtrleEncoded hm hl rfl
  have hlen : (s.bwtrleEncoded.takeAction rest).bwt.compLen.toNat ≤ s.params.cap := by
    rw [← State.bwtComp_length, hcomp]
    exact bwtColumn_length_le_cap hl
  have htext : bwtText (s.bwtrleEncoded.takeAction rest).bwtComp s.sentinel s.bwtEncoded.bwtOpos.toNat =
      .ok (s.textOf .bwt) := by
    rw [hcomp, State.bwtOpos_bwtEncoded hm hl hs, bwtText_bwtColumn hs]
  exact (step_cmdWritten (s := s.bwtrleEncoded) hhost rfl hf).trans
    (exec_bwtrleDec_eq_bwtrleDecoded hm rfl rfl hlen hparts htext)

/-- Settles O43: the text, being written, is the same before the step of `BWTRLE.ENC` and after it (R290), and
`BWTRLE.DEC` gives it back. -/
theorem roundTripComposite : Obligations.RoundTripComposite := by
  unfold Obligations.RoundTripComposite
  intro s rest hm hb hf hhost hbwt hrle hl hw hs
  have hsame := textOf_takeAction (cmdWrites s.params [.bwtrleDec] ++ rest) rfl hw
  have henc := step_bwtrleEnc (rest := cmdWrites s.params [.bwtrleDec] ++ rest) hm hb hf hhost hbwt hrle hl hw hs
  have hdec := step_bwtrleDec_of_bwtrleEncoded (rest := rest)
    (s := s.takeAction (cmdWrites s.params [.bwtrleDec] ++ rest)) hm hf rfl hl (hsame ▸ hs)
  have hfit : (s.textOf .bwt).length ≤ s.params.cap :=
    (State.textOf_length s .bwt).trans_le (Nat.le_succ_of_le hl)
  rw [hsame] at hdec
  exact ⟨_, (runSteps_succ 1 _ _ henc).trans (runSteps_succ 0 _ _ hdec), rfl, hf, rfl, rfl, rfl,
    State.decompOf_bwtrleDecoded hm hfit⟩

end Sys2Proof.Machine
end

