-- ==== Sys2Proof/Proofs/FaultedState.lean ====
section
/-! SUPPORT. The faulted state and the two ways out of it (spec/60_exceptions.md R244, R246, R250): what each host action
does to FAULT and to the fault registers. -/

namespace Sys2Proof.Machine

/-- FAULT, FAULT_CODE and FAULT_INFO are in `t` what they are in `s`. -/
def SameFault (s t : State) : Prop :=
  t.fault = s.fault ∧ t.faultCode = s.faultCode ∧ t.faultInfo = s.faultInfo

theorem sameFault_setUnit (s : State) (u : UnitId) (c : CodecUnit) : SameFault s (s.setUnit u c) :=
  ⟨s.setUnit_fault u c, s.setUnit_faultCode u c, s.setUnit_faultInfo u c⟩

/-- No register but CMD reaches the fault registers: they are read-only for the host (R36). -/
theorem sameFault_writeReg (s : State) (r : Reg) (v : Word) : SameFault s (s.writeReg r v) := by
  cases r with
  | textLen u => exact sameFault_setUnit s u _
  | compLen u => exact sameFault_setUnit s u _
  | _ => exact ⟨rfl, rfl, rfl⟩

theorem sameFault_hostWrite (s : State) (w : Window) (off size : Nat) (v : Word) :
    SameFault s (s.hostWrite w off size v) := by
  obtain ⟨u, kind⟩ := w
  cases kind with
  | text => exact sameFault_setUnit s u _
  | comp => exact sameFault_setUnit s u _
  | decomp => exact ⟨rfl, rfl, rfl⟩

/-- What a host action can do to a faulted block: of the CMD writes only that of `BLK.RST` is accepted (R92 case 1, R246). -/
theorem ActionEffect.sameFault_or_reset {s t : State} {a : HostAction} (hf : s.fault = true) (h : ActionEffect s a t) :
    SameFault s t ∨ (a = .hardwareReset ∨ a = .write s.params.base 4 0x0000000F) ∧ t = s.resetBlock := by
  cases h with
  | hardwareReset => exact .inr ⟨.inl rfl, rfl⟩
  | read addr size v => exact .inl ⟨rfl, rfl, rfl⟩
  | register addr size v r _ => exact .inl (sameFault_writeReg s r v)
  | window addr size v w off _ _ => exact .inl (sameFault_hostWrite s w off size v)
  | ignored v _ _ _ => exact .inl ⟨rfl, rfl, rfl⟩
  | unselected v _ hnf _ => cases hf.symm.trans hnf
  | command v i _ _ hd haccept hexec =>
    obtain rfl : i = .blkRst := haccept.resolve_left (by simp [hf])
    obtain rfl : v = 0x0000000F := decode_sound hd
    exact .inr ⟨.inr rfl, (Host.Outcome.next.inj hexec).symm⟩

/-- Settles O7, by the effects the step's host action can have. -/
theorem faultSticksUntilReset : Obligations.FaultSticksUntilReset := by
  unfold Obligations.FaultSticksUntilReset
  intro s t hf hstep
  obtain ⟨-, rfl⟩ | ⟨a, rest, hhost, heffect⟩ := step_cases hstep
  · exact .inl ⟨hf, rfl, rfl⟩
  · obtain ⟨hfault, hcode, hinfo⟩ | ⟨rfl | rfl, ht⟩ := heffect.sameFault_or_reset (s := s.takeAction rest) hf
    · exact .inl ⟨hfault.trans hf, hcode, hinfo⟩
    · exact .inr ⟨rest, .inl hhost, ht⟩
    · exact .inr ⟨rest, .inr hhost, ht⟩

end Sys2Proof.Machine
end

