-- ==== Sys2Proof/Proofs/PhaseCheck.lean ====
section
/-! SUPPORT. The PHASE a command requires and the PHASEs it writes (spec/60_exceptions.md R247). -/

namespace Sys2Proof.Machine

/-! ### The PHASE a command requires -/

theorem inPhase_iff_of_one {i : Instr} {u : UnitId} {p : Phase} {s : State} (h : requiredPhases i = [(u, p)]) :
    inPhase i s ↔ (s.unit u).phase = p := by
  simp [inPhase, h]

theorem inPhase_bwtrleEnc_iff {s : State} : inPhase .bwtrleEnc s ↔ s.bwt.phase = .idle ∧ s.rle.phase = .idle := by
  simp [inPhase, requiredPhases]

theorem inPhase_bwtrleDec_iff {s : State} : inPhase .bwtrleDec s ↔ s.bwt.phase = .encoded ∧ s.rle.phase = .encoded := by
  simp [inPhase, requiredPhases]

section
variable {i : Instr} {u : UnitId} {p : Phase} {s refused go : State}

/-- A command that checks the PHASE of one unit, outside it. -/
theorem exec_of_phase_ne (hreq : requiredPhases i = [(u, p)])
    (hexec : exec i s = .next (if (s.unit u).phase ≠ p then refused else go)) (h : ¬ inPhase i s) :
    exec i s = .next refused := by
  rw [hexec, if_pos (mt (inPhase_iff_of_one hreq).2 h)]

/-- A command that checks the PHASE of one unit, in it. -/
theorem exec_of_phase_eq (hreq : requiredPhases i = [(u, p)])
    (hexec : exec i s = .next (if (s.unit u).phase ≠ p then refused else go)) (h : inPhase i s) :
    exec i s = .next go := by
  rw [hexec, if_neg (not_not_intro ((inPhase_iff_of_one hreq).1 h))]

end

/-- The PHASE check of every command: F_SEQ, with the opcode as FAULT_INFO, and nothing else. -/
theorem exec_of_not_inPhase {i : Instr} {s : State} (h : ¬ inPhase i s) :
    exec i s = .next (s.faultOnly .seq (encode i).toNat) := by
  cases i with
  | blkRst => exact absurd (by simp [inPhase, requiredPhases]) h
  | rleEnc => exact exec_of_phase_ne rfl (exec_rleEnc s) h
  | rleDec => exact exec_of_phase_ne rfl (exec_rleDec s) h
  | hufBuild => exact exec_of_phase_ne rfl (exec_hufBuild s) h
  | hufEnc => exact exec_of_phase_ne rfl (exec_hufEnc s) h
  | hufDec => exact exec_of_phase_ne rfl (exec_hufDec s) h
  | bwtFwd => exact exec_of_phase_ne rfl (exec_bwtFwd s) h
  | bwtInv => exact exec_of_phase_ne rfl (exec_bwtInv s) h
  | lzwEnc => exact exec_of_phase_ne rfl (exec_lzwEnc s) h
  | lzwDec => exact exec_of_phase_ne rfl (exec_lzwDec s) h
  | bwtrleEnc =>
    exact (exec_bwtrleEnc s).trans (congrArg _ (if_pos (not_and_or.1 (mt inPhase_bwtrleEnc_iff.2 h))))
  | bwtrleDec =>
    exact (exec_bwtrleDec s).trans (congrArg _ (if_pos (not_and_or.1 (mt inPhase_bwtrleDec_iff.2 h)).symm))

/-! ### The PHASEs a command writes -/

/-- `t` has the listed PHASEs, and every unit not listed has the PHASE it has in `s`. -/
def Advances (ps : List (UnitId × Phase)) (s t : State) : Prop :=
  (∀ r, r ∈ ps → (t.unit r.1).phase = r.2) ∧ ∀ u, u ∉ ps.map Prod.fst → (t.unit u).phase = (s.unit u).phase

theorem Advances.perm {ps qs : List (UnitId × Phase)} {s t : State} (h : Advances ps s t) (hp : ps.Perm qs) :
    Advances qs s t :=
  ⟨fun r hr => h.1 r (hp.mem_iff.2 hr), fun u hu => h.2 u (mt (hp.map _).mem_iff.1 hu)⟩

/-- One stage after another, on different units. -/
theorem Advances.trans {ps qs : List (UnitId × Phase)} {s t w : State} (h : Advances ps s t) (h' : Advances qs t w)
    (hd : ∀ r ∈ ps, r.1 ∉ qs.map Prod.fst) : Advances (ps ++ qs) s w := by
  refine ⟨fun r hr => ?_, fun u hu => ?_⟩
  · obtain hr | hr := List.mem_append.1 hr
    · exact (h'.2 r.1 (hd r hr)).trans (h.1 r hr)
    · exact h'.1 r hr
  · rw [List.map_append, List.mem_append, not_or] at hu
    exact (h'.2 u hu.2).trans (h.2 u hu.1)

theorem advances_of_unit {s t : State} {u : UnitId} {p : Phase} (hp : (t.unit u).phase = p)
    (ht : t.unit = (s.setUnit u (t.unit u)).unit) : Advances [(u, p)] s t := by
  refine ⟨fun r hr => by rw [List.mem_singleton.1 hr]; exact hp, fun v hv => ?_⟩
  rw [ht, State.unit_setUnit_ne s (by simpa using hv)]

theorem advances_putText (s : State) (u : UnitId) (bs : List Byte) : Advances [] s (s.putText u bs) := by
  refine ⟨fun r hr => absurd hr List.not_mem_nil, fun v _ => ?_⟩
  by_cases hv : v = u
  · rw [hv, State.unit_putText]
  · rw [State.unit_putText_ne s hv]

theorem advances_resetBlock (s : State) : Advances (phasesAfter .blkRst) s s.resetBlock := by
  refine ⟨fun r hr => ?_, fun u hu => absurd (by cases u <;> decide) hu⟩
  have hidle : ∀ r ∈ phasesAfter .blkRst, r.2 = .idle := by decide
  rw [State.unit_resetBlock, hidle r hr]
  rfl

/-! ### Every command that ends without fault has written them -/

/-- Where `t` is not faulted, the listed PHASEs have been written. -/
def AdvancesUnlessFault (ps : List (UnitId × Phase)) (s t : State) : Prop := t.fault = false → Advances ps s t

theorem advancesUnlessFault_of_fault {ps : List (UnitId × Phase)} {s t : State} (h : t.fault = true) :
    AdvancesUnlessFault ps s t := fun hf => by cases h.symm.trans hf

theorem advancesUnlessFault_of_unit {s t : State} {u : UnitId} {p : Phase} (hp : (t.unit u).phase = p)
    (ht : t.unit = (s.setUnit u (t.unit u)).unit) : AdvancesUnlessFault [(u, p)] s t :=
  fun _ => advances_of_unit hp ht

/-- A check that raises a fault writes no PHASE. -/
theorem advancesUnlessFault_ite {c : Prop} [Decidable c] {ps : List (UnitId × Phase)} {s t u : State}
    (ht : t.fault = true) (hu : AdvancesUnlessFault ps s u) : AdvancesUnlessFault ps s (if c then t else u) := by
  split
  · exact advancesUnlessFault_of_fault ht
  · exact hu

theorem State.afterRleEnc_advances (s : State) : AdvancesUnlessFault [(.rle, .encoded)] s s.afterRleEnc := by
  rw [State.afterRleEnc]
  exact advancesUnlessFault_ite rfl (advancesUnlessFault_of_unit rfl rfl)

theorem State.afterRleDec_advances (s : State) : AdvancesUnlessFault [(.rle, .decoded)] s s.afterRleDec := by
  rw [State.afterRleDec]
  refine advancesUnlessFault_ite rfl ?_
  split
  · exact advancesUnlessFault_of_fault rfl
  · exact advancesUnlessFault_of_unit rfl rfl

theorem State.afterBwtFwd_advances (s : State) : AdvancesUnlessFault [(.bwt, .encoded)] s s.afterBwtFwd := by
  rw [State.afterBwtFwd]
  refine advancesUnlessFault_ite rfl ?_
  split
  · exact advancesUnlessFault_of_unit rfl rfl
  · exact advancesUnlessFault_ite rfl (advancesUnlessFault_of_unit rfl rfl)

theorem State.afterBwtInv_advances (s : State) : AdvancesUnlessFault [(.bwt, .decoded)] s s.afterBwtInv := by
  rw [State.afterBwtInv]
  refine advancesUnlessFault_ite rfl ?_
  split
  · exact advancesUnlessFault_of_fault rfl
  · exact advancesUnlessFault_of_unit rfl rfl

theorem State.afterCheckedBwtInv_advances (s : State) :
    AdvancesUnlessFault [(.bwt, .decoded)] s s.afterCheckedBwtInv := by
  rw [State.afterCheckedBwtInv]
  exact advancesUnlessFault_ite rfl (advancesUnlessFault_ite rfl s.afterBwtInv_advances)

/-- `BWTRLE.ENC` past its PHASE check: the two stages, the second only where the first has completed. -/
theorem bwtrleEnc_stages_advance {s : State} (hf : s.fault = false) :
    AdvancesUnlessFault (phasesAfter .bwtrleEnc) s
      (if s.afterBwtFwd.done then (s.afterBwtFwd.putText .rle s.afterBwtFwd.bwtComp).afterRleEnc
        else s.afterBwtFwd) := by
  obtain ⟨-, -, hdone⟩ := afterBwtFwd_flags s hf
  split
  case isTrue h =>
    have hfwd := s.afterBwtFwd_advances (by simpa [h] using hdone)
    have hcopy := advances_putText s.afterBwtFwd .rle s.afterBwtFwd.bwtComp
    exact fun hend => (hfwd.trans hcopy (by decide)).trans (State.afterRleEnc_advances _ hend) (by decide)
  case isFalse h => exact advancesUnlessFault_of_fault (by simpa [h] using hdone)

/-- `BWTRLE.DEC` past its PHASE check: the stages in the other order. -/
theorem bwtrleDec_stages_advance {s : State} (hf : s.fault = false) :
    AdvancesUnlessFault (phasesAfter .bwtrleDec) s
      (if s.afterRleDec.done then s.afterRleDec.afterCheckedBwtInv else s.afterRleDec) := by
  obtain ⟨-, -, hdone⟩ := afterRleDec_flags s hf
  split
  case isTrue h =>
    have hdec := s.afterRleDec_advances (by simpa [h] using hdone)
    exact fun hend =>
      (hdec.trans (State.afterCheckedBwtInv_advances _ hend) (by decide)).perm (List.Perm.swap ..)
  case isFalse h => exact advancesUnlessFault_of_fault (by simpa [h] using hdone)

/-- The state a command goes on to has, unless it is faulted, the PHASEs of the command's row of R247. -/
theorem exec_advances (i : Instr) {s : State} (hf : s.fault = false) :
    ∃ t, exec i s = .next t ∧ AdvancesUnlessFault (phasesAfter i) s t := by
  cases i with
  | blkRst => exact ⟨_, exec_blkRst s, fun _ => advances_resetBlock s⟩
  | rleEnc => exact ⟨_, exec_rleEnc s, advancesUnlessFault_ite rfl s.afterRleEnc_advances⟩
  | rleDec => exact ⟨_, exec_rleDec s, advancesUnlessFault_ite rfl s.afterRleDec_advances⟩
  | hufBuild =>
    exact ⟨_, exec_hufBuild s,
      advancesUnlessFault_ite rfl (advancesUnlessFault_ite rfl (advancesUnlessFault_of_unit rfl rfl))⟩
  | hufEnc =>
    refine ⟨_, exec_hufEnc s, advancesUnlessFault_ite rfl (advancesUnlessFault_ite rfl ?_)⟩
    split
    · exact advancesUnlessFault_of_fault rfl
    · exact advancesUnlessFault_of_unit rfl rfl
  | hufDec =>
    refine ⟨_, exec_hufDec s, advancesUnlessFault_ite rfl (advancesUnlessFault_ite rfl ?_)⟩
    split
    · exact advancesUnlessFault_of_fault rfl
    · exact advancesUnlessFault_of_unit rfl rfl
  | bwtFwd => exact ⟨_, exec_bwtFwd s, advancesUnlessFault_ite rfl s.afterBwtFwd_advances⟩
  | bwtInv => exact ⟨_, exec_bwtInv s, advancesUnlessFault_ite rfl s.afterBwtInv_advances⟩
  | lzwEnc =>
    exact ⟨_, exec_lzwEnc s,
      advancesUnlessFault_ite rfl (advancesUnlessFault_ite rfl (advancesUnlessFault_of_unit rfl rfl))⟩
  | lzwDec =>
    refine ⟨_, exec_lzwDec s, advancesUnlessFault_ite rfl (advancesUnlessFault_ite rfl ?_)⟩
    split
    · exact advancesUnlessFault_of_fault rfl
    · exact advancesUnlessFault_of_unit rfl rfl
  | bwtrleEnc => exact ⟨_, exec_bwtrleEnc s, advancesUnlessFault_ite rfl (bwtrleEnc_stages_advance hf)⟩
  | bwtrleDec => exact ⟨_, exec_bwtrleDec s, advancesUnlessFault_ite rfl (bwtrleDec_stages_advance hf)⟩

/-- Settles O12: outside its PHASE a command takes F_SEQ, so one that ends without fault was in it, and it has written the
PHASEs of its row. -/
theorem phasesGateAndAdvance : Obligations.PhasesGateAndAdvance := by
  unfold Obligations.PhasesGateAndAdvance
  refine ⟨fun s i => exec_of_not_inPhase, fun s t i hf h hend => ⟨?inPhase, ?advances⟩⟩
  case inPhase =>
    by_contra hp
    cases h.symm.trans (exec_of_not_inPhase hp)
    cases hend
  case advances =>
    obtain ⟨u, hu, hadvances⟩ := exec_advances i hf
    cases hu.symm.trans h
    exact hadvances hend

end Sys2Proof.Machine
end

