-- ==== Sys2Proof/Proofs/LengthCheck.lean ====
section
/-! SUPPORT. The length limits (spec/60_exceptions.md R248): the check every command but `BLK.RST` makes after its PHASE
check, and the second one of `BWTRLE.DEC` after its RLE stage (spec/44_composite_system.md R217). -/

namespace Sys2Proof.Machine

/-- The length check of every command: F_LEN, with the length as FAULT_INFO, and nothing else. -/
theorem exec_of_long {i : Instr} {s : State} {len : Word} {limit : Nat} (hp : inPhase i s)
    (hl : lengthCheck s i = some (len, limit)) (hlong : limit < len.toNat) :
    exec i s = .next (s.faultOnly .len len.toNat) := by
  cases i <;> cases hl
  case rleEnc => exact (exec_of_phase_eq rfl (exec_rleEnc s) hp).trans (congrArg _ (if_pos hlong))
  case rleDec => exact (exec_of_phase_eq rfl (exec_rleDec s) hp).trans (congrArg _ (if_pos hlong))
  case hufBuild => exact (exec_of_phase_eq rfl (exec_hufBuild s) hp).trans (congrArg _ (if_pos hlong))
  case hufEnc => exact (exec_of_phase_eq rfl (exec_hufEnc s) hp).trans (congrArg _ (if_pos hlong))
  case hufDec => exact (exec_of_phase_eq rfl (exec_hufDec s) hp).trans (congrArg _ (if_pos hlong))
  case bwtFwd => exact (exec_of_phase_eq rfl (exec_bwtFwd s) hp).trans (congrArg _ (if_pos hlong))
  case bwtInv => exact (exec_of_phase_eq rfl (exec_bwtInv s) hp).trans (congrArg _ (if_pos hlong))
  case lzwEnc => exact (exec_of_phase_eq rfl (exec_lzwEnc s) hp).trans (congrArg _ (if_pos hlong))
  case lzwDec => exact (exec_of_phase_eq rfl (exec_lzwDec s) hp).trans (congrArg _ (if_pos hlong))
  case bwtrleEnc =>
    obtain ⟨hbwt, hrle⟩ := inPhase_bwtrleEnc_iff.1 hp
    have hstage : s.afterBwtFwd = s.faultOnly .len s.bwt.textLen.toNat := by rw [State.afterBwtFwd, if_pos hlong]
    rw [exec_bwtrleEnc, if_neg (by simp [hbwt, hrle]), hstage]
    rfl
  case bwtrleDec =>
    obtain ⟨hbwt, hrle⟩ := inPhase_bwtrleDec_iff.1 hp
    have hstage : s.afterRleDec = s.faultOnly .len s.rle.compLen.toNat := by rw [State.afterRleDec, if_pos hlong]
    rw [exec_bwtrleDec, if_neg (by simp [hbwt, hrle]), hstage]
    rfl

/-! ### The second check of `BWTRLE.DEC` -/

/-- Without a fault `RLE.DEC` has run to its end. -/
theorem State.afterRleDec_done {s : State} (h : s.afterRleDec.fault = false) : s.afterRleDec.done = true := by
  revert h
  rw [State.afterRleDec]
  split
  · exact fun h => nomatch h
  · split
    · exact fun h => nomatch h
    · exact fun _ => rfl

/-- After an RLE stage without fault, `BWTRLE.DEC` goes on with the checks of R217. -/
theorem exec_bwtrleDec_of_rleDec {s a : State} (hp : inPhase .bwtrleDec s) (ha : exec .rleDec s = .next a)
    (hf : a.fault = false) : a = s.afterRleDec ∧ exec .bwtrleDec s = .next a.afterCheckedBwtInv := by
  obtain ⟨hbwt, hrle⟩ := inPhase_bwtrleDec_iff.1 hp
  rw [exec_rleDec, if_neg (not_not_intro hrle)] at ha
  cases ha
  exact ⟨rfl, by rw [exec_bwtrleDec, if_neg (by simp [hbwt, hrle]), if_pos (State.afterRleDec_done hf)]⟩

/-- Settles O13: each command's length check stands right after its PHASE check; the RLE stage of `BWTRLE.DEC` leaves the
BWT unit as it was, so its second check is of the length in the first state. -/
theorem lengthAboveLimitIsLenFault : Obligations.LengthAboveLimitIsLenFault := by
  unfold Obligations.LengthAboveLimitIsLenFault
  refine ⟨fun s i len limit => exec_of_long, fun s a hp ha hf hlong => ?_⟩
  obtain ⟨rfl, hexec⟩ := exec_bwtrleDec_of_rleDec hp ha hf
  have hbwt : s.afterRleDec.bwt = s.bwt := by rw [afterRleDec_frame]; rfl
  have hparams : s.afterRleDec.params = s.params := by rw [afterRleDec_frame]; rfl
  refine ⟨_, hexec, ?_⟩
  rw [State.afterCheckedBwtInv, if_pos (by rw [hbwt, hparams]; exact hlong), hbwt]
  exact faulted_faultOnly _ _ _

end Sys2Proof.Machine
end

