-- ==== Sys2Proof/Proofs/ResetState.lean ====
section
/-! SUPPORT. The state right after hardware reset (spec/10_state.md R47, spec/70_reset_and_hazards.md R280). -/

namespace Sys2Proof.Machine

/-- Resetting the block after hardware reset changes nothing, so every law of `resetBlock` is one of `State.reset`. -/
theorem State.resetBlock_reset : State.reset.resetBlock = State.reset := rfl

/-- Settles O10: the reset state is a reset block, whose fields are R47's values. -/
theorem resetState : Obligations.ResetState := by
  unfold Obligations.ResetState
  rw [← State.resetBlock_reset]
  refine ⟨State.statusWord_resetBlock _, State.resetBlock_faultCode _, State.resetBlock_faultInfo _,
    State.resetBlock_sentinel _, fun u => ?units, State.resetBlock_bwtOpos _, State.resetBlock_hufRoot _,
    State.resetBlock_hufNnodes _, fun b => ?tables⟩
  case units =>
    rw [State.unit_resetBlock]
    exact ⟨rfl, rfl, rfl, rfl⟩
  case tables => simp [Vector.get_eq_getElem]

end Sys2Proof.Machine
end

