-- ==== Sys2Proof/Proofs/CommandResult.lean ====
section
/-! SUPPORT. Everything a command can leave, said once for the twelve of them (spec/60_exceptions.md R242 to R249,
spec/44_composite_system.md R216, R217): the claims about flags, faults, frames and invariants are derived from it by the
ways a command can end. -/

namespace Sys2Proof.Machine

/-- The command that fills a unit's COMP. -/
def encoderOf : UnitId → Instr
  | .rle => .rleEnc
  | .huf => .hufEnc
  | .bwt => .bwtFwd
  | .lzw => .lzwEnc

/-- The command that fills a unit's DECOMP. -/
def decoderOf : UnitId → Instr
  | .rle => .rleDec
  | .huf => .hufDec
  | .bwt => .bwtInv
  | .lzw => .lzwDec

/-- After an encoder that completes with `n` elements laid out as the bytes `bs`; OPOS and SUFIDX are `BWT.FWD`'s. -/
def State.encodedInto (s : State) (u : UnitId) (n : Nat) (bs : List Byte) (opos : Word) (sufidx : List Nat) : State :=
  { s.ended.setUnit u { s.unit u with phase := .encoded, compLen := BitVec.ofNat 32 n, comp := Mem.ofBytes 0 bs } with
    bwtOpos := opos, bwtSufidx := sufidx }

/-- After a decoder that completes with the bytes `out`. -/
def State.decodedInto (s : State) (u : UnitId) (out : List Byte) : State :=
  s.ended.setUnit u { s.unit u with
    phase := .decoded, decompLen := BitVec.ofNat 32 out.length, decomp := Mem.ofBytes 0 out }

@[simp] theorem State.encodedInto_fault (s : State) (u : UnitId) (n : Nat) (bs : List Byte) (opos : Word)
    (sufidx : List Nat) : (s.encodedInto u n bs opos sufidx).fault = s.fault := by cases u <;> rfl

@[simp] theorem State.decodedInto_fault (s : State) (u : UnitId) (out : List Byte) :
    (s.decodedInto u out).fault = s.fault := by cases u <;> rfl

/-- No code is longer than R39 allows. -/
def State.codesFit (s : State) : Prop := ∀ b bits, s.codeOf b = some bits → bits.length ≤ 255

/-- The faults of a check before any data is read (R247, R248). -/
def FaultKind.isCheck (k : FaultKind) : Bool := k == .seq || k == .len

/-- What a command can leave: reset values; the fault of a check; a data fault with its destination emptied; or what it
has written. A composite leaves what its first stage leaves where that faults, and else goes on from there. -/
inductive CommandResult : State → Instr → State → Prop where
  | reset (s : State) : CommandResult s .blkRst s.resetBlock
  | refused {i : Instr} (s : State) (k : FaultKind) (info : Nat) : i ≠ .blkRst → k.isCheck = true →
      CommandResult s i (s.faultOnly k info)
  | droppedComp {i : Instr} (s : State) (u : UnitId) (k : FaultKind) (info : Nat) : i = encoderOf u →
      k.code ∈ raisableCodes i → k.isCheck = false → CommandResult s i ((s.dropComp u).faultOnly k info)
  | droppedDecomp {i : Instr} (s : State) (u : UnitId) (k : FaultKind) (info : Nat) : i = decoderOf u →
      k.code ∈ raisableCodes i → k.isCheck = false → CommandResult s i ((s.dropDecomp u).faultOnly k info)
  | encoded {i : Instr} (s : State) (u : UnitId) (n : Nat) (bs : List Byte) (opos : Word) (sufidx : List Nat) :
      i = encoderOf u → (u ≠ .huf → n ≤ s.params.cap) → (s.codesFit → bs.length ≤ s.params.windowSize ⟨u, .comp⟩) →
      (u ≠ .bwt → opos = s.bwtOpos ∧ sufidx = s.bwtSufidx) →
      CommandResult s i (s.encodedInto u n bs opos sufidx)
  | decoded {i : Instr} (s : State) (u : UnitId) (out : List Byte) : i = decoderOf u → out.length ≤ s.params.cap →
      CommandResult s i (s.decodedInto u out)
  | built (s : State) : CommandResult s .hufBuild (s.hufBuilt s.builtTree)
  | encFirstFaults {s a : State} : CommandResult s .bwtFwd a → a.done = false → CommandResult s .bwtrleEnc a
  | encBoth {s a t : State} : CommandResult s .bwtFwd a → a.done = true →
      CommandResult (a.putText .rle a.bwtComp) .rleEnc t → CommandResult s .bwtrleEnc t
  | decFirstFaults {s a : State} : CommandResult s .rleDec a → a.done = false → CommandResult s .bwtrleDec a
  | decTooLong {s a : State} (info : Nat) : CommandResult s .rleDec a → a.done = true →
      CommandResult s .bwtrleDec (a.faultOnly .len info)
  | decDiffers {s a : State} (info : Nat) : CommandResult s .rleDec a → a.done = true →
      CommandResult s .bwtrleDec ((a.dropDecomp .bwt).faultOnly .composite info)
  | decBoth {s a t : State} : CommandResult s .rleDec a → a.done = true → CommandResult a .bwtInv t →
      CommandResult s .bwtrleDec t

/-! ### Every command leaves one of these -/

/-- A check, and what comes after it. -/
theorem CommandResult.ite {i : Instr} {s t : State} {k : FaultKind} {info : Nat} {c : Prop} [Decidable c]
    (hi : i ≠ .blkRst) (hk : k.isCheck = true) (ht : ¬c → CommandResult s i t) :
    CommandResult s i (if c then s.faultOnly k info else t) := by
  split
  · exact .refused s k info hi hk
  · exact ht ‹_›

/-- What a decoder leaves whose rule answers `r`. -/
def State.decodeEnd (s : State) (u : UnitId) (r : Except Trap (List Byte)) : State :=
  match r with
  | .error t => (s.dropDecomp u).faultOnly t.kind t.info
  | .ok out => s.decodedInto u out

theorem State.decodeEnd_result {s : State} {u : UnitId} {r : Except Trap (List Byte)}
    (herr : ∀ t, r = .error t → t.kind.code ∈ raisableCodes (decoderOf u) ∧ t.kind.isCheck = false)
    (hok : ∀ out, r = .ok out → out.length ≤ s.params.cap) : CommandResult s (decoderOf u) (s.decodeEnd u r) := by
  cases r with
  | error t => exact .droppedDecomp s u _ _ rfl (herr t rfl).1 (herr t rfl).2
  | ok out => exact .decoded s u out rfl (hok out rfl)

theorem State.afterRleEnc_result (s : State) : CommandResult s .rleEnc s.afterRleEnc := by
  rw [State.afterRleEnc]
  refine .ite (by decide) rfl fun hl => ?_
  have hn := (rleEncode_textOf_length_le s).trans (Nat.le_of_not_lt hl)
  refine .encoded s .rle _ _ s.bwtOpos s.bwtSufidx rfl (fun _ => hn) (fun _ => ?_) fun _ => ⟨rfl, rfl⟩
  rw [bytesOfWords_length, List.length_map]
  exact Nat.mul_le_mul_left 4 hn

theorem State.afterRleDec_result (s : State) : CommandResult s .rleDec s.afterRleDec := by
  rw [State.afterRleDec]
  refine .ite (by decide) rfl fun _ => State.decodeEnd_result (u := .rle) (fun t ht => ?_) fun out hout => ?_
  · rcases rleDecode_kind ht with h | h <;> rw [h] <;> decide
  · exact (rleDecode_ok (Nat.zero_le _) hout).2

theorem State.afterBwtFwd_result (s : State) : CommandResult s .bwtFwd s.afterBwtFwd := by
  by_cases hl : s.bwt.textLen.toNat > s.params.maxLen
  · rw [State.afterBwtFwd, if_pos hl]
    exact .refused s _ _ (by decide) rfl
  by_cases hs : s.sentinel ∈ s.textOf .bwt
  · have hne : ¬s.bwt.textLen.toNat = 0 := mt s.textOf_bwt_eq_nil.2 (List.ne_nil_of_mem hs)
    rw [State.afterBwtFwd, if_neg hl, if_neg hne, if_pos hs]
    exact .droppedComp s .bwt _ _ rfl (by decide) rfl
  · rw [State.afterBwtFwd_eq_bwtEncoded (Nat.le_of_not_lt hl) hs]
    have hn := bwtColumn_length_le_cap (Nat.le_of_not_lt hl)
    exact .encoded s .bwt _ _ _ _ rfl (fun _ => hn) (fun _ => hn) fun h => absurd rfl h

theorem State.afterBwtInv_result (s : State) : CommandResult s .bwtInv s.afterBwtInv := by
  by_cases hl : s.bwt.compLen.toNat > s.params.cap
  · rw [State.afterBwtInv, if_pos hl]
    exact .refused s _ _ (by decide) rfl
  rw [State.afterBwtInv_eq (Nat.le_of_not_lt hl)]
  refine State.decodeEnd_result (u := .bwt) (fun t ht => ?_) fun out hout => ?_
  · have ht : bwtInverse s.bwtComp s.sentinel s.bwtOpos.toNat = .error t := by
      rw [bwtText] at ht
      split at ht
      · cases ht
      · exact ht
    rw [bwtInverse_error ht]
    decide
  · rw [bwtText_length hout, State.bwtComp_length]
    omega

/-- The checks between the stages of `BWTRLE.DEC` and the second stage (R217). -/
theorem CommandResult.ofCheckedBwtInv {s a : State} (h : CommandResult s .rleDec a) (hd : a.done = true) :
    CommandResult s .bwtrleDec a.afterCheckedBwtInv := by
  rw [State.afterCheckedBwtInv]
  split
  · exact .decTooLong _ h hd
  · split
    · exact .decDiffers _ h hd
    · exact .decBoth h hd a.afterBwtInv_result

/-- What a command goes on to is one of its results. -/
theorem exec_result (i : Instr) (s : State) : ∃ t, exec i s = .next t ∧ CommandResult s i t := by
  cases i with
  | blkRst => exact ⟨_, exec_blkRst s, .reset s⟩
  | rleEnc => exact ⟨_, exec_rleEnc s, .ite (by decide) rfl fun _ => s.afterRleEnc_result⟩
  | rleDec => exact ⟨_, exec_rleDec s, .ite (by decide) rfl fun _ => s.afterRleDec_result⟩
  | hufBuild => exact ⟨_, exec_hufBuild s, .ite (by decide) rfl fun _ => .ite (by decide) rfl fun _ => .built s⟩
  | hufEnc =>
    refine ⟨_, exec_hufEnc s, .ite (by decide) rfl fun _ => .ite (by decide) rfl fun hl => ?_⟩
    split
    · rename_i t ht
      exact .droppedComp s .huf _ _ rfl (by rw [hufEncode_error ht]; decide) (by rw [hufEncode_error ht]; rfl)
    · rename_i out hout
      refine .encoded s .huf _ _ s.bwtOpos s.bwtSufidx rfl (absurd rfl) (fun hcodes => ?_) fun _ => ⟨rfl, rfl⟩
      have hbits := hufEncode_length_le hcodes hout
      rw [State.textOf_length, State.unit_huf] at hbits
      simp only [packBits_length, Params.windowSize, Params.hufBitsCap]
      omega
  | hufDec =>
    refine ⟨_, exec_hufDec s, .ite (by decide) rfl fun _ => .ite (by decide) rfl fun _ =>
      State.decodeEnd_result (u := .huf) (fun t ht => ?_) fun out hout => hufDecode_ok_length hout⟩
    rcases hufDecode_kind ht with h | h | h <;> rw [h] <;> decide
  | bwtFwd => exact ⟨_, exec_bwtFwd s, .ite (by decide) rfl fun _ => s.afterBwtFwd_result⟩
  | bwtInv => exact ⟨_, exec_bwtInv s, .ite (by decide) rfl fun _ => s.afterBwtInv_result⟩
  | lzwEnc =>
    refine ⟨_, exec_lzwEnc s, .ite (by decide) rfl fun _ => .ite (by decide) rfl fun hl => ?_⟩
    have hn := lzwEncode_length_le_cap (Nat.le_of_not_lt hl)
    refine .encoded s .lzw _ _ s.bwtOpos s.bwtSufidx rfl (fun _ => hn) (fun _ => ?_) fun _ => ⟨rfl, rfl⟩
    rw [bytesOfWords_length, List.length_map]
    exact Nat.mul_le_mul_left 4 hn
  | lzwDec =>
    refine ⟨_, exec_lzwDec s, .ite (by decide) rfl fun _ => .ite (by decide) rfl fun _ =>
      State.decodeEnd_result (u := .lzw) (fun t ht => ?_) fun out hout => lzwDecode_length_le (Nat.le_add_left 1 _) hout⟩
    rcases lzwDecode_kind ht with h | h <;> rw [h] <;> decide
  | bwtrleEnc =>
    refine ⟨_, exec_bwtrleEnc s, .ite (by decide) rfl fun _ => ?_⟩
    split
    · exact .encBoth s.afterBwtFwd_result ‹_› (State.afterRleEnc_result _)
    · exact .encFirstFaults s.afterBwtFwd_result (by simpa using ‹¬s.afterBwtFwd.done = true›)
  | bwtrleDec =>
    refine ⟨_, exec_bwtrleDec s, .ite (by decide) rfl fun _ => ?_⟩
    split
    · exact CommandResult.ofCheckedBwtInv s.afterRleDec_result ‹_›
    · exact .decFirstFaults s.afterRleDec_result (by simpa using ‹¬s.afterRleDec.done = true›)

/-- Everything a command can do. -/
theorem commandResult_of_exec {i : Instr} {s t : State} (h : exec i s = .next t) : CommandResult s i t := by
  obtain ⟨u, hu, hr⟩ := exec_result i s
  cases hu.symm.trans h
  exact hr

/-! ### What no command touches -/

/-- The parameters, the script and the draw counter, which are no state of the block (log entries 1, 2 and 9). -/
def SameSetting (s t : State) : Prop := t.params = s.params ∧ t.host = s.host ∧ t.draw = s.draw

theorem SameSetting.trans {s a t : State} (h : SameSetting s a) (h' : SameSetting a t) : SameSetting s t :=
  ⟨h'.1.trans h.1, h'.2.1.trans h.2.1, h'.2.2.trans h.2.2⟩

theorem sameSetting_setUnit (s : State) (u : UnitId) (c : CodecUnit) : SameSetting s (s.setUnit u c) :=
  ⟨s.setUnit_params u c, s.setUnit_host u c, s.setUnit_draw u c⟩

theorem CommandResult.setting {i : Instr} {s t : State} (h : CommandResult s i t) : SameSetting s t := by
  induction h with
  | reset | refused | built => exact ⟨rfl, rfl, rfl⟩
  | droppedComp s u | droppedDecomp s u => exact sameSetting_setUnit s u _
  | encoded s u | decoded s u => exact sameSetting_setUnit s.ended u _
  | encFirstFaults _ _ ih => exact ih
  | encBoth _ _ _ ih ih' => exact ih.trans ((sameSetting_setUnit _ _ _).trans ih')
  | decFirstFaults _ _ ih => exact ih
  | decTooLong _ _ _ ih => exact ih
  | decDiffers _ _ _ ih => exact ih.trans (sameSetting_setUnit _ _ _)
  | decBoth _ _ _ ih ih' => exact ih.trans ih'

theorem CommandResult.params {i : Instr} {s t : State} (h : CommandResult s i t) : t.params = s.params := h.setting.1

theorem CommandResult.draw {i : Instr} {s t : State} (h : CommandResult s i t) : t.draw = s.draw := h.setting.2.2

end Sys2Proof.Machine
end

