-- ==== Sys2Proof/Proofs/CommandEnd.lean ====
section
/-! SUPPORT. The STATUS flags and the fault registers after a command, and what its fault leaves (spec/10_state.md R22 to
R24, spec/60_exceptions.md R240 to R245). -/

namespace Sys2Proof.Machine

/-! ### Flags and fault registers -/

/-- How the flags and the fault registers stand after `i` has led from `s` to `t`. -/
structure FlagsAfter (i : Instr) (s t : State) : Prop where
  busy : t.busy = false
  selErr : t.selErr = false
  done : t.done = (decide (i ≠ .blkRst) && !t.fault)
  code : t.fault = true → t.faultCode ∈ raisableCodes i
  quiet : t.fault = false →
    (t.faultCode = s.faultCode ∧ t.faultInfo = s.faultInfo) ∨ (t.faultCode = 0 ∧ t.faultInfo = 0)

theorem checkCode_raisable {i : Instr} {k : FaultKind} (hi : i ≠ .blkRst) (hk : k.isCheck = true) :
    k.code ∈ raisableCodes i := by
  have hk : k = .seq ∨ k = .len := by simpa [FaultKind.isCheck] using hk
  cases i with
  | blkRst => exact absurd rfl hi
  | _ => rcases hk with rfl | rfl <;> decide

/-- A fault of a first stage is one of the composite's. -/
theorem raisableCodes_bwtFwd : raisableCodes .bwtFwd ⊆ raisableCodes .bwtrleEnc := by decide
theorem raisableCodes_rleEnc : raisableCodes .rleEnc ⊆ raisableCodes .bwtrleEnc := by decide
theorem raisableCodes_rleDec : raisableCodes .rleDec ⊆ raisableCodes .bwtrleDec := by decide
theorem raisableCodes_bwtInv : raisableCodes .bwtInv ⊆ raisableCodes .bwtrleDec := by decide

theorem flagsAfter_faultOnly {i : Instr} (s t : State) {k : FaultKind} (info : Nat)
    (hk : k.code ∈ raisableCodes i) : FlagsAfter i s (t.faultOnly k info) :=
  ⟨rfl, rfl, by simp [State.faultOnly], fun _ => hk, fun h => nomatch h⟩

/-- A command's effect beside the flags and the fault registers does not matter for them. -/
theorem flagsAfter_ended {i : Instr} {s t : State} (hi : i ≠ .blkRst) (hf : s.fault = false) (hb : t.busy = false)
    (hd : t.done = true) (he : t.selErr = false) (h : SameFault s t) : FlagsAfter i s t := by
  obtain ⟨hfault, hcode, hinfo⟩ := h
  rw [hf] at hfault
  exact ⟨hb, he, by simp [hd, hi, hfault], fun h => by simp [hfault] at h, fun _ => .inl ⟨hcode, hinfo⟩⟩

/-- A composite that ends with its first stage. -/
theorem FlagsAfter.widen {i j : Instr} {s t : State} (h : FlagsAfter i s t) (hi : i ≠ .blkRst) (hj : j ≠ .blkRst)
    (hsub : raisableCodes i ⊆ raisableCodes j) : FlagsAfter j s t :=
  ⟨h.busy, h.selErr, by simp [h.done, hi, hj], fun hf => hsub (h.code hf), h.quiet⟩

/-- A stage that has run to its end has raised no fault. -/
theorem FlagsAfter.fault_of_done {i : Instr} {s t : State} (h : FlagsAfter i s t) (hd : t.done = true) :
    t.fault = false := by
  have := h.done
  rw [hd] at this
  simp_all

/-- One stage after another, whose start has the fault registers the first left. -/
theorem FlagsAfter.trans {i : Instr} {j : Instr} {s a b t : State} (h : FlagsAfter i s a) (hd : a.done = true)
    (hab : SameFault a b) (h' : FlagsAfter j b t) : FlagsAfter j s t := by
  obtain ⟨-, hcode, hinfo⟩ := hab
  refine ⟨h'.busy, h'.selErr, h'.done, h'.code, fun hf => ?_⟩
  rcases h'.quiet hf with h' | h'
  · rw [hcode, hinfo] at h'
    rw [h'.1, h'.2]
    exact h.quiet (h.fault_of_done hd)
  · exact .inr h'

theorem encoderOf_ne_blkRst (u : UnitId) : encoderOf u ≠ .blkRst := by cases u <;> decide
theorem decoderOf_ne_blkRst (u : UnitId) : decoderOf u ≠ .blkRst := by cases u <;> decide

/-- The flags and the fault registers after any command that is accepted without a fault pending. -/
theorem CommandResult.flags {i : Instr} {s t : State} (h : CommandResult s i t) (hf : s.fault = false) :
    FlagsAfter i s t := by
  induction h with
  | reset s => exact ⟨rfl, rfl, rfl, fun h => (nomatch h), fun _ => .inr ⟨rfl, rfl⟩⟩
  | refused s k info hi hk => exact flagsAfter_faultOnly _ _ _ (checkCode_raisable hi hk)
  | droppedComp s u k info _ hk _ => exact flagsAfter_faultOnly _ _ _ hk
  | droppedDecomp s u k info _ hk _ => exact flagsAfter_faultOnly _ _ _ hk
  | encoded s u n bs opos sufidx hi _ _ _ =>
    exact flagsAfter_ended (hi ▸ encoderOf_ne_blkRst u) hf (State.setUnit_busy ..) (State.setUnit_done ..)
      (State.setUnit_selErr ..) (sameFault_setUnit s.ended u _)
  | decoded s u out hi _ =>
    exact flagsAfter_ended (hi ▸ decoderOf_ne_blkRst u) hf (State.setUnit_busy ..) (State.setUnit_done ..)
      (State.setUnit_selErr ..) (sameFault_setUnit s.ended u _)
  | built s => exact flagsAfter_ended (by decide) hf rfl rfl rfl ⟨rfl, rfl, rfl⟩
  | encFirstFaults _ _ ih => exact (ih hf).widen (by decide) (by decide) raisableCodes_bwtFwd
  | encBoth _ hd _ ih ih' =>
    have hput := (ih' ((ih hf).fault_of_done hd)).widen (by decide) (by decide) raisableCodes_rleEnc
    exact (ih hf).trans hd (sameFault_setUnit _ _ _) hput
  | decFirstFaults _ _ ih => exact (ih hf).widen (by decide) (by decide) raisableCodes_rleDec
  | decTooLong info _ _ _ => exact flagsAfter_faultOnly _ _ _ (by decide)
  | decDiffers info _ _ _ => exact flagsAfter_faultOnly _ _ _ (by decide)
  | decBoth _ hd _ ih ih' =>
    have hinv := (ih' ((ih hf).fault_of_done hd)).widen (by decide) (by decide) raisableCodes_bwtInv
    exact (ih hf).trans hd ⟨rfl, rfl, rfl⟩ hinv

/-- Settles O6, from the flags of every result a command can have. -/
theorem acceptedCommandsEnd : Obligations.AcceptedCommandsEnd := by
  unfold Obligations.AcceptedCommandsEnd
  intro s i hf
  obtain ⟨t, ht, hresult⟩ := exec_result i s
  refine ⟨t, ht, (hresult.flags hf).busy, (hresult.flags hf).selErr, ?_⟩
  split
  · subst i
    cases ht
    exact ⟨rfl, rfl⟩
  · rw [(hresult.flags hf).done]
    simp [*]

/-- Settles O9, from the flags of every result a command can have. -/
theorem onlyListedFaults : Obligations.OnlyListedFaults := by
  unfold Obligations.OnlyListedFaults
  intro s t i hf h hfault
  have hflags := (commandResult_of_exec h).flags hf
  exact ⟨hflags.code hfault, hflags.busy, by simp [hflags.done, hfault], hflags.selErr⟩

/-! ### What a fault leaves -/

theorem isCheck_iff_code (k : FaultKind) : k.isCheck = true ↔ k.code ∈ [(0x01 : Byte), 0x02] := by
  cases k <;> decide

theorem dropDestination_encoderOf (s : State) (u : UnitId) : dropDestination s (encoderOf u) = s.dropComp u := by
  cases u <;> rfl

theorem dropDestination_decoderOf (s : State) (u : UnitId) : dropDestination s (decoderOf u) = s.dropDecomp u := by
  cases u <;> rfl

/-- Settles O14: of the results of a one-unit command, the faults are that of a check, which has written nothing, and a
data fault, which has emptied the destination. -/
theorem unitCommandFaultFrame : Obligations.UnitCommandFaultFrame := by
  unfold Obligations.UnitCommandFaultFrame
  intro s t i hi hf h hfault
  cases commandResult_of_exec h with
  | refused _ k info _ hk => exact ⟨fun _ => rfl, fun h => absurd ((isCheck_iff_code k).1 hk) h⟩
  | droppedComp _ u k info hu _ hk =>
    rw [hu, dropDestination_encoderOf]
    exact ⟨fun h => absurd ((isCheck_iff_code k).2 h) (by simp [hk]), fun _ => rfl⟩
  | droppedDecomp _ u k info hu _ hk =>
    rw [hu, dropDestination_decoderOf]
    exact ⟨fun h => absurd ((isCheck_iff_code k).2 h) (by simp [hk]), fun _ => rfl⟩
  | encoded => simp [hf] at hfault
  | decoded => simp [hf] at hfault
  | built => exact absurd (hf.symm.trans hfault) (by decide)
  | reset | encFirstFaults | encBoth | decFirstFaults | decTooLong | decDiffers | decBoth => exact absurd hi (by decide)

end Sys2Proof.Machine
end

