-- ==== Sys2Proof/Proofs/Invariants.lean ====
section
/-! SUPPORT. What every step keeps (spec/10_state.md R20 to R40, spec/20_memory.md R61): the flags and fault registers, the
PHASEs and lengths, the windows, the Huffman tables. -/

namespace Sys2Proof.Machine

/-! ### The parameters, the script and the draw counter -/

theorem ActionEffect.setting {s t : State} {a : HostAction} (h : ActionEffect s a t) : SameSetting s t := by
  cases h with
  | hardwareReset | read | ignored | unselected => exact ⟨rfl, rfl, rfl⟩
  | register addr size v r _ =>
    cases r with
    | textLen u | compLen u => exact sameSetting_setUnit s u _
    | _ => exact ⟨rfl, rfl, rfl⟩
  | window addr size v w off _ _ =>
    obtain ⟨u, kind⟩ := w
    cases kind with
    | text | comp => exact sameSetting_setUnit s u _
    | decomp => exact ⟨rfl, rfl, rfl⟩
  | command v i _ _ _ _ hexec => exact (commandResult_of_exec hexec).setting

/-- Settles O55: a host action leaves the script before it has its effect, and no effect reaches the script again. -/
theorem stepTakesOneHostAction : Obligations.StepTakesOneHostAction := by
  unfold Obligations.StepTakesOneHostAction
  intro s t hstep
  obtain ⟨hnone, rfl⟩ | ⟨a, rest, hhost, heffect⟩ := step_cases hstep
  · exact ⟨rfl, .inl ⟨hnone, rfl⟩⟩
  · obtain ⟨hparams, hrest, hdraw⟩ := heffect.setting
    exact ⟨hparams, .inr ⟨⟨a, by rw [hhost, hrest]; rfl⟩, hdraw⟩⟩

/-! ### Flags and fault registers (R22 to R24) -/

theorem statusOk_iff {s : State} :
    s.statusOk = true ↔ s.busy = false ∧
      (s.fault = true → s.done = false ∧ s.selErr = false ∧ 1 ≤ s.faultCode.toNat ∧ s.faultCode.toNat ≤ 0x0B) ∧
      (s.fault = false → s.faultCode = 0 ∧ s.faultInfo = 0) := by
  rw [State.statusOk]
  cases s.fault <;> cases s.busy <;> simp
  tauto

/-- Every code of R240 is one of the eleven. -/
theorem raisableCodes_range (i : Instr) : ∀ c ∈ raisableCodes i, 1 ≤ c.toNat ∧ c.toNat ≤ 0x0B := by
  cases i <;> decide

theorem CommandResult.statusOk {i : Instr} {s t : State} (h : CommandResult s i t) (hf : s.fault = false)
    (hs : s.statusOk = true) : t.statusOk = true := by
  obtain ⟨-, -, hquiet⟩ := statusOk_iff.1 hs
  obtain ⟨hcode, hinfo⟩ := hquiet hf
  have hflags := h.flags hf
  refine statusOk_iff.2 ⟨hflags.busy, fun hfault => ⟨?_, hflags.selErr, raisableCodes_range i _ (hflags.code hfault)⟩,
    fun hfault => ?_⟩
  · simp [hflags.done, hfault]
  · have hquiet := hflags.quiet hfault
    rw [hcode, hinfo] at hquiet
    exact hquiet.elim id id

/-- No host write reaches the flags or the fault registers but one to CMD. -/
theorem statusOk_setUnit (s : State) (u : UnitId) (c : CodecUnit) : (s.setUnit u c).statusOk = s.statusOk := by
  cases u <;> rfl

theorem statusOk_writeReg (s : State) (r : Reg) (v : Word) : (s.writeReg r v).statusOk = s.statusOk := by
  cases r with
  | textLen u => exact statusOk_setUnit s u _
  | compLen u => exact statusOk_setUnit s u _
  | _ => rfl

theorem statusOk_hostWrite (s : State) (w : Window) (off size : Nat) (v : Word) :
    (s.hostWrite w off size v).statusOk = s.statusOk := by
  obtain ⟨u, kind⟩ := w
  cases kind with
  | text => exact statusOk_setUnit s u _
  | comp => exact statusOk_setUnit s u _
  | decomp => rfl

theorem ActionEffect.statusOk {s t : State} {a : HostAction} (h : ActionEffect s a t) (hs : s.statusOk = true) :
    t.statusOk = true := by
  cases h with
  | hardwareReset => rfl
  | read => exact hs
  | register addr size v r _ => rwa [statusOk_writeReg]
  | window addr size v w off _ _ => rwa [statusOk_hostWrite]
  | ignored => exact hs
  | unselected v hb hf _ =>
    exact statusOk_iff.2 ⟨hb, fun h => (nomatch hf.symm.trans h), (statusOk_iff.1 hs).2.2⟩
  | command v i _ hb _ haccept hexec =>
    rcases haccept with hf | rfl
    · exact (commandResult_of_exec hexec).statusOk hf hs
    · cases hexec
      rfl

/-! ### Properties of each unit by itself -/

/-- What holds of every unit still does after one is replaced by another it holds of. -/
theorem forall_unit_setUnit {P : UnitId → CodecUnit → Prop} {s : State} {u : UnitId} {c : CodecUnit}
    (h : ∀ v, P v (s.unit v)) (hc : P u c) (v : UnitId) : P v ((s.setUnit u c).unit v) := by
  by_cases hv : v = u
  · subst hv
    rw [State.unit_setUnit]
    exact hc
  · rw [State.unit_setUnit_ne s hv]
    exact h v

/-- What holds of every unit whatever its TEXT_LEN and COMP_LEN are is kept by every register write (R36). -/
theorem forall_unit_writeReg {P : UnitId → CodecUnit → Prop} {s : State} (r : Reg) (v : Word)
    (h : ∀ u textLen compLen, P u { s.unit u with textLen := textLen, compLen := compLen }) (u : UnitId) :
    P u ((s.writeReg r v).unit u) := by
  have hs : ∀ u, P u (s.unit u) := fun u => h u _ _
  cases r with
  | textLen u' => exact forall_unit_setUnit hs (h u' v _) u
  | compLen u' => exact forall_unit_setUnit hs (h u' _ v) u
  | sentinel => cases u <;> exact hs _
  | opos => cases u <;> exact hs _
  | _ => exact hs u

/-! ### PHASEs and DECOMP_LENs (R27, R35) -/

/-- A PHASE the host can see of unit `u`, and a DECOMP_LEN within the buffer. -/
def PhaseAndLengthOk (p : Params) (u : UnitId) (c : CodecUnit) : Prop :=
  (c.phase.plain = true ∨ u = .huf ∧ c.phase = .codesGenerated) ∧ c.decompLen.toNat ≤ p.cap

theorem phasesOk_and_decompOk_iff {s : State} :
    s.phasesOk = true ∧ s.decompOk = true ↔ ∀ u, PhaseAndLengthOk s.params u (s.unit u) := by
  have hall (P : UnitId → Prop) : (∀ u, P u) ↔ P .rle ∧ P .huf ∧ P .bwt ∧ P .lzw :=
    ⟨fun h => ⟨h _, h _, h _, h _⟩, fun ⟨h1, h2, h3, h4⟩ u => by cases u <;> assumption⟩
  rw [hall]
  simp [State.phasesOk, State.decompOk, PhaseAndLengthOk]
  tauto

theorem phaseAndLengthOk_reset (p : Params) (u : UnitId) : PhaseAndLengthOk p u .reset := ⟨.inl rfl, Nat.zero_le _⟩

theorem toNat_ofNat_le {n m : Nat} (h : n ≤ m) : (BitVec.ofNat 32 n).toNat ≤ m :=
  (BitVec.toNat_ofNat n 32).trans_le ((Nat.mod_le _ _).trans h)

theorem CommandResult.phaseAndLength {p : Params} {i : Instr} {s t : State} (h : CommandResult s i t) (hp : s.params = p)
    (hs : ∀ u, PhaseAndLengthOk p u (s.unit u)) : ∀ u, PhaseAndLengthOk p u (t.unit u) := by
  induction h with
  | reset s => exact fun u => (State.unit_resetBlock s u).symm ▸ phaseAndLengthOk_reset p u
  | refused => exact hs
  | droppedComp s u => exact forall_unit_setUnit hs (hs u)
  | droppedDecomp s u => exact forall_unit_setUnit hs ⟨(hs u).1, Nat.zero_le _⟩
  | encoded s u => exact forall_unit_setUnit hs ⟨.inl rfl, (hs u).2⟩
  | decoded s u out _ hout => exact forall_unit_setUnit hs ⟨.inl rfl, toNat_ofNat_le (hp ▸ hout)⟩
  | built s => exact forall_unit_setUnit (s := s) (u := .huf) hs ⟨.inr ⟨rfl, rfl⟩, (hs .huf).2⟩
  | encFirstFaults _ _ ih => exact ih hp hs
  | encBoth h _ _ ih ih' =>
    exact ih' ((State.setUnit_params ..).trans (h.params.trans hp)) (forall_unit_setUnit (ih hp hs) (ih hp hs .rle))
  | decFirstFaults _ _ ih => exact ih hp hs
  | decTooLong _ _ _ ih => exact ih hp hs
  | decDiffers _ _ _ ih => exact forall_unit_setUnit (ih hp hs) ⟨(ih hp hs .bwt).1, Nat.zero_le _⟩
  | decBoth h _ _ ih ih' => exact ih' (h.params.trans hp) (ih hp hs)

theorem ActionEffect.phaseAndLength {p : Params} {s t : State} {a : HostAction} (h : ActionEffect s a t)
    (hp : s.params = p) (hs : ∀ u, PhaseAndLengthOk p u (s.unit u)) : ∀ u, PhaseAndLengthOk p u (t.unit u) := by
  cases h with
  | hardwareReset => exact fun u => (State.unit_resetBlock s u).symm ▸ phaseAndLengthOk_reset p u
  | read | ignored | unselected => exact hs
  | register addr size v r _ => exact forall_unit_writeReg r v fun u _ _ => hs u
  | window addr size v w off _ _ =>
    obtain ⟨u, kind⟩ := w
    cases kind with
    | text => exact forall_unit_setUnit hs (hs u)
    | comp => exact forall_unit_setUnit hs (hs u)
    | decomp => exact hs
  | command v i _ _ _ _ hexec => exact (commandResult_of_exec hexec).phaseAndLength hp hs

/-- Settles O56, by the effects the step's host action can have and, where it is a command, the command's results. -/
theorem stepKeepsStatusAndPhases : Obligations.StepKeepsStatusAndPhases := by
  unfold Obligations.StepKeepsStatusAndPhases
  intro s t _ hstatus hphases hdecomp hstep
  have hunits := phasesOk_and_decompOk_iff.1 ⟨hphases, hdecomp⟩
  obtain ⟨-, rfl⟩ | ⟨a, rest, -, heffect⟩ := step_cases hstep
  · exact ⟨hstatus, hphases, hdecomp⟩
  · refine ⟨heffect.statusOk hstatus, phasesOk_and_decompOk_iff.2 ?_⟩
    rw [show t.params = s.params from heffect.setting.1]
    exact heffect.phaseAndLength rfl hunits

/-! ### Huffman tables (R38 to R40) -/

/-- The arena, ROOT, NNODES and the codes are in `t` what they are in `s`. -/
def SameTables (s t : State) : Prop :=
  t.hufNode = s.hufNode ∧ t.hufRoot = s.hufRoot ∧ t.hufNnodes = s.hufNnodes ∧ t.hufCode = s.hufCode

theorem SameTables.trans {s a t : State} (h : SameTables s a) (h' : SameTables a t) : SameTables s t :=
  ⟨h'.1.trans h.1, h'.2.1.trans h.2.1, h'.2.2.1.trans h.2.2.1, h'.2.2.2.trans h.2.2.2⟩

theorem sameTables_setUnit (s : State) (u : UnitId) (c : CodecUnit) : SameTables s (s.setUnit u c) :=
  ⟨s.setUnit_hufNode u c, s.setUnit_hufRoot u c, s.setUnit_hufNnodes u c, s.setUnit_hufCode u c⟩

/-- Where the tables of `t` come from: from `s`, from a reset, or from a `HUF.BUILD`. -/
def TablesFrom (s t : State) : Prop :=
  SameTables s t ∨ SameTables State.reset t ∨ ∃ r : State, SameTables (r.hufBuilt r.builtTree) t

theorem TablesFrom.trans {s a t : State} (h : TablesFrom s a) (h' : TablesFrom a t) : TablesFrom s t := by
  obtain h' | h' := h'
  · obtain h | h | ⟨r, h⟩ := h
    · exact .inl (h.trans h')
    · exact .inr (.inl (h.trans h'))
    · exact .inr (.inr ⟨r, h.trans h'⟩)
  · exact .inr h'

theorem tablesFrom_setUnit (s : State) (u : UnitId) (c : CodecUnit) : TablesFrom s (s.setUnit u c) :=
  .inl (sameTables_setUnit s u c)

/-- What holds of the tables after a reset and after every `HUF.BUILD` is kept. -/
theorem TablesFrom.keeps {P : State → Prop} {s t : State} (h : TablesFrom s t)
    (hsame : ∀ {s t}, SameTables s t → P s → P t) (hreset : P State.reset)
    (hbuilt : ∀ r : State, P (r.hufBuilt r.builtTree)) (hs : P s) : P t := by
  obtain h | h | ⟨r, h⟩ := h
  · exact hsame h hs
  · exact hsame h hreset
  · exact hsame h (hbuilt r)

theorem CommandResult.tables {i : Instr} {s t : State} (h : CommandResult s i t) : TablesFrom s t := by
  induction h with
  | reset => exact .inr (.inl ⟨rfl, rfl, rfl, rfl⟩)
  | refused => exact .inl ⟨rfl, rfl, rfl, rfl⟩
  | droppedComp s u | droppedDecomp s u => exact tablesFrom_setUnit s u _
  | encoded s u | decoded s u => exact .inl (sameTables_setUnit s.ended u _)
  | built s => exact .inr (.inr ⟨s, rfl, rfl, rfl, rfl⟩)
  | encFirstFaults _ _ ih => exact ih
  | encBoth _ _ _ ih ih' => exact ih.trans ((tablesFrom_setUnit _ _ _).trans ih')
  | decFirstFaults _ _ ih => exact ih
  | decTooLong _ _ _ ih => exact ih
  | decDiffers _ _ _ ih => exact ih.trans (tablesFrom_setUnit _ _ _)
  | decBoth _ _ _ ih ih' => exact ih.trans ih'

theorem ActionEffect.tables {s t : State} {a : HostAction} (h : ActionEffect s a t) : TablesFrom s t := by
  cases h with
  | hardwareReset => exact .inr (.inl ⟨rfl, rfl, rfl, rfl⟩)
  | read | ignored | unselected => exact .inl ⟨rfl, rfl, rfl, rfl⟩
  | register addr size v r _ =>
    cases r with
    | textLen u | compLen u => exact tablesFrom_setUnit s u _
    | _ => exact .inl ⟨rfl, rfl, rfl, rfl⟩
  | window addr size v w off _ _ =>
    obtain ⟨u, kind⟩ := w
    cases kind with
    | text | comp => exact tablesFrom_setUnit s u _
    | decomp => exact .inl ⟨rfl, rfl, rfl, rfl⟩
  | command v i _ _ _ _ hexec => exact (commandResult_of_exec hexec).tables

theorem codeOf_congr {s t : State} (h : t.hufCode = s.hufCode) : t.codeOf = s.codeOf := by
  funext b
  rw [State.codeOf, State.codeOf, h]

theorem SameTables.hufInv {s t : State} (h : SameTables s t) (hs : s.hufInv) : t.hufInv := by
  obtain ⟨hnode, hroot, hnnodes, hcode⟩ := h
  rw [State.hufInv, State.hufTreeOk, State.codesArePaths, State.codesOk] at hs ⊢
  rwa [hnode, hroot, hnnodes, codeOf_congr hcode]

theorem SameTables.codesFit {s t : State} (h : SameTables s t) (hs : s.codesFit) : t.codesFit := by
  rw [State.codesFit] at hs ⊢
  rwa [codeOf_congr h.2.2.2]

theorem codeOf_reset (b : Byte) : State.reset.codeOf b = none := by
  simp [State.codeOf, State.reset, State.resetWith, Vector.get_eq_getElem]

/-- Without a tree there is no node and no code (R31, R40). -/
theorem hufInv_reset : State.reset.hufInv := by
  refine ⟨⟨rfl, Nat.zero_le _, ⟨fun _ => rfl, fun _ => rfl⟩, fun h => absurd rfl h, ?_, fun h => absurd rfl h⟩,
    fun b bits h => ?_, fun b bits h => ?_, fun b c bits h => ?_⟩
  · intro i n h
    cases h
  all_goals
    rw [codeOf_reset] at h
    cases h

theorem State.hufBuilt_hufCode (s : State) (tree : List Node × List Nat) :
    (s.hufBuilt tree).hufCode = codeTable (treeCodes tree.1 (rootId (rootOf tree.2))) := rfl

theorem State.hufBuilt_hufNnodes (s : State) (tree : List Node × List Nat) :
    (s.hufBuilt tree).hufNnodes = BitVec.ofNat 10 tree.1.length := rfl

/-- The tree `HUF.BUILD` leaves (R31, R38, R131). -/
theorem hufTreeOk_hufBuilt (s : State) : (s.hufBuilt s.builtTree).hufTreeOk := by
  have hdesc := (buildTree_inv s.params.hufTie (Config.tieChoice s.draw) (frequencies (s.textOf .huf))).1.descending
  by_cases hseeds : seedLeaves (frequencies (s.textOf .huf)) = []
  · have htree : s.builtTree = ([], []) := buildTree_empty _ _ _ hseeds
    rw [htree]
    exact hufInv_reset.1
  · have hle := seedLeaves_length_le (frequencies (s.textOf .huf))
    have hpos := List.length_pos_iff.2 hseeds
    have hlen : s.builtTree.1.length = _ := (buildTree_root s.params.hufTie (Config.tieChoice s.draw) _ hseeds).2
    have hroot : (rootOf s.builtTree.2).toNat = _ := rootOf_buildTree_toNat _ _ hseeds
    have hnnodes : (BitVec.ofNat 10 s.builtTree.1.length).toNat = _ := nnodes_buildTree_toNat _ _ hseeds
    have hne : s.builtTree.1 ≠ [] := List.ne_nil_of_length_pos (by omega)
    have hnone : rootOf s.builtTree.2 ≠ rootNone := fun h => by
      have := congrArg BitVec.toNat h
      rw [hroot, show rootNone.toNat = 511 from rfl] at this
      omega
    rw [State.hufTreeOk, State.hufBuilt_hufNode, State.hufBuilt_hufRoot, State.hufBuilt_hufNnodes, hnnodes, hroot, hlen]
    refine ⟨rfl, by omega, iff_of_false hnone hne, fun _ => by omega, hdesc, fun _ => ?_⟩
    exact buildTree_treeShaped _ _ hseeds

theorem codes_hufBuilt (s : State) : (s.hufBuilt s.builtTree).codesArePaths ∧ (s.hufBuilt s.builtTree).codesOk :=
  codes_built (s := s) (s.hufBuilt_hufNode s.builtTree) (s.hufBuilt_hufRoot s.builtTree)
    (s.hufBuilt_hufCode s.builtTree)

theorem hufInv_hufBuilt (s : State) : (s.hufBuilt s.builtTree).hufInv := ⟨hufTreeOk_hufBuilt s, codes_hufBuilt s⟩

/-- Settles O58: the tables a step leaves are those before it, those of a reset, or those of a `HUF.BUILD`. -/
theorem stepKeepsHuffmanTree : Obligations.StepKeepsHuffmanTree := by
  unfold Obligations.StepKeepsHuffmanTree
  intro s t hs hstep
  obtain ⟨-, rfl⟩ | ⟨a, rest, -, heffect⟩ := step_cases hstep
  · exact hs
  · exact heffect.tables.keeps SameTables.hufInv hufInv_reset hufInv_hufBuilt hs

/-! ### Windows (R61) -/

/-- A window's contents are canonical and inside a window of `n` bytes. -/
def MemFits (n : Nat) (m : Mem) : Prop := m.wf = true ∧ m.below n = true

theorem memFits_ofBytes {n : Nat} {bs : List Byte} (h : bs.length ≤ n) : MemFits n (Mem.ofBytes 0 bs) :=
  ⟨Mem.ofBytes_wf 0 bs, Mem.ofBytes_below h⟩

theorem memFits_nil (n : Nat) : MemFits n [] := memFits_ofBytes (bs := []) (Nat.zero_le n)

theorem MemFits.putBytes {n : Nat} {m : Mem} (h : MemFits n m) {off : Nat} {bs : List Byte}
    (hoff : off + bs.length ≤ n) : MemFits n (m.putBytes off bs) :=
  ⟨Mem.putBytes_wf h.1 off bs, Mem.putBytes_below h.2 hoff⟩

/-- The three windows of a unit fit. -/
structure UnitWindowsOk (p : Params) (u : UnitId) (c : CodecUnit) : Prop where
  text : MemFits (p.windowSize ⟨u, .text⟩) c.text
  comp : MemFits (p.windowSize ⟨u, .comp⟩) c.comp
  decomp : MemFits (p.windowSize ⟨u, .decomp⟩) c.decomp

theorem windowsOk_iff {s : State} : s.windowsOk = true ↔ ∀ u, UnitWindowsOk s.params u (s.unit u) := by
  have hmem (w : Window) : s.memOk w = true ↔ MemFits (s.params.windowSize w) (s.mem w) := by
    rw [State.memOk, Bool.and_eq_true, MemFits]
  rw [State.windowsOk, List.all_eq_true]
  simp only [hmem]
  refine ⟨fun h u => ⟨h ⟨u, .text⟩ (mem_allWindows _), h ⟨u, .comp⟩ (mem_allWindows _), h ⟨u, .decomp⟩ (mem_allWindows _)⟩,
    fun h w _ => ?_⟩
  obtain ⟨u, kind⟩ := w
  cases kind with
  | text => exact (h u).text
  | comp => exact (h u).comp
  | decomp => exact (h u).decomp

theorem unitWindowsOk_reset (p : Params) (u : UnitId) : UnitWindowsOk p u .reset :=
  ⟨memFits_nil _, memFits_nil _, memFits_nil _⟩

theorem codesFit_hufBuilt (s : State) : (s.hufBuilt s.builtTree).codesFit :=
  fun b bits h => ((codes_hufBuilt s).2.1 b bits h).2

theorem codesFit_reset : State.reset.codesFit := fun b bits h => by
  rw [codeOf_reset] at h
  cases h

theorem TablesFrom.codesFit {s t : State} (h : TablesFrom s t) (hs : s.codesFit) : t.codesFit :=
  h.keeps SameTables.codesFit codesFit_reset codesFit_hufBuilt hs

/-- COMP as a completed `BWT.FWD` leaves it fits RLE.TEXT (R216). -/
theorem bwtComp_length_le_cap {s a : State} (h : CommandResult s .bwtFwd a) (hd : a.done = true) :
    a.bwtComp.length ≤ s.params.cap := by
  rw [State.bwtComp_length]
  cases h with
  | refused | droppedComp => cases hd
  | droppedDecomp _ u _ _ hu => cases u <;> cases hu
  | encoded _ u n bs _ _ hu hn =>
    cases u <;> cases hu
    exact toNat_ofNat_le (hn (by decide))
  | decoded _ u _ hu => cases u <;> cases hu

theorem CommandResult.windows {p : Params} {i : Instr} {s t : State} (h : CommandResult s i t) (hp : s.params = p)
    (hcodes : s.codesFit) (hs : ∀ u, UnitWindowsOk p u (s.unit u)) : ∀ u, UnitWindowsOk p u (t.unit u) := by
  induction h with
  | reset s => exact fun u => (State.unit_resetBlock s u).symm ▸ unitWindowsOk_reset p u
  | refused => exact hs
  | droppedComp s u => exact forall_unit_setUnit hs { hs u with comp := memFits_nil _ }
  | droppedDecomp s u => exact forall_unit_setUnit hs { hs u with decomp := memFits_nil _ }
  | encoded s u _ bs _ _ _ _ hfits =>
    exact forall_unit_setUnit hs { hs u with comp := memFits_ofBytes (hp ▸ hfits hcodes) }
  | decoded s u out _ hout =>
    exact forall_unit_setUnit hs { hs u with decomp := memFits_ofBytes (hout.trans_eq (by rw [hp]; cases u <;> rfl)) }
  | built s => exact forall_unit_setUnit (s := s) (u := .huf) hs { hs .huf with }
  | encFirstFaults _ _ ih => exact ih hp hcodes hs
  | encBoth h hd _ ih ih' =>
    have hfirst := ih hp hcodes hs
    refine ih' ((State.setUnit_params ..).trans (h.params.trans hp))
      ((tablesFrom_setUnit _ _ _).codesFit (h.tables.codesFit hcodes)) (forall_unit_setUnit hfirst ?_)
    exact { hfirst .rle with text := memFits_ofBytes (hp ▸ bwtComp_length_le_cap h hd) }
  | decFirstFaults _ _ ih => exact ih hp hcodes hs
  | decTooLong _ _ _ ih => exact ih hp hcodes hs
  | decDiffers _ _ _ ih =>
    exact forall_unit_setUnit (ih hp hcodes hs) { ih hp hcodes hs .bwt with decomp := memFits_nil _ }
  | decBoth h _ _ ih ih' => exact ih' (h.params.trans hp) (h.tables.codesFit hcodes) (ih hp hcodes hs)

theorem ActionEffect.windows {s t : State} {a : HostAction} (h : ActionEffect s a t) (hcodes : s.codesFit)
    (hs : ∀ u, UnitWindowsOk s.params u (s.unit u)) : ∀ u, UnitWindowsOk s.params u (t.unit u) := by
  cases h with
  | hardwareReset => exact fun u => (State.unit_resetBlock s u).symm ▸ unitWindowsOk_reset _ u
  | read | ignored | unselected => exact hs
  | register addr size v r _ => exact forall_unit_writeReg r v fun u _ _ => { hs u with }
  | window addr size v w off _ hoff =>
    have hlen : off + ((bytesOfWord v).take size).length ≤ s.params.windowSize w := by
      rw [List.length_take]
      omega
    obtain ⟨u, kind⟩ := w
    cases kind with
    | text => exact forall_unit_setUnit hs { hs u with text := (hs u).text.putBytes hlen }
    | comp => exact forall_unit_setUnit hs { hs u with comp := (hs u).comp.putBytes hlen }
    | decomp => exact hs
  | command v i _ _ _ _ hexec => exact (commandResult_of_exec hexec).windows rfl hcodes hs

/-- Settles O57, by the effects the step's host action can have and, where it is a command, the command's results. -/
theorem stepKeepsWindowsCanonical : Obligations.StepKeepsWindowsCanonical := by
  unfold Obligations.StepKeepsWindowsCanonical
  rintro s t ⟨hmaxLen, hwindows, hcodes⟩ hstep
  obtain ⟨-, rfl⟩ | ⟨a, rest, -, heffect⟩ := step_cases hstep
  · exact ⟨hmaxLen, hwindows, hcodes⟩
  · have hparams : t.params = s.params := heffect.setting.1
    refine ⟨hparams ▸ hmaxLen, windowsOk_iff.2 ?_, heffect.tables.codesFit hcodes⟩
    rw [hparams]
    exact heffect.windows hcodes (windowsOk_iff.1 hwindows)

/-- Settles O59: the reset state has no fault, every unit Idle and empty, and no tree. -/
theorem resetMeetsInvariants : Obligations.ResetMeetsInvariants := by
  unfold Obligations.ResetMeetsInvariants
  have hunit (u : UnitId) : State.reset.unit u = .reset := by cases u <;> rfl
  have hunits := phasesOk_and_decompOk_iff.2 fun u => (hunit u).symm ▸ phaseAndLengthOk_reset State.reset.params u
  have hwindows := windowsOk_iff.2 fun u => (hunit u).symm ▸ unitWindowsOk_reset State.reset.params u
  exact ⟨rfl, hunits.1, hunits.2, ⟨by decide, hwindows, codesFit_reset⟩, hufInv_reset, by decide⟩

end Sys2Proof.Machine
end

