-- ==== Sys2Proof/Proofs/Frames.lean ====
section
/-! SUPPORT. What a command leaves alone, whether it completes or faults (spec/20_memory.md R66, R67). -/

namespace Sys2Proof.Machine

/-! ### Registers and tables -/

theorem encoderOf_inj {u v : UnitId} (h : encoderOf u = encoderOf v) : u = v := by
  cases u <;> cases v <;> cases h <;> rfl

theorem decoderOf_inj {u v : UnitId} (h : decoderOf u = decoderOf v) : u = v := by
  cases u <;> cases v <;> cases h <;> rfl

theorem encoderOf_ne_decoderOf (u v : UnitId) : encoderOf u ≠ decoderOf v := by
  cases u <;> cases v <;> decide

/-- `s` with what the encoder of `u` may write as it is in `t`. -/
def State.encodeFrame (s t : State) (u : UnitId) : State :=
  { (s.withStatusOf t).setUnit u { s.unit u with
      phase := (t.unit u).phase, compLen := (t.unit u).compLen, comp := (t.unit u).comp } with
    bwtOpos := match u with
      | .bwt => t.bwtOpos
      | .rle | .huf | .lzw => s.bwtOpos
    bwtSufidx := match u with
      | .bwt => t.bwtSufidx
      | .rle | .huf | .lzw => s.bwtSufidx }

/-- `s` with what the decoder of `u` may write as it is in `t`. -/
def State.decodeFrame (s t : State) (u : UnitId) : State :=
  (s.withStatusOf t).setUnit u { s.unit u with
    phase := (t.unit u).phase, decompLen := (t.unit u).decompLen, decomp := (t.unit u).decomp }

theorem CommandResult.encoder_frame {s t : State} {u : UnitId} (h : CommandResult s (encoderOf u) t) :
    t = s.encodeFrame t u := by
  generalize hi : encoderOf u = i at h
  cases h with
  | refused => cases u <;> rfl
  | droppedComp _ v _ _ hv =>
    cases encoderOf_inj (hi.trans hv)
    cases u <;> rfl
  | droppedDecomp _ v _ _ hv => exact absurd (hi.trans hv) (encoderOf_ne_decoderOf u v)
  | encoded _ v _ _ opos sufidx hv _ _ hbwt =>
    cases encoderOf_inj (hi.trans hv)
    cases u with
    | bwt => rfl
    | rle | huf | lzw =>
      obtain ⟨rfl, rfl⟩ := hbwt (by decide)
      rfl
  | decoded _ v _ hv => exact absurd (hi.trans hv) (encoderOf_ne_decoderOf u v)
  | reset | built | encFirstFaults | encBoth | decFirstFaults | decTooLong | decDiffers | decBoth => cases u <;> cases hi

theorem CommandResult.decoder_frame {s t : State} {u : UnitId} (h : CommandResult s (decoderOf u) t) :
    t = s.decodeFrame t u := by
  generalize hi : decoderOf u = i at h
  cases h with
  | refused => cases u <;> rfl
  | droppedDecomp _ v _ _ hv =>
    cases decoderOf_inj (hi.trans hv)
    cases u <;> rfl
  | droppedComp _ v _ _ hv => exact absurd (hi.trans hv).symm (encoderOf_ne_decoderOf v u)
  | decoded _ v _ hv =>
    cases decoderOf_inj (hi.trans hv)
    cases u <;> rfl
  | encoded _ v _ _ _ _ hv => exact absurd (hi.trans hv).symm (encoderOf_ne_decoderOf v u)
  | reset | built | encFirstFaults | encBoth | decFirstFaults | decTooLong | decDiffers | decBoth => cases u <;> cases hi

/-! ### Windows -/

theorem mem_setUnit_ne (s : State) {u : UnitId} (c : CodecUnit) {w : Window} (hw : w.unit ≠ u) :
    (s.setUnit u c).mem w = s.mem w := by
  rw [State.mem, State.mem, State.unit_setUnit_ne s hw]

theorem mem_setUnit_text (s : State) {u : UnitId} {c : CodecUnit} {w : Window} (hw : w ≠ ⟨u, .text⟩)
    (hcomp : c.comp = (s.unit u).comp) (hdecomp : c.decomp = (s.unit u).decomp) : (s.setUnit u c).mem w = s.mem w := by
  obtain ⟨v, kind⟩ := w
  by_cases hv : v = u
  · subst hv
    cases kind with
    | text => exact absurd rfl hw
    | comp => simpa using hcomp
    | decomp => simpa using hdecomp
  · exact mem_setUnit_ne s c hv

theorem mem_setUnit_comp (s : State) {u : UnitId} {c : CodecUnit} {w : Window} (hw : w ≠ ⟨u, .comp⟩)
    (htext : c.text = (s.unit u).text) (hdecomp : c.decomp = (s.unit u).decomp) : (s.setUnit u c).mem w = s.mem w := by
  obtain ⟨v, kind⟩ := w
  by_cases hv : v = u
  · subst hv
    cases kind with
    | comp => exact absurd rfl hw
    | text => simpa using htext
    | decomp => simpa using hdecomp
  · exact mem_setUnit_ne s c hv

theorem mem_setUnit_decomp (s : State) {u : UnitId} {c : CodecUnit} {w : Window} (hw : w ≠ ⟨u, .decomp⟩)
    (htext : c.text = (s.unit u).text) (hcomp : c.comp = (s.unit u).comp) : (s.setUnit u c).mem w = s.mem w := by
  obtain ⟨v, kind⟩ := w
  by_cases hv : v = u
  · subst hv
    cases kind with
    | decomp => exact absurd rfl hw
    | text => simpa using htext
    | comp => simpa using hcomp
  · exact mem_setUnit_ne s c hv

theorem State.mem_putText (s : State) {u : UnitId} (bs : List Byte) {w : Window} (hw : w ≠ ⟨u, .text⟩) :
    (s.putText u bs).mem w = s.mem w := mem_setUnit_text s hw rfl rfl

theorem State.mem_dropComp (s : State) {u : UnitId} {w : Window} (hw : w ≠ ⟨u, .comp⟩) :
    (s.dropComp u).mem w = s.mem w := mem_setUnit_comp s hw rfl rfl

theorem State.mem_dropDecomp (s : State) {u : UnitId} {w : Window} (hw : w ≠ ⟨u, .decomp⟩) :
    (s.dropDecomp u).mem w = s.mem w := mem_setUnit_decomp s hw rfl rfl

theorem State.mem_hufBuilt (s : State) (tree : List Node × List Nat) (w : Window) :
    (s.hufBuilt tree).mem w = s.mem w := by
  obtain ⟨u, kind⟩ := w
  cases u <;> cases kind <;> rfl

/-- The windows a command may store to (R67). -/
def writtenWindows : Instr → List Window
  | .blkRst => allWindows
  | .rleEnc => [⟨.rle, .comp⟩]
  | .hufEnc => [⟨.huf, .comp⟩]
  | .bwtFwd => [⟨.bwt, .comp⟩]
  | .lzwEnc => [⟨.lzw, .comp⟩]
  | .rleDec => [⟨.rle, .decomp⟩]
  | .hufDec => [⟨.huf, .decomp⟩]
  | .bwtInv => [⟨.bwt, .decomp⟩]
  | .lzwDec => [⟨.lzw, .decomp⟩]
  | .hufBuild => []
  | .bwtrleEnc => [⟨.bwt, .comp⟩, ⟨.rle, .text⟩, ⟨.rle, .comp⟩]
  | .bwtrleDec => [⟨.rle, .decomp⟩, ⟨.bwt, .decomp⟩]

theorem writtenWindows_encoderOf (u : UnitId) : writtenWindows (encoderOf u) = [⟨u, .comp⟩] := by cases u <;> rfl
theorem writtenWindows_decoderOf (u : UnitId) : writtenWindows (decoderOf u) = [⟨u, .decomp⟩] := by cases u <;> rfl

theorem ne_of_not_written {i : Instr} {w w' : Window} (h : writtenWindows i = [w']) (hw : w ∉ writtenWindows i) :
    w ≠ w' := by simpa [h] using hw

theorem CommandResult.mem {i : Instr} {s t : State} (h : CommandResult s i t) {w : Window}
    (hw : w ∉ writtenWindows i) : t.mem w = s.mem w := by
  induction h with
  | reset => exact absurd (mem_allWindows w) hw
  | refused => rfl
  | droppedComp s u _ _ hu =>
    exact s.mem_dropComp (ne_of_not_written (hu ▸ writtenWindows_encoderOf u) hw)
  | droppedDecomp s u _ _ hu =>
    exact s.mem_dropDecomp (ne_of_not_written (hu ▸ writtenWindows_decoderOf u) hw)
  | encoded s u _ _ _ _ hu =>
    exact mem_setUnit_comp s.ended (ne_of_not_written (hu ▸ writtenWindows_encoderOf u) hw)
      (by cases u <;> rfl) (by cases u <;> rfl)
  | decoded s u _ hu =>
    exact mem_setUnit_decomp s.ended (ne_of_not_written (hu ▸ writtenWindows_decoderOf u) hw)
      (by cases u <;> rfl) (by cases u <;> rfl)
  | built s => exact s.mem_hufBuilt _ w
  | encFirstFaults _ _ ih => exact ih (by simp_all [writtenWindows])
  | encBoth _ _ _ ih ih' =>
    have htext : w ≠ ⟨.rle, .text⟩ := by simp_all [writtenWindows]
    exact (ih' (by simp_all [writtenWindows])).trans
      ((State.mem_putText _ _ htext).trans (ih (by simp_all [writtenWindows])))
  | decFirstFaults _ _ ih => exact ih (by simp_all [writtenWindows])
  | decTooLong _ _ _ ih => exact ih (by simp_all [writtenWindows])
  | @decDiffers _ a _ _ _ ih =>
    have hdecomp : w ≠ ⟨.bwt, .decomp⟩ := by simp_all [writtenWindows]
    exact (a.mem_dropDecomp hdecomp).trans (ih (by simp_all [writtenWindows]))
  | decBoth _ _ _ ih ih' => exact (ih' (by simp_all [writtenWindows])).trans (ih (by simp_all [writtenWindows]))

/-- A byte of a window the command does not store to reads as before. -/
theorem CommandResult.byteAt {i : Instr} {s t : State} (h : CommandResult s i t) {w : Window}
    (hw : w ∉ writtenWindows i) (off : Nat) : t.byteAt w off = s.byteAt w off :=
  congrFun (State.byteAt_congr (h.mem hw) h.draw) off

/-- Settles O44. -/
theorem encodeFrames : Obligations.EncodeFrames := by
  unfold Obligations.EncodeFrames
  intro s t
  have frame (u : UnitId) (h : exec (encoderOf u) s = .next t) :
      t = s.encodeFrame t u ∧ ∀ w off, w ≠ ⟨u, .comp⟩ → t.byteAt w off = s.byteAt w off :=
    ⟨(commandResult_of_exec h).encoder_frame, fun w off hw =>
      (commandResult_of_exec h).byteAt (by simpa [writtenWindows_encoderOf] using hw) off⟩
  exact ⟨frame .rle, frame .huf, frame .bwt, frame .lzw⟩

/-- Settles O45. -/
theorem decodeFrames : Obligations.DecodeFrames := by
  unfold Obligations.DecodeFrames
  intro s t
  have frame (u : UnitId) (h : exec (decoderOf u) s = .next t) :
      t = s.decodeFrame t u ∧ ∀ w off, w ≠ ⟨u, .decomp⟩ → t.byteAt w off = s.byteAt w off :=
    ⟨(commandResult_of_exec h).decoder_frame, fun w off hw =>
      (commandResult_of_exec h).byteAt (by simpa [writtenWindows_decoderOf] using hw) off⟩
  exact ⟨frame .rle, frame .huf, frame .bwt, frame .lzw⟩

/-! ### `HUF.BUILD` and the composites -/

theorem State.hufBuilt_frame (s : State) (tree : List Node × List Nat) :
    s.hufBuilt tree = { s.withStatusOf (s.hufBuilt tree) with
      huf := { s.huf with phase := (s.hufBuilt tree).huf.phase }, hufRoot := (s.hufBuilt tree).hufRoot,
      hufNnodes := (s.hufBuilt tree).hufNnodes, hufFreq := (s.hufBuilt tree).hufFreq,
      hufNode := (s.hufBuilt tree).hufNode, hufCode := (s.hufBuilt tree).hufCode } := rfl

theorem CommandResult.hufBuild_frame {s t : State} (h : CommandResult s .hufBuild t) :
    t = { s.withStatusOf t with
          huf := { s.huf with phase := t.huf.phase }, hufRoot := t.hufRoot, hufNnodes := t.hufNnodes,
          hufFreq := t.hufFreq, hufNode := t.hufNode, hufCode := t.hufCode } := by
  cases h with
  | refused => rfl
  | built => exact s.hufBuilt_frame s.builtTree
  | droppedComp _ u _ _ hu | droppedDecomp _ u _ _ hu | encoded _ u _ _ _ _ hu | decoded _ u _ hu =>
    cases u <;> cases hu

theorem CommandResult.bwtrleEnc_frame {s t : State} (h : CommandResult s .bwtrleEnc t) :
    t = { s.withStatusOf t with
          rle := { t.rle with decompLen := s.rle.decompLen, decomp := s.rle.decomp },
          bwt := { s.bwt with phase := t.bwt.phase, compLen := t.bwt.compLen, comp := t.bwt.comp },
          bwtOpos := t.bwtOpos, bwtSufidx := t.bwtSufidx } := by
  cases h with
  | refused => rfl
  | droppedComp _ u _ _ hu | droppedDecomp _ u _ _ hu | encoded _ u _ _ _ _ hu | decoded _ u _ hu =>
    cases u <;> cases hu
  | encFirstFaults h =>
    rw [h.encoder_frame (u := .bwt)]
    rfl
  | encBoth h _ h' =>
    rw [h'.encoder_frame (u := .rle), h.encoder_frame (u := .bwt)]
    rfl

theorem CommandResult.bwtrleDec_frame {s t : State} (h : CommandResult s .bwtrleDec t) :
    t = { s.withStatusOf t with
          rle := { s.rle with phase := t.rle.phase, decompLen := t.rle.decompLen, decomp := t.rle.decomp },
          bwt := { s.bwt with phase := t.bwt.phase, decompLen := t.bwt.decompLen, decomp := t.bwt.decomp } } := by
  cases h with
  | refused => rfl
  | droppedComp _ u _ _ hu | droppedDecomp _ u _ _ hu | encoded _ u _ _ _ _ hu | decoded _ u _ hu =>
    cases u <;> cases hu
  | decFirstFaults h =>
    rw [h.decoder_frame (u := .rle)]
    rfl
  | decTooLong _ h | decDiffers _ h =>
    rw [h.decoder_frame (u := .rle)]
    rfl
  | decBoth h _ h' =>
    rw [h'.decoder_frame (u := .bwt), h.decoder_frame (u := .rle)]
    rfl

/-- Settles O46: a composite changes what its stages change, one after the other. -/
theorem buildAndCompositeFrames : Obligations.BuildAndCompositeFrames := by
  unfold Obligations.BuildAndCompositeFrames
  refine fun s t => ⟨fun h => ?_, fun h => ?_, fun h => ?_⟩
  · exact ⟨(commandResult_of_exec h).hufBuild_frame, fun w => (commandResult_of_exec h).byteAt List.not_mem_nil⟩
  · exact ⟨(commandResult_of_exec h).bwtrleEnc_frame, fun w off hw => (commandResult_of_exec h).byteAt hw off⟩
  · exact ⟨(commandResult_of_exec h).bwtrleDec_frame, fun w off hw => (commandResult_of_exec h).byteAt hw off⟩

end Sys2Proof.Machine
end

