-- ==== Sys2Proof/Proofs/CommandWrites.lean ====
section
/-! SUPPORT. The command word on its way to a command (spec/30_encoding.md R92, R94, R96) and the fault codes
(spec/60_exceptions.md R240). -/

namespace Sys2Proof.Machine

/-- The bytes of a command's word are read back as the command, whatever follows them (R62). -/
theorem decodeBytes_encodeBytes (i : Instr) (rest : List Byte) : decodeBytes (encodeBytes i ++ rest) = .ok (i, rest) := by
  show (decodeWord (wordOfBytes _ _ _ _)).map (fun i => (i, rest)) = _
  rw [wordOfBytes_bytesOfWord, decodeWord, decode_encode]
  rfl

/-- Settles O1. -/
theorem opcodeWordsDecode : Obligations.OpcodeWordsDecode := by
  unfold Obligations.OpcodeWordsDecode
  exact ⟨by decide, by decide, by decide, by decide, by decide, by decide, decodeBytes_encodeBytes⟩

/-- Settles O3: the word `withFetchWord` places is the host's next action. -/
theorem stepRunsTheDecodedCommand : Obligations.StepRunsTheDecodedCommand := by
  unfold Obligations.StepRunsTheDecodedCommand
  exact ⟨fun s w i rest => step_command, fun s nbits w i hb hd hf =>
    step_command (s := s.withFetchWord nbits w) (rest := s.host) rfl hb hd hf⟩

/-- Settles O4, by case 2 of R92. -/
theorem faultedBlockIgnoresCommands : Obligations.FaultedBlockIgnoresCommands := by
  unfold Obligations.FaultedBlockIgnoresCommands
  intro s w rest hhost hb hf hw
  rw [step_cmdWrite hhost hb, issue, if_neg hw, if_pos (by exact hf)]

/-- Settles O8. -/
theorem faultCodes : Obligations.FaultCodes := by
  unfold Obligations.FaultCodes
  exact ⟨rfl, rfl, rfl, rfl, rfl, rfl, rfl, rfl, rfl, rfl, rfl⟩

end Sys2Proof.Machine
end

