-- ==== Sys2Proof/Proofs/HostRegisters.lean ====
section
/-! SUPPORT. Host accesses to the registers (spec/10_state.md R21 to R36). -/

namespace Sys2Proof.Machine

/-! ### The register table (R21 to R26) -/

theorem lookup_eq_none_of_not_mem {α : Type} {l : List (Nat × α)} {n : Nat} (h : n ∉ l.map Prod.fst) :
    l.lookup n = none := by
  rw [List.lookup_eq_none_iff]
  intro x hx
  simpa using fun he : n = x.1 => h (he ▸ List.mem_map_of_mem hx)

/-- An offset that no rule names (R26). -/
theorem regAt_reserved {off : Nat} (h : off ∉ regTable.map Prod.fst) : regAt off = .reserved := by
  rw [regAt, lookup_eq_none_of_not_mem h]
  rfl

/-- The registers a host write leaves as they are (R26, R36). -/
def ignoresWrites : Reg → Bool
  | .cmd | .sentinel | .textLen _ | .compLen _ | .opos => false
  | .status | .faultCode | .faultInfo | .phase _ | .decompLen _ | .root | .nnodes | .reserved => true

theorem writeReg_of_ignoresWrites {r : Reg} (h : ignoresWrites r = true) (s : State) (v : Word) : s.writeReg r v = s := by
  cases r with
  | status | faultCode | faultInfo | phase _ | decompLen _ | root | nnodes | reserved => rfl
  | cmd | sentinel | textLen _ | compLen _ | opos => cases h

/-- The other registers stand at the offsets R36 names, and CMD at 0. -/
theorem ignoresWrites_regAt {off : Nat}
    (h : off ∉ [0x000, 0x010, 0x044, 0x048, 0x084, 0x088, 0x0C4, 0x0C8, 0x0D0, 0x104, 0x108]) :
    ignoresWrites (regAt off) = true := by
  by_cases hmem : off ∈ regTable.map Prod.fst
  · have hall : ∀ n ∈ regTable.map Prod.fst,
        n ∉ [0x000, 0x010, 0x044, 0x048, 0x084, 0x088, 0x0C4, 0x0C8, 0x0D0, 0x104, 0x108] →
          ignoresWrites (regAt n) = true := by decide
    exact hall off hmem h
  · rw [regAt_reserved hmem]
    rfl

/-! ### Reads -/

theorem readReg_takeAction (s : State) (rest : List HostAction) (r : Reg) :
    (s.takeAction rest).readReg r = s.readReg r := by
  cases r with
  | phase u | textLen u | compLen u | decompLen u => cases u <;> rfl
  | _ => rfl

/-- An aligned 32-bit read of the register space. -/
theorem readsAs_register {s : State} {off : Nat} (hb : s.busy = false) (hoff : off < 0x140) (h4 : off % 4 = 0) :
    readsAs s off (s.readReg (regAt off)) := by
  intro rest hhost
  refine step_answered hhost ?_
  rw [serveAction, serveRead, State.takeAction_params, accessOf_registerSpace hoff h4]
  simp [hb, State.readPlace, readReg_takeAction]

/-- The four bits of STATUS (R22), BUSY being 0. -/
theorem statusWord_of_not_busy {s : State} (hb : s.busy = false) :
    s.statusWord = BitVec.ofNat 32 (2 * s.done.toNat + 4 * s.fault.toNat + 8 * s.selErr.toNat) := by
  rw [State.statusWord, hb]
  cases s.done <;> cases s.fault <;> cases s.selErr <;> rfl

/-- Settles O47: the registers by their offsets in the table, every other offset being reserved. -/
theorem hostReadsReturnRegisters : Obligations.HostReadsReturnRegisters := by
  unfold Obligations.HostReadsReturnRegisters
  intro s hb
  have read (off : Nat) (hoff : off < 0x140) (h4 : off % 4 = 0) := readsAs_register hb hoff h4
  refine ⟨read 0x000 (by decide) rfl, ?status, read 0x008 (by decide) rfl, read 0x00C (by decide) rfl,
    read 0x010 (by decide) rfl, fun g u hg => ?units, read 0x0D0 (by decide) rfl, read 0x090 (by decide) rfl,
    read 0x094 (by decide) rfl, fun off h4 hoff hother => ?reserved⟩
  case status =>
    rw [← statusWord_of_not_busy hb]
    exact read 0x004 (by decide) rfl
  case units =>
    have hread : readsAs s g ((s.unit u).phase.code.setWidth 32) ∧ readsAs s (g + 0x04) (s.unit u).textLen ∧
        readsAs s (g + 0x08) (s.unit u).compLen ∧ readsAs s (g + 0x0C) (s.unit u).decompLen := by
      simp only [List.mem_cons, Prod.mk.injEq, List.not_mem_nil, or_false] at hg
      obtain ⟨rfl, rfl⟩ | ⟨rfl, rfl⟩ | ⟨rfl, rfl⟩ | ⟨rfl, rfl⟩ := hg
      all_goals exact ⟨read _ (by decide) rfl, read _ (by decide) rfl, read _ (by decide) rfl, read _ (by decide) rfl⟩
    revert hread
    cases (s.unit u).phase <;> exact id
  case reserved =>
    have hreserved : s.readReg (regAt off) = 0 := by
      rw [regAt_reserved (by simp [regTable] at hother ⊢; tauto)]
      rfl
    exact hreserved ▸ read off hoff h4

/-! ### Writes -/

/-- An aligned 32-bit write of the register space, but for CMD. -/
theorem writeGives_register {s : State} {off : Nat} {v : Word} (hb : s.busy = false) (hoff : off < 0x140) (h4 : off % 4 = 0)
    (hcmd : regAt off ≠ .cmd) : writeGives s off v fun t => t.writeReg (regAt off) v := by
  intro rest hhost
  refine step_answered hhost ?_
  rw [serveAction, serveWrite, State.takeAction_params, accessOf_registerSpace hoff h4]
  simp [hb, hcmd]

/-- Settles O48: the effect of a write is that of the register at its offset. -/
theorem hostWritesToRegisters : Obligations.HostWritesToRegisters := by
  unfold Obligations.HostWritesToRegisters
  intro s v hb
  have write (off : Nat) (hoff : off < 0x140) (h4 : off % 4 = 0) (hcmd : regAt off ≠ .cmd) :=
    writeGives_register (v := v) hb hoff h4 hcmd
  refine ⟨write 0x010 (by decide) rfl (by decide), write 0x044 (by decide) rfl (by decide),
    write 0x048 (by decide) rfl (by decide), write 0x084 (by decide) rfl (by decide),
    write 0x088 (by decide) rfl (by decide), write 0x0C4 (by decide) rfl (by decide),
    write 0x0C8 (by decide) rfl (by decide), write 0x0D0 (by decide) rfl (by decide),
    write 0x104 (by decide) rfl (by decide), write 0x108 (by decide) rfl (by decide), fun off h4 hoff hother => ?_⟩
  have hignore := ignoresWrites_regAt hother
  have hcmd : regAt off ≠ .cmd := fun h => by simp [h, ignoresWrites] at hignore
  exact fun rest hhost =>
    (write off hoff h4 hcmd rest hhost).trans (congrArg _ (writeReg_of_ignoresWrites hignore _ v))

/-- Settles O53: the only effect of a read is on the data it returns. -/
theorem readsChangeNoBlockState : Obligations.ReadsChangeNoBlockState := by
  unfold Obligations.ReadsChangeNoBlockState
  intro s t addr size rest hhost hstep
  obtain ⟨hnone, -⟩ | ⟨a, rest', hhost', heffect⟩ := step_cases hstep
  · cases hhost.symm.trans hnone
  · cases hhost.symm.trans hhost'
    cases heffect
    rfl

end Sys2Proof.Machine
end

