-- ==== Sys2Proof/Proofs/HostWindows.lean ====
section
/-! SUPPORT. Host accesses to the windows (spec/20_memory.md R60 to R70), the script lines that poke one element
(spec/30_encoding.md R98), and the accesses without a meaning (R70, R288). -/

namespace Sys2Proof.Machine

theorem mapOk_of_wf {p : Params} (h : p.wf = true) : p.mapOk = true := by
  rw [Params.wf, Bool.and_eq_true] at h
  exact h.2

theorem eq_of_mem_sizes {size : Nat} (h : size ∈ [1, 2, 4]) : size = 1 ∨ size = 2 ∨ size = 4 := by simpa using h

/-! ### Reads -/

theorem liveBits_takeAction (s : State) (rest : List HostAction) (w : Window) :
    (s.takeAction rest).liveBits w = s.liveBits w := by
  obtain ⟨u, kind⟩ := w
  cases u <;> cases kind <;> rfl

theorem mem_takeAction (s : State) (rest : List HostAction) (w : Window) : (s.takeAction rest).mem w = s.mem w := by
  obtain ⟨u, kind⟩ := w
  cases u <;> cases kind <;> rfl

theorem byteAt_of_lookup {s : State} {w : Window} {off : Nat} {b : Byte} (h : (s.mem w).lookup off = some b) :
    s.byteAt w off = b := by
  rw [State.byteAt, h]

/-- An aligned read of 1, 2 or 4 bytes inside a window (R36, R69). -/
theorem step_windowRead {s : State} {w : Window} {off size : Nat} {rest : List HostAction} (hw : s.params.wf = true)
    (hb : s.busy = false) (hs : size ∈ [1, 2, 4]) (ha : off % size = 0) (ho : off + size ≤ s.params.windowSize w)
    (hh : s.host = .read (s.params.windowBase w + off) size :: rest) :
    step s = .next { s.takeAction rest with readData := some ((s.takeAction rest).hostRead w off size) } := by
  refine step_answered hh ?_
  rw [serveAction, serveRead, State.takeAction_params,
    accessOf_windowBase (mapOk_of_wf hw) (eq_of_mem_sizes hs) ha ho]
  simp [hb, State.readPlace]

/-- Settles O49: a bit that is listed and below the length register is read as it is, whatever the draw. -/
theorem hostReadsWrittenBytes : Obligations.HostReadsWrittenBytes := by
  unfold Obligations.HostReadsWrittenBytes
  intro s w off size rest hw hb hs ha ho hh
  obtain ⟨hbits, habove⟩ := hostRead_getLsbD (s.takeAction rest) w off size (eq_of_mem_sizes hs)
  refine ⟨_, step_windowRead hw hb hs ha ho hh, fun k i b hk hi hlive hlookup => ?_, habove⟩
  rw [hbits k i hk hi, hostByteAt_getLsbD _ _ _ _ hi, liveBits_takeAction, if_pos hlive,
    byteAt_of_lookup ((congrArg (Mem.lookup · _) (mem_takeAction s rest w)).trans hlookup)]

/-! ### Writes -/

/-- Byte `j` of the first `size` bytes of a word (R62). -/
theorem take_bytesOfWord_getElem? (v : Word) {size j : Nat} (hs : size ≤ 4) (hj : j < size) :
    ((bytesOfWord v).take size)[j]? = some (v.extractLsb' (8 * j) 8) := by
  rw [List.getElem?_take_of_lt hj]
  match j, (show j < 4 by omega) with
  | 0, _ | 1, _ | 2, _ | 3, _ => rfl

/-- What a window lists after an aligned host write. -/
theorem lookup_putBytes_word (m : Mem) (off a : Nat) (v : Word) {size : Nat} (hs : size ≤ 4) :
    (m.putBytes off ((bytesOfWord v).take size)).lookup a =
      if off ≤ a ∧ a < off + size then some (v.extractLsb' (8 * (a - off)) 8) else m.lookup a := by
  rw [Mem.lookup_putBytes, List.length_take, bytesOfWord_length, Nat.min_eq_left hs]
  split
  · exact take_bytesOfWord_getElem? v hs (by omega)
  · rfl

/-- A DECOMP window ignores the write (R36). -/
theorem step_decompWrite {s : State} {w : Window} {off size : Nat} {v : Word} {rest : List HostAction}
    (hw : s.params.wf = true) (hb : s.busy = false) (hs : size ∈ [1, 2, 4]) (ha : off % size = 0)
    (ho : off + size ≤ s.params.windowSize w) (hk : w.kind = .decomp)
    (hh : s.host = .write (s.params.windowBase w + off) size v :: rest) : step s = .next (s.takeAction rest) := by
  refine step_answered hh ?_
  rw [serveAction, serveWrite, State.takeAction_params,
    accessOf_windowBase (mapOk_of_wf hw) (eq_of_mem_sizes hs) ha ho]
  simp [hb, State.hostWrite, hk]

/-- Settles O50. -/
theorem hostWritesToWindows : Obligations.HostWritesToWindows := by
  unfold Obligations.HostWritesToWindows
  intro s w off size v rest hw hb hs ha ho hh
  have hsize := eq_of_mem_sizes hs
  refine ⟨fun hk => step_decompWrite hw hb hs ha ho hk hh, fun hk => ⟨_, step_windowWrite hw hb hsize ha ho hk hh, ?_⟩⟩
  exact fun a => lookup_putBytes_word _ off a v (by omega)

/-! ### One element (R98) -/

/-- A poke of a byte lists that byte and no other. -/
theorem step_pokeByte {s : State} {w : Window} {off : Nat} {b : Byte} {rest : List HostAction}
    (hw : s.params.wf = true) (hb : s.busy = false) (ho : off < s.params.windowSize w) (hk : w.kind ≠ .decomp)
    (hh : s.host = pokeByte s.params w off b :: rest) :
    ∃ t, step s = .next t ∧ t = (s.takeAction rest).setMem w (t.mem w) ∧ t.byteAt w off = b ∧
      ∀ a, a ≠ off → (t.mem w).lookup a = (s.mem w).lookup a := by
  refine ⟨_, step_byteWrite hw hb ho hk hh, by rw [mem_setMem], ?_, fun a ha => ?_⟩
  · exact byteAt_of_lookup (by rw [mem_setMem, Mem.lookup_put_same])
  · rw [mem_setMem, Mem.lookup_put_other b ha]

theorem wordAt_of_bytes {s : State} {w : Window} {k : Nat} {v : Word}
    (h : ∀ j < 4, s.byteAt w (4 * k + j) = v.extractLsb' (8 * j) 8) : s.wordAt w k = v := by
  have hlow : s.byteAt w (4 * k) = v.extractLsb' 0 8 := h 0 (by decide)
  rw [State.wordAt, hlow, h 1 (by decide), h 2 (by decide), h 3 (by decide)]
  exact wordOfBytes_bytesOfWord v

/-- A poke of a word lists its four bytes and no other. -/
theorem step_pokeWord {s : State} {w : Window} {k : Nat} {v : Word} {rest : List HostAction} (hw : s.params.wf = true)
    (hb : s.busy = false) (ho : 4 * k + 4 ≤ s.params.windowSize w) (hk : w.kind ≠ .decomp)
    (hh : s.host = pokeWord s.params w k v :: rest) :
    ∃ t, step s = .next t ∧ t = (s.takeAction rest).setMem w (t.mem w) ∧ t.wordAt w k = v ∧
      ∀ a, a / 4 ≠ k → (t.mem w).lookup a = (s.mem w).lookup a := by
  refine ⟨_, step_windowWrite hw hb (.inr (.inr rfl)) (Nat.mul_mod_right 4 k) ho hk hh, by rw [mem_setMem], ?_,
    fun a ha => ?_⟩
  · refine wordAt_of_bytes fun j hj => byteAt_of_lookup ?_
    rw [mem_setMem, lookup_putBytes_word _ _ _ _ (le_refl 4), if_pos (by omega), Nat.add_sub_cancel_left]
  · rw [mem_setMem, lookup_putBytes_word _ _ _ _ (le_refl 4), if_neg (by omega)]

/-- A poked byte that differs in one bit from the one that stood there, read bit by bit (R65). -/
theorem hufBitAt_of_replaced {s t : State} {i : Nat} {v : Bool}
    (h : t.byteAt ⟨.huf, .comp⟩ (i / 8) = replaceBit (s.byteAt ⟨.huf, .comp⟩ (i / 8)) (i % 8) v) {k : Nat}
    (hk : k / 8 = i / 8) : t.hufBitAt k = if k = i then v else s.hufBitAt k := by
  rw [State.hufBitAt, State.hufBitAt, hk, h, replaceBit_getLsbD _ _ _ (by omega)]
  by_cases hki : k = i
  · rw [if_pos hki, if_pos (by omega)]
  · rw [if_neg hki, if_neg (by omega)]

/-- Settles O51: a poke is one aligned write of the window's element. -/
theorem pokeOverwritesOneElement : Obligations.PokeOverwritesOneElement := by
  unfold Obligations.PokeOverwritesOneElement
  refine fun s rest hw hb => ⟨fun w i b hkind hi hh => ?byte, fun w k v hkind hk hh => ?word, fun i v hi hh => ?bit⟩
  case byte =>
    have hsize : s.params.windowSize w = s.params.cap ∧ w.kind ≠ .decomp := by
      rcases hkind with hkind | rfl
      · obtain ⟨u, kind⟩ := w
        cases hkind
        cases u <;> exact ⟨rfl, by decide⟩
      · exact ⟨rfl, by decide⟩
    exact step_pokeByte hw hb (hsize.1 ▸ hi) hsize.2 hh
  case word =>
    have hsize : s.params.windowSize w = 4 * s.params.cap ∧ w.kind ≠ .decomp := by
      rcases hkind with rfl | rfl <;> exact ⟨rfl, by decide⟩
    exact step_pokeWord hw hb (by omega) hsize.2 hh
  case bit =>
    have ho : i / 8 < s.params.windowSize ⟨.huf, .comp⟩ := by
      rw [show s.params.windowSize ⟨.huf, .comp⟩ = (s.params.hufBitsCap + 7) / 8 from rfl]
      omega
    obtain ⟨t, hstep, ht, hbyte, hother⟩ := step_pokeByte hw hb ho (by decide) hh
    refine ⟨t, hstep, ht, ?_, fun k hk hsame => ?_, hother⟩
    · rw [hufBitAt_of_replaced hbyte rfl, if_pos rfl]
    · rw [hufBitAt_of_replaced hbyte hsame, if_neg hk]

/-! ### Accesses without a meaning (R70, R288) -/

theorem placeOf_of_accessOf {p : Params} {addr size : Nat} {pl : Place} (h : accessOf p addr size = .ok pl) :
    placeOf p addr = some pl := by
  rw [accessOf] at h
  split at h
  · cases h
  · rename_i hp
    split at h
    · cases h
    · split at h
      · cases h
      · cases h; exact hp
  · rename_i hp
    split at h
    · cases h
    · split at h
      · cases h
      · split at h
        · cases h
        · cases h; exact hp

/-- An access that has a next state has a place, and the block is not busy unless STATUS is read. -/
theorem access_of_step {s t : State} {a : HostAction} {addr size : Nat} {rest : List HostAction} (hh : s.host = a :: rest)
    (ha : isAccess a addr size) (h : step s = .next t) :
    ∃ pl, accessOf s.params addr size = .ok pl ∧ (s.busy = true → pl = .register 0x004 ∧ a = .read addr size) := by
  rw [step, serveHost, hh] at h
  rcases ha with rfl | ⟨v, rfl⟩
  · simp only [serveAction, serveRead, State.takeAction_params] at h
    split at h
    · rename_i e he
      cases e <;> cases h
    · rename_i pl hpl
      refine ⟨pl, hpl, fun hb => ⟨?_, rfl⟩⟩
      by_contra hne
      rw [if_pos ⟨hb, hne⟩] at h
      cases h
  · simp only [serveAction, serveWrite, State.takeAction_params] at h
    cases hacc : accessOf s.params addr size with
    | error e =>
      rw [hacc] at h
      cases e <;> cases h
    | ok pl =>
      refine ⟨pl, rfl, fun hb => ?_⟩
      simp [hacc, hb] at h

/-- The region of an address's place. -/
theorem inRegion_of_placeOf {p : Params} {addr : Nat} {pl : Place} (h : placeOf p addr = some pl) :
    ∃ r ∈ p.regions, inRegion addr r := by
  cases pl with
  | register off =>
    obtain ⟨hadd, hoff⟩ := placeOf_register h
    exact ⟨(p.base, regSpaceSize), List.mem_cons_self, by rw [inRegion]; omega⟩
  | window w off =>
    obtain ⟨hadd, hoff⟩ := placeOf_window h
    exact ⟨_, List.mem_cons_of_mem _ (List.mem_map_of_mem (mem_allWindows w)), by rw [inRegion]; omega⟩

theorem aligned_of_wf {p : Params} (h : p.wf = true) {r : Nat × Nat} (hr : r ∈ p.regions) : r.1 % 4 = 0 := by
  rw [Params.wf, Bool.and_eq_true, Bool.and_eq_true] at h
  simpa using List.all_eq_true.1 h.1.2 r hr

/-- Settles O52: an access with a next state has a place, so it is of an allowed width there, aligned and inside. -/
theorem meaninglessAccessesHaveNoNextState : Obligations.MeaninglessAccessesHaveNoNextState := by
  unfold Obligations.MeaninglessAccessesHaveNoNextState
  intro s a addr size rest hw hh ha
  refine ⟨fun hno t hstep => ?outside, fun hin hbad t hstep => ?register, fun w hin hbad t hstep => ?window,
    fun hb hne t hstep => ?busy⟩
  all_goals obtain ⟨pl, hpl, hbusy⟩ := access_of_step hh ha hstep
  case outside =>
    obtain ⟨r, hr, hin⟩ := inRegion_of_placeOf (placeOf_of_accessOf hpl)
    exact hno r hr hin
  case register =>
    have hplace := placeOf_of_accessOf hpl
    rw [placeOf] at hplace
    cases (if_pos hin).symm.trans hplace
    obtain ⟨hadd, hsize, halign⟩ := accessOf_register hpl
    have hbase : s.params.base % 4 = 0 := aligned_of_wf hw List.mem_cons_self
    omega
  case window =>
    obtain ⟨hlow, hhigh⟩ := hin
    have hplace := placeOf_of_accessOf hpl
    obtain ⟨off, rfl⟩ := Nat.exists_eq_add_of_le hlow
    rw [placeOf_windowBase (mapOk_of_wf hw) (by simp only at hhigh; omega)] at hplace
    cases hplace
    obtain ⟨-, hsize, halign, hinside⟩ := accessOf_window hpl
    have hbase : s.params.windowBase w % 4 = 0 :=
      aligned_of_wf hw (List.mem_cons_of_mem _ (List.mem_map_of_mem (mem_allWindows w)))
    rcases hbad with hbad | hbad | hbad
    · simp only [List.mem_cons, List.not_mem_nil, or_false] at hbad
      exact hbad hsize
    · rcases hsize with rfl | rfl | rfl <;> omega
    · omega
  case busy =>
    obtain ⟨rfl, rfl⟩ := hbusy hb
    obtain ⟨rfl, rfl, -⟩ := accessOf_register hpl
    exact hne rfl

end Sys2Proof.Machine
end

