-- ==== Sys2Proof/Proofs/RleBwtLzwFaults.lean ====
section
/-! SUPPORT. `RLE.DEC` on any parts (spec/43_rle.md R204), the data faults of `BWT.FWD` and `BWT.INV` (spec/41_bwt.md R161,
R171), and those of `LZW.DEC` (spec/42_lzw.md R188, R189). -/

namespace Sys2Proof.Machine

/-! ### `RLE.DEC` (R204) -/

theorem exec_rleDec_error {s : State} {t : Trap} (hp : inPhase .rleDec s) (hl : s.rle.compLen.toNat ≤ s.params.cap)
    (h : rleDecode s.params.cap 0 s.rleComp [] = .error t) :
    exec .rleDec s = .next ((s.dropDecomp .rle).faultOnly t.kind t.info) := by
  rw [exec_of_phase_eq rfl (exec_rleDec s) hp, State.afterRleDec, if_neg (Nat.not_lt.2 hl), h]

/-- Settles O16: parts that are all good decode to their expansion. -/
theorem rleDecExpandsParts : Obligations.RleDecExpandsParts := by
  unfold Obligations.RleDecExpandsParts
  intro s hm hp hl hpos hfit
  have hphase : s.rle.phase = .encoded := hp (.rle, .encoded) (List.mem_singleton.2 rfl)
  exact ⟨_, exec_rleDec_eq_rleDecoded hphase hl (rleDecode_of_good s.rleComp hpos hfit), completed_ended s, rfl,
    State.decompOf_rleDecoded hm hfit⟩

/-- Settles O17: the expansion runs over the good parts and stops at the first that is not, whose count is tested before
its length. -/
theorem rleDecFaultsAtFirstBadPart : Obligations.RleDecFaultsAtFirstBadPart := by
  unfold Obligations.RleDecFaultsAtFirstBadPart
  intro s good rest p hp hl hparts hpos hfit
  have hgood : rleDecode s.params.cap 0 s.rleComp [] = rleDecode s.params.cap good.length (p :: rest) (expand good) := by
    rw [hparts, rleDecode_append_of_good 0 good _ [] hpos (by rw [List.length_nil, Nat.zero_add]; exact hfit),
      Nat.zero_add, List.nil_append]
  refine ⟨fun hzero => ?zero, fun hcount hover => ?overflow⟩
  case zero => exact exec_rleDec_error hp hl (hgood.trans (by rw [rleDecode, if_pos hzero]))
  case overflow => exact exec_rleDec_error hp hl (hgood.trans (by rw [rleDecode, if_neg hcount]; exact if_pos hover))

/-! ### `BWT.FWD` (R161, R165) -/

/-- Settles O28: the least index of the sentinel is the length of what stands before it. -/
theorem bwtFwdRejectsSentinel : Obligations.BwtFwdRejectsSentinel := by
  unfold Obligations.BwtFwdRejectsSentinel
  intro s good rest hp hl htext hgood
  have hmem : s.sentinel ∈ s.textOf .bwt := by simp [htext]
  have hindex : (s.textOf .bwt).idxOf s.sentinel = good.length := by
    rw [htext, List.idxOf_append_of_notMem hgood, List.idxOf_cons_self, Nat.add_zero]
  have hne : ¬s.bwt.textLen.toNat = 0 := mt s.textOf_bwt_eq_nil.2 (List.ne_nil_of_mem hmem)
  rw [exec_of_phase_eq rfl (exec_bwtFwd s) hp, State.afterBwtFwd, if_neg (Nat.not_lt.2 hl), if_neg hne, if_pos hmem, hindex]

/-! ### `BWT.INV` (R171) -/

/-- What is not answered with a text is F_BWT_STREAM. -/
theorem bwtInverse_eq_error {l : List Byte} {c : Byte} {opos : Nat} (h : ∀ out, bwtInverse l c opos ≠ .ok out) :
    bwtInverse l c opos = .error ⟨.bwtStream, 0⟩ := by
  cases hr : bwtInverse l c opos with
  | error t => rw [bwtInverse_error hr]
  | ok out => exact absurd hr (h out)

/-- Settles O32: the inverse answers a text only where the four checks hold. -/
theorem bwtInvRejects : Obligations.BwtInvRejects := by
  unfold Obligations.BwtInvRejects
  intro s hp hl hne hfail
  have herror : bwtInverse s.bwtComp s.sentinel s.bwtOpos.toNat = .error ⟨.bwtStream, 0⟩ := by
    refine bwtInverse_eq_error fun out hok => ?_
    obtain ⟨hcount, hat, -, -⟩ := (bwtInverse_eq_ok_iff (inversePermutation_spec s.bwtComp)).1 hok
    rcases hfail with hpos | hnot | hnot | ⟨lf, a, b, hlf, hab, hb, hmeet⟩
    · obtain ⟨hlt, -⟩ := List.getElem?_eq_some_iff.1 hat
      rw [State.bwtComp_length] at hlt
      omega
    · exact hnot hcount
    · exact hnot hat
    · obtain ⟨-, -, hdistinct, -⟩ := (bwtInverse_eq_ok_iff hlf).1 hok
      exact hdistinct a b hab hb hmeet
  have hcomp : s.bwtComp ≠ [] := mt s.bwtComp_eq_nil.1 (mt (word_toNat_eq_zero _).1 hne)
  rw [exec_of_phase_eq rfl (exec_bwtInv s) hp, State.afterBwtInv_eq hl, bwtText, if_neg hcomp, herror]

/-! ### `LZW.DEC` (R188, R189) -/

theorem exec_lzwDec_error {s : State} {t : Trap} (hp : inPhase .lzwDec s) (hl : s.lzw.compLen.toNat ≤ s.params.cap)
    (h : lzwDecode s.params.cap s.lzwComp = .error t) :
    exec .lzwDec s = .next ((s.dropDecomp .lzw).faultOnly t.kind t.info) := by
  rw [exec_of_phase_eq rfl (exec_lzwDec s) hp, if_neg (Nat.not_lt.2 hl), h]

/-- Settles O36. -/
theorem lzwDecFaults : Obligations.LzwDecFaults := by
  unfold Obligations.LzwDecFaults
  refine fun s hp hl => ⟨fun k rest hcodes hk => ?first, fun codes rest strs last hcodes hx hfit hover => ?overflow⟩
  case first => exact exec_lzwDec_error hp hl (t := ⟨.lzwFirst, k⟩) (by rw [hcodes, lzwDecode]; exact if_pos hk)
  case overflow =>
    have hcap : 1 ≤ s.params.cap := Nat.le_add_left 1 _
    exact exec_lzwDec_error hp hl (hcodes ▸ lzwDecode_overflow hx rest hcap hfit hover)

end Sys2Proof.Machine
end

