-- ==== Sys2Proof/Proofs/Composite.lean ====
section
/-! SUPPORT. The composites as their stages (spec/44_composite_system.md R216 to R219). -/

namespace Sys2Proof.Machine

/-! ### `BWTRLE.ENC` (R216) -/

/-- Settles O37: the second stage finds the RLE unit Idle, as the first leaves it alone. -/
theorem bwtrleEncIsFwdThenRle : Obligations.BwtrleEncIsFwdThenRle := by
  unfold Obligations.BwtrleEncIsFwdThenRle
  intro s hm hp hf
  obtain ⟨hbwt, hrle⟩ := inPhase_bwtrleEnc_iff.1 hp
  refine ⟨⟨s.afterBwtFwd, ?first, ?stages⟩, fun hl hs => ⟨s.bwtrleEncoded, ?_, ⟨rfl, rfl, rfl, rfl, rfl, rfl⟩, rfl, rfl, ?_⟩⟩
  case first => rw [exec_bwtFwd, if_neg (not_not_intro hbwt)]
  case stages =>
    have hphase : (s.afterBwtFwd.putText .rle s.afterBwtFwd.bwtComp).rle.phase = .idle := by
      rw [afterBwtFwd_frame]
      exact hrle
    rw [exec_bwtrleEnc, if_neg (by simp [hbwt, hrle]), (afterBwtFwd_flags s hf).2.2, exec_rleEnc,
      if_neg (not_not_intro hphase)]
    cases s.afterBwtFwd.fault <;> rfl
  · exact exec_bwtrleEnc_eq_bwtrleEncoded hm hl hbwt hrle hs
  · rw [State.bwtComp_of_bwtrleEncoded hm hl rfl, State.rleComp_of_bwtrleEncoded hm hl rfl]
    exact ⟨State.textOf_columnCopied hm hl, expand_rleEncode _⟩

/-! ### `BWTRLE.DEC` (R217) -/

/-- The least index at which two sequences differ, or the shorter length. -/
theorem firstDifference_spec (a b : List Byte) :
    a.take (firstDifference a b) = b.take (firstDifference a b) ∧ firstDifference a b ≤ min a.length b.length ∧
      (firstDifference a b < min a.length b.length → a[firstDifference a b]? ≠ b[firstDifference a b]?) := by
  induction a generalizing b with
  | nil => cases b <;> simp [firstDifference]
  | cons x a ih =>
    cases b with
    | nil => simp [firstDifference]
    | cons y b =>
      by_cases hxy : x = y
      · subst hxy
        simpa [firstDifference] using ih b
      · simp [firstDifference, hxy]

/-- The BWT unit, its registers and the draw are as before `RLE.DEC`. -/
theorem State.afterRleDec_bwt (s : State) : s.afterRleDec.bwt = s.bwt ∧ s.afterRleDec.params = s.params ∧
    s.afterRleDec.sentinel = s.sentinel ∧ s.afterRleDec.bwtOpos = s.bwtOpos ∧ s.afterRleDec.bwtComp = s.bwtComp := by
  rw [afterRleDec_frame]
  exact ⟨rfl, rfl, rfl, rfl, rfl⟩

/-- Parts of BWT.COMP, whatever runs they make, are decoded to it. -/
theorem State.afterRleDec_of_expand {s : State} (hl : s.rle.compLen.toNat ≤ s.params.cap)
    (hfit : s.bwtComp.length ≤ s.params.cap) (hpos : ∀ p ∈ s.rleComp, 1 ≤ p.count) (hparts : expand s.rleComp = s.bwtComp) :
    s.afterRleDec = s.rleDecoded s.bwtComp :=
  State.afterRleDec_eq_rleDecoded hl (hparts ▸ rleDecode_of_good s.rleComp hpos (hparts ▸ hfit))

/-- Settles O38: the checks between the stages read the BWT unit, which the RLE stage leaves alone. -/
theorem bwtrleDecChecksAndInverts : Obligations.BwtrleDecChecksAndInverts := by
  unfold Obligations.BwtrleDecChecksAndInverts
  intro s hm hp hf
  obtain ⟨hbwt, hrle⟩ := inPhase_bwtrleDec_iff.1 hp
  have hfirst : exec .rleDec s = .next s.afterRleDec := by rw [exec_rleDec, if_neg (not_not_intro hrle)]
  obtain ⟨hunit, hparams, hsentinel, hopos, hcomp⟩ := s.afterRleDec_bwt
  have hchecks (h : s.afterRleDec.fault = false) : exec .bwtrleDec s = .next s.afterRleDec.afterCheckedBwtInv :=
    (exec_bwtrleDec_of_rleDec hp hfirst h).2
  refine ⟨⟨s.afterRleDec, hfirst, fun h => ?faults, fun h hlong => ?long, fun h hl hdiff => ?differs,
    fun h hl hsame => ?inverse⟩, fun text htext hs hnil hcol hpos hl hparts => ?completes⟩
  case faults =>
    rw [exec_bwtrleDec, if_neg (by simp [hbwt, hrle]), (afterRleDec_flags s hf).2.2, h]
    rfl
  case long => rw [hchecks h, State.afterCheckedBwtInv, hunit, hparams, if_pos hlong]
  case differs =>
    refine ⟨_, ?_, firstDifference_spec _ _⟩
    rw [hchecks h, State.afterCheckedBwtInv, hunit, hparams, hcomp, if_neg (Nat.not_lt.2 hl), if_pos hdiff]
  case inverse =>
    have hphase : ¬s.afterRleDec.bwt.phase ≠ .encoded := not_not_intro (hunit ▸ hbwt)
    rw [hchecks h, State.afterCheckedBwtInv, hunit, hparams, hcomp, if_neg (Nat.not_lt.2 hl), if_neg (not_not_intro hsame),
      exec_bwtInv, if_neg hphase]
  case completes =>
    have hcolumn : s.bwtComp = bwtColumn text s.sentinel := by
      rw [bwtColumn]
      split
      · exact hnil ‹_›
      · exact (hcol ‹_›).1
    have hdecoded : bwtText s.bwtComp s.sentinel s.bwtOpos.toNat = .ok text := by
      by_cases h0 : text = []
      · rw [bwtText, if_pos (hnil h0), h0]
      · have hrank : s.bwtOpos.toNat = bwtRank text s.sentinel := by rw [bwtRank, if_neg h0, (hcol h0).2]
        rw [hcolumn, hrank, bwtText_bwtColumn hs]
    have hfit : s.bwtComp.length ≤ s.params.cap :=
      hcolumn ▸ (bwtColumn_length_le text s.sentinel).trans (Nat.succ_le_succ htext)
    have hlen : s.bwt.compLen.toNat ≤ s.params.cap := s.bwtComp_length ▸ hfit
    have hstage := State.afterRleDec_of_expand hl hfit hpos hparts
    rw [hstage] at hchecks
    refine ⟨s.bwtrleDecoded text, ?_, ⟨rfl, rfl, rfl, rfl, rfl, rfl⟩, rfl, rfl, ?_⟩
    · rw [hchecks hf, State.afterCheckedBwtInv_eq_bwtDecoded (s := s.rleDecoded s.bwtComp) hlen
        (State.decompOf_rleDecoded hm hfit) hdecoded]
      rfl
    · exact State.decompOf_bwtrleDecoded hm (htext.trans (Nat.le_succ _))

end Sys2Proof.Machine
end

