-- ==== Sys2Proof/Proofs/HuffmanCommands.lean ====
section
/-! SUPPORT. The Huffman commands one by one (spec/40_huffman.md R127 to R149): which nodes the merge loop joins, what the
tie mode decides, what the encoder and the decoder answer. -/

namespace Sys2Proof.Machine

/-! ### `HUF.BUILD` (R129 to R137) -/

/-- A `HUF.BUILD` without fault leaves the built tree. -/
theorem hufBuild_of_no_fault {s t : State} (h : exec .hufBuild s = .next t) (hf : t.fault = false) :
    t = s.hufBuilt s.builtTree := by
  cases commandResult_of_exec h with
  | refused => cases hf
  | built => rfl
  | droppedComp _ u _ _ hu | droppedDecomp _ u _ _ hu | encoded _ u _ _ _ _ hu | decoded _ u _ hu =>
    cases u <;> cases hu

theorem arenaFreq_le_of_not_outranks {tie : HufTie} {arena : List Node} {z l : Nat} (h : outranks tie arena z l = false) :
    arenaFreq arena l ≤ arenaFreq arena z := by
  cases tie <;> simp [outranks] at h <;> omega

theorem id_le_of_not_outranks {arena : List Node} {z l : Nat} (h : outranks .ordered arena z l = false)
    (hf : arenaFreq arena z = arenaFreq arena l) : l ≤ z := by
  simp [outranks, hf] at h
  exact h

/-- Settles O19: the children of an Internal node were the two pops of its turn. -/
theorem hufBuildMergesLowestTwo : Obligations.HufBuildMergesLowestTwo := by
  unfold Obligations.HufBuildMergesLowestTwo
  intro s t _ h hf c f l r hnode
  rw [hufBuild_of_no_fault h hf, State.hufBuilt_hufNode] at hnode ⊢
  have hmerged : Merged s.params.hufTie s.builtTree.1 := buildTree_merged _ _ _
  obtain ⟨-, -, -, hl, hr, hne, hfirst, hsecond⟩ := hmerged c f l r hnode
  refine ⟨hl, hr, hne, fun z hz => arenaFreq_le_of_not_outranks (hfirst z hz),
    fun z hz hzl => arenaFreq_le_of_not_outranks (hsecond z hz hzl), fun htie => ?ordered⟩
  case ordered =>
    rw [htie] at hfirst hsecond
    exact ⟨fun z hz => id_le_of_not_outranks (hfirst z hz), fun z hz hzl => id_le_of_not_outranks (hsecond z hz hzl)⟩

/-- Settles O20. -/
theorem hufBuildCodesArePaths : Obligations.HufBuildCodesArePaths := by
  unfold Obligations.HufBuildCodesArePaths
  intro s t _ h hf
  rw [hufBuild_of_no_fault h hf]
  exact codes_hufBuilt s

/-! ### The tie mode (R132) -/

theorem popNode_some {tie : HufTie} {choice : Nat} {arena : List Node} {pq : List Nat} (h : pq ≠ []) :
    ∃ a, popNode tie choice arena pq = some (a, pq.erase a) ∧ a ∈ pq := by
  obtain ⟨⟨a, q⟩, hpop⟩ := Option.isSome_iff_exists.1 (popNode_isSome (tie := tie) (choice := choice) (arena := arena) h)
  obtain ⟨ha, -, rfl⟩ := pqPop_some hpop
  exact ⟨a, hpop, ha⟩

theorem erase_ne_nil {pq : List Nat} {a : Nat} (h : ¬pq.length ≤ 1) (ha : a ∈ pq) : pq.erase a ≠ [] := by
  rw [← List.length_pos_iff, List.length_erase_of_mem ha]
  omega

/-- One turn of the merge loop, whose two pops are given. -/
theorem mergeNodes_succ {tie : HufTie} {choices : Nat → Nat} {fuel : Nat} {arena : List Node} {pq pq1 pq2 : List Nat}
    {a b : Nat} (hlen : ¬pq.length ≤ 1) (ha : popNode tie (choices (2 * arena.length)) arena pq = some (a, pq1))
    (hb : popNode tie (choices (2 * arena.length + 1)) arena pq1 = some (b, pq2)) :
    mergeNodes tie choices (fuel + 1) arena pq =
      mergeNodes tie choices fuel (mergedArena arena a b) (pqPush pq2 arena.length) := by
  rw [mergeNodes, if_neg hlen, ha]
  simp only [hb]
  rfl

/-- Under ORDERED no choice is ever read, the queued nodes being distinct. -/
theorem mergeNodes_ordered (c d : Nat → Nat) (fuel : Nat) (arena : List Node) (pq : List Nat) (hn : pq.Nodup)
    (hids : ∀ i ∈ pq, i < arena.length) : mergeNodes .ordered c fuel arena pq = mergeNodes .ordered d fuel arena pq := by
  induction fuel generalizing arena pq with
  | zero => rfl
  | succ fuel ih =>
    by_cases hlen : pq.length ≤ 1
    · rw [mergeNodes, mergeNodes, if_pos hlen, if_pos hlen]
    · obtain ⟨a, ha, hmem⟩ := popNode_some (tie := .ordered) (choice := c (2 * arena.length)) (arena := arena)
        (pq := pq) (by rintro rfl; simp at hlen)
      obtain ⟨b, hb, -⟩ := popNode_some (tie := .ordered) (choice := c (2 * arena.length + 1)) (arena := arena)
        (erase_ne_nil hlen hmem)
      have ha' := (pqPop_choice_irrelevant (outranks_ordered_total arena) hn (d (2 * arena.length)) _).trans ha
      have hb' := (pqPop_choice_irrelevant (outranks_ordered_total arena) (hn.erase a) (d (2 * arena.length + 1)) _).trans hb
      rw [mergeNodes_succ hlen ha hb, mergeNodes_succ hlen ha' hb']
      have hlt (i : Nat) (hi : i ∈ (pq.erase a).erase b) : i < arena.length :=
        hids i (List.mem_of_mem_erase (List.mem_of_mem_erase hi))
      refine ih _ _ ?_ fun i hi => ?_
      · exact ((hn.erase a).erase b).append (List.nodup_singleton _) (by simpa using fun h => Nat.lt_irrefl _ (hlt _ h))
      · rw [mergedArena, List.length_append, List.length_singleton]
        obtain hi | hi := List.mem_append.1 hi
        · exact Nat.lt_succ_of_lt (hlt i hi)
        · exact List.mem_singleton.1 hi ▸ Nat.lt_succ_self _

/-- The choices `c`, with those of the turn that fills `NODE[n]` set to `d` and `e`. -/
def withPicks (n d e : Nat) (c : Nat → Nat) (k : Nat) : Nat :=
  if k = 2 * n then d else if k = 2 * n + 1 then e else c k

theorem withPicks_of_le {n d e k : Nat} {c : Nat → Nat} (h : 2 * (n + 1) ≤ k) : withPicks n d e c k = c k := by
  rw [withPicks, if_neg (by omega), if_neg (by omega)]

/-- ANY can make every choice ORDERED makes. -/
theorem mergeNodes_any_of_ordered (c : Nat → Nat) (fuel : Nat) (arena : List Node) (pq : List Nat) :
    ∃ c', mergeNodes .any c' fuel arena pq = mergeNodes .ordered c fuel arena pq := by
  induction fuel generalizing arena pq with
  | zero => exact ⟨c, rfl⟩
  | succ fuel ih =>
    by_cases hlen : pq.length ≤ 1
    · exact ⟨c, by rw [mergeNodes, mergeNodes, if_pos hlen, if_pos hlen]⟩
    · obtain ⟨a, ha, hmem⟩ := popNode_some (tie := .ordered) (choice := c (2 * arena.length)) (arena := arena)
        (pq := pq) (by rintro rfl; simp at hlen)
      obtain ⟨b, hb, -⟩ := popNode_some (tie := .ordered) (choice := c (2 * arena.length + 1)) (arena := arena)
        (erase_ne_nil hlen hmem)
      obtain ⟨d, hd⟩ := popNode_any_of_ordered ha
      obtain ⟨e, he⟩ := popNode_any_of_ordered hb
      obtain ⟨c', hc'⟩ := ih (mergedArena arena a b) (pqPush ((pq.erase a).erase b) arena.length)
      refine ⟨withPicks arena.length d e c', ?_⟩
      have hd' : popNode .any (withPicks arena.length d e c' (2 * arena.length)) arena pq = some (a, pq.erase a) := by
        rwa [withPicks, if_pos rfl]
      have he' : popNode .any (withPicks arena.length d e c' (2 * arena.length + 1)) arena (pq.erase a) =
          some (b, (pq.erase a).erase b) := by
        rwa [withPicks, if_neg (by omega), if_pos rfl]
      rw [mergeNodes_succ hlen ha hb, mergeNodes_succ hlen hd' he', ← hc']
      exact mergeNodes_congr _ _ _ _ _ _ fun k hk => withPicks_of_le (by simpa [mergedArena] using hk)

/-- Settles O21: the seeds are distinct nodes of the arena. -/
theorem orderedBuildIsOneOfAny : Obligations.OrderedBuildIsOneOfAny := by
  unfold Obligations.OrderedBuildIsOneOfAny
  refine ⟨fun c d freq => mergeNodes_ordered c d _ _ _ List.nodup_range fun i hi => List.mem_range.1 hi,
    fun c freq => mergeNodes_any_of_ordered c _ _ _⟩

/-! ### `HUF.ENC` (R145) -/

theorem exec_hufEnc_error {s : State} {t : Trap} (hp : inPhase .hufEnc s) (hl : s.huf.textLen.toNat ≤ s.params.cap)
    (h : hufEncode s.codeOf 0 (s.textOf .huf) [] = .error t) :
    exec .hufEnc s = .next ((s.dropComp .huf).faultOnly t.kind t.info) := by
  rw [exec_of_phase_eq rfl (exec_hufEnc s) hp, if_neg (Nat.not_lt.2 hl), h]

/-- The encoder stops at the first byte without a code. -/
theorem hufEncode_of_no_code {code : Byte → Option (List Bool)} {good rest : List Byte} {b : Byte} (i : Nat) (out : List Bool)
    (hgood : ∀ c ∈ good, (code c).isSome = true) (hb : code b = none) :
    hufEncode code i (good ++ b :: rest) out = .error ⟨.hufNoCode, i + good.length⟩ := by
  induction good generalizing i out with
  | nil => rw [List.nil_append, hufEncode, hb]; rfl
  | cons c good ih =>
    obtain ⟨bits, hbits⟩ := Option.isSome_iff_exists.1 (hgood c List.mem_cons_self)
    rw [List.cons_append, hufEncode, hbits, List.length_cons, Nat.add_comm good.length 1, ← Nat.add_assoc]
    exact ih (i + 1) _ fun d hd => hgood d (List.mem_cons_of_mem c hd)

/-- Settles O22: the output of codes that fit is short enough for COMP_LEN, so COMP reads as it (R8, R39). -/
theorem hufEncConcatenatesCodes : Obligations.HufEncConcatenatesCodes := by
  unfold Obligations.HufEncConcatenatesCodes
  refine fun s hm hp hl hcodes => ⟨fun hall => ?completes, fun good b rest htext hgood hb => ?faults⟩
  case completes =>
    have hphase : s.huf.phase = .codesGenerated := hp (.huf, .codesGenerated) (List.mem_singleton.2 rfl)
    have henc := hufEncode_ok 0 (s.textOf .huf) [] hall
    rw [List.nil_append] at henc
    have hbits := hufEncode_length_le hcodes henc
    rw [State.textOf_length, State.unit_huf] at hbits
    have hlt := hufBitsCap_lt hm
    rw [Params.hufBitsCap] at hlt
    exact ⟨_, exec_hufEnc_eq_hufEncoded hphase hl henc, completed_ended s, rfl,
      State.hufComp_eq (s := s.hufEncoded _) rfl rfl (by omega)⟩
  case faults =>
    refine exec_hufEnc_error hp hl (t := ⟨.hufNoCode, good.length⟩) ?_
    rw [htext, hufEncode_of_no_code 0 [] hgood hb, Nat.zero_add]

/-! ### `HUF.DEC` (R148, R149) -/

theorem exec_hufDec_error {s : State} {t : Trap} (hp : inPhase .hufDec s) (hl : s.huf.compLen.toNat ≤ s.params.hufBitsCap)
    (h : hufDecode s.nodeAt s.params.cap s.hufRoot s.hufComp = .error t) :
    exec .hufDec s = .next ((s.dropDecomp .huf).faultOnly t.kind t.info) := by
  rw [exec_of_phase_eq rfl (exec_hufDec s) hp, if_neg (Nat.not_lt.2 hl), h]

/-- Where the decoder answers a text, `HUF.DEC` completes with it. -/
theorem hufDec_completes {s : State} {out : List Byte} (hm : s.params.maxLenOk = true) (hp : inPhase .hufDec s)
    (hl : s.huf.compLen.toNat ≤ s.params.hufBitsCap)
    (h : hufDecode s.nodeAt s.params.cap s.hufRoot s.hufComp = .ok out) :
    ∃ t, exec .hufDec s = .next t ∧ Completed s t ∧ t.huf.phase = .decoded ∧ t.decompOf .huf = out :=
  ⟨s.hufDecoded out, exec_hufDec_eq_hufDecoded (hp (.huf, .encoded) (List.mem_singleton.2 rfl)) hl h, completed_ended s, rfl,
    decompOf_written hm (hufDecode_ok_length h) rfl rfl⟩

/-- Zeros under a single leaf, up to the capacity. -/
theorem State.singleLeaf.hufDecode {s : State} {b : Byte} (h : s.singleLeaf b) {n : Nat} (hn : n ≤ s.params.cap)
    (rest : List Bool) : hufDecode s.nodeAt s.params.cap s.hufRoot (List.replicate n false ++ rest) =
      hufDecodeLeaf s.params.cap b n rest (List.replicate n b) := by
  obtain ⟨hroot, f, hleaf⟩ := h
  rw [hufDecode_leaf hroot hleaf, hufDecodeLeaf_zeros n 0 rest [] (by simpa using hn), Nat.zero_add, List.nil_append]

/-- Whole paths under an Internal root, up to the capacity. -/
theorem State.leafPaths.hufDecode {s : State} {pieces : List (List Bool × Byte)} (h : s.leafPaths pieces)
    (hn : pieces.length ≤ s.params.cap) (rest : List Bool) :
    ∃ f l r, s.hufNode[s.hufRoot.toNat]? = some (.internal f l r) ∧
      hufDecode s.nodeAt s.params.cap s.hufRoot (pieces.flatMap Prod.fst ++ rest) =
        hufDecodeTree s.nodeAt s.params.cap (pieces.flatMap Prod.fst ++ rest).length s.hufRoot.toNat l r
          (pieces.flatMap Prod.fst).length rest s.hufRoot.toNat l r (pieces.map Prod.snd) := by
  obtain ⟨hroot, ⟨f, l, r, hnode⟩, hpaths⟩ := h
  refine ⟨f, l, r, hnode, ?_⟩
  rw [hufDecode_internal hroot hnode, hufDecodeTree_pieces hnode pieces hpaths 0 rest [] (by simpa using hn), Nat.zero_add,
    List.nil_append]

/-- Settles O23: after the zeros, and after the paths, no bit is left and the walk is at the root. -/
theorem hufDecWalksTheTree : Obligations.HufDecWalksTheTree := by
  unfold Obligations.HufDecWalksTheTree
  refine fun s hm hp hl => ⟨fun hbits => hufDec_completes hm hp hl ?empty, fun b n hleaf hn hbits =>
    hufDec_completes hm hp hl ?leaf, fun pieces hpaths hn hbits => hufDec_completes hm hp hl ?paths⟩
  case empty => rw [hbits, hufDecode]
  case leaf => rw [hbits, ← List.append_nil (List.replicate n false), hleaf.hufDecode hn, hufDecodeLeaf]
  case paths =>
    obtain ⟨f, l, r, -, hdec⟩ := hpaths.hufDecode hn []
    rw [hbits, ← List.append_nil (pieces.flatMap Prod.fst), hdec, hufDecodeTree, if_neg (not_not_intro rfl)]

/-- Settles O24: what is left after as many symbols as fit decides the fault. -/
theorem hufDecFaults : Obligations.HufDecFaults := by
  unfold Obligations.HufDecFaults
  refine fun s hp hl => ⟨fun hbits hroot => exec_hufDec_error hp hl (t := ⟨.hufNoTree, 0⟩) ?noTree,
    fun b n rest hleaf hn hbits => exec_hufDec_error hp hl (t := ⟨.hufPath, n⟩) ?oneUnderLeaf,
    fun b rest hleaf hbits => exec_hufDec_error hp hl (t := ⟨.overflow, s.params.cap⟩) ?zerosPastCap,
    fun pieces path j f l r hpaths hdesc hn hne hpath hj hbits =>
      exec_hufDec_error hp hl (t := ⟨.hufPath, s.huf.compLen.toNat⟩) ?endsInside,
    fun pieces rest hpaths hn hbits =>
      exec_hufDec_error hp hl (t := ⟨.overflow, (pieces.flatMap Prod.fst).length - 1⟩) ?pathsPastCap⟩
  case noTree =>
    obtain ⟨b, bits, hcons⟩ := List.exists_cons_of_ne_nil hbits
    rw [hcons, hufDecode, if_pos hroot]
  case oneUnderLeaf => rw [hbits, hleaf.hufDecode hn, hufDecodeLeaf, if_pos rfl]
  case zerosPastCap =>
    rw [hbits, List.replicate_succ', List.append_assoc, hleaf.hufDecode le_rfl, List.singleton_append, hufDecodeLeaf,
      if_neg (by decide), if_pos List.length_replicate]
  case endsInside =>
    obtain ⟨f', l', r', hroot, hdec⟩ := hpaths.hufDecode hn path
    rw [← State.hufComp_length, hbits, hdec]
    exact hufDecodeTree_partial hdesc hpath hroot hj (fun h => absurd h hne) le_rfl _ _
  case pathsPastCap =>
    obtain ⟨hsome, hinternal, hall⟩ := hpaths
    obtain rfl | ⟨init, last, rfl⟩ := List.eq_nil_or_concat' pieces
    · cases hn
    · have hinit : s.leafPaths init := ⟨hsome, hinternal, fun x hx => hall x (List.mem_append_left _ hx)⟩
      have hlen : init.length = s.params.cap := by simpa using hn
      obtain ⟨j, g, hlast, hj⟩ := hall last (List.mem_append_right _ (List.mem_singleton_self _))
      obtain ⟨f, l, r, hroot, hdec⟩ := hinit.hufDecode hlen.le (last.1 ++ rest)
      rw [hbits, List.flatMap_append, List.flatMap_singleton, List.append_assoc, hdec,
        hufDecodeTree_overflow hlast hj hroot _ rest _ (List.length_map _ |>.trans hlen), List.length_append]

end Sys2Proof.Machine
end

