-- ==== Sys2Proof/Proofs/Heap.lean ====
section
/-! SUPPORT. The array heap of the spec's reference form (spec/40_huffman.md R120 to R125) meets the queue's contract
(R126). A sift is followed by the one place where the heap property may fail. -/

namespace Sys2Proof.Machine

/-! ### The order of ranks -/

/-- What the claims need of a strict order of ranks. -/
structure RankOrder (o : Nat → Nat → Bool) : Prop where
  asymm : ∀ {x y}, o x y = true → o y x = false
  negTrans : ∀ {x y z}, o x y = false → o y z = false → o x z = false

theorem rankOrder_of_strict {o : Nat → Nat → Bool} (hirrefl : ∀ x, o x x = false)
    (htrans : ∀ x y z, o x y = true → o y z = true → o x z = true)
    (hweak : ∀ x y z, o x z = true → o x y = true ∨ o y z = true) : RankOrder o where
  asymm {x y} h := by
    by_contra hyx
    have hxx := htrans x y x h (by simpa using hyx)
    rw [hirrefl x] at hxx
    cases hxx
  negTrans {x y z} hxy hyz := by
    by_contra hxz
    obtain h | h := hweak x y z (by simpa using hxz)
    · cases hxy.symm.trans h
    · cases hyz.symm.trans h

theorem RankOrder.irrefl {o : Nat → Nat → Bool} (h : RankOrder o) (x : Nat) : o x x = false := by
  by_contra hxx
  exact hxx (h.asymm (by simpa using hxx))

/-! ### Places of the array -/

/-- The element at a place, or 0 outside. -/
def heapAt (a : List Nat) (i : Nat) : Nat := a.getD i 0

theorem heapAt_eq_getElem {a : List Nat} {i : Nat} (h : i < a.length) : heapAt a i = a[i] := List.getD_eq_getElem a 0 h

theorem getElem?_eq_heapAt {a : List Nat} {i : Nat} (h : i < a.length) : a[i]? = some (heapAt a i) := by
  rw [heapAt_eq_getElem h, List.getElem?_eq_getElem h]

theorem heapOutranks_eq {o : Nat → Nat → Bool} {a : List Nat} {i j : Nat} (hi : i < a.length) (hj : j < a.length) :
    heapOutranks o a i j = o (heapAt a i) (heapAt a j) := by
  rw [heapOutranks, getElem?_eq_heapAt hi, getElem?_eq_heapAt hj]

theorem heapSwap_eq {a : List Nat} {i j : Nat} (hi : i < a.length) (hj : j < a.length) :
    heapSwap a i j = (a.set i (heapAt a j)).set j (heapAt a i) := by
  rw [heapSwap, getElem?_eq_heapAt hi, getElem?_eq_heapAt hj]

@[simp] theorem heapSwap_length (a : List Nat) (i j : Nat) : (heapSwap a i j).length = a.length := by
  rw [heapSwap]
  split <;> simp

theorem heapSwap_perm {a : List Nat} {i j : Nat} (hi : i < a.length) (hj : j < a.length) : (heapSwap a i j).Perm a := by
  rw [heapSwap_eq hi hj, heapAt_eq_getElem hi, heapAt_eq_getElem hj]
  exact List.set_set_perm hi hj

theorem heapAt_swap {a : List Nat} {i j : Nat} (hi : i < a.length) (hj : j < a.length) (k : Nat) :
    heapAt (heapSwap a i j) k = if k = i then heapAt a j else if k = j then heapAt a i else heapAt a k := by
  rw [heapSwap_eq hi hj]
  by_cases hkj : k = j
  · subst hkj
    by_cases hki : k = i
    · subst hki
      simp [heapAt, hi]
    · simp [heapAt, hj, hki]
  · by_cases hki : k = i
    · subst hki
      simp [heapAt, hi, Ne.symm hkj]
    · simp [heapAt, hki, hkj, Ne.symm hkj, Ne.symm hki]

theorem heapAt_swap_left {a : List Nat} {i j : Nat} (hi : i < a.length) (hj : j < a.length) :
    heapAt (heapSwap a i j) i = heapAt a j := by rw [heapAt_swap hi hj, if_pos rfl]

theorem heapAt_swap_right {a : List Nat} {i j : Nat} (hi : i < a.length) (hj : j < a.length) :
    heapAt (heapSwap a i j) j = heapAt a i := by
  rw [heapAt_swap hi hj, if_pos rfl]
  split
  · rw [‹j = i›]
  · rfl

theorem heapAt_swap_ne {a : List Nat} {i j k : Nat} (hi : i < a.length) (hj : j < a.length) (hki : k ≠ i) (hkj : k ≠ j) :
    heapAt (heapSwap a i j) k = heapAt a k := by rw [heapAt_swap hi hj, if_neg hki, if_neg hkj]

/-! ### Heaps -/

/-- No element below place `n` outranks its parent. -/
def HeapBelow (o : Nat → Nat → Bool) (a : List Nat) (n : Nat) : Prop :=
  ∀ k, 1 ≤ k → k < n → o (heapAt a k) (heapAt a (heapParent k)) = false

theorem heapParent_lt {k : Nat} (h : 1 ≤ k) : heapParent k < k := by
  rw [heapParent]
  omega

theorem heapProperty_iff {o : Nat → Nat → Bool} {a : List Nat} : HeapProperty o a ↔ HeapBelow o a a.length := by
  refine forall_congr' fun k => forall_congr' fun hk => forall_congr' fun hlt => ?_
  rw [heapOutranks_eq hlt ((heapParent_lt hk).trans hlt)]

section
variable {o : Nat → Nat → Bool} (ho : RankOrder o)
include ho

/-- Nothing in a heap outranks its root. -/
theorem HeapBelow.root {a : List Nat} {n : Nat} (h : HeapBelow o a n) (k : Nat) (hk : k < n) :
    o (heapAt a k) (heapAt a 0) = false := by
  induction k using Nat.strong_induction_on with
  | _ k ih =>
    by_cases h0 : k = 0
    · rw [h0]
      exact ho.irrefl _
    · have hlt := heapParent_lt (Nat.pos_of_ne_zero h0)
      exact ho.negTrans (h k (Nat.pos_of_ne_zero h0) hk) (ih _ hlt (hlt.trans hk))

/-! ### Sifting up (R122) -/

omit ho in
/-- A heap, but that the element at `i` may outrank its parent. -/
def HeapButUp (o : Nat → Nat → Bool) (a : List Nat) (i : Nat) : Prop :=
  (∀ k, 1 ≤ k → k < a.length → k ≠ i → o (heapAt a k) (heapAt a (heapParent k)) = false) ∧
    ∀ k, 1 ≤ i → k < a.length → 1 ≤ k → heapParent k = i → o (heapAt a k) (heapAt a (heapParent i)) = false

/-- A turn of the loop moves the place where the property may fail to the parent. -/
theorem HeapButUp.swap {a : List Nat} {i : Nat} (h : HeapButUp o a i) (hi : i < a.length) (h0 : 1 ≤ i)
    (hup : o (heapAt a i) (heapAt a (heapParent i)) = true) :
    HeapButUp o (heapSwap a i (heapParent i)) (heapParent i) := by
  obtain ⟨hheap, hgrand⟩ := h
  have hpi := heapParent_lt h0
  have hp := hpi.trans hi
  refine ⟨fun k hk hlt hkp => ?_, fun k hp0 hlt hk hparent => ?_⟩
  all_goals rw [heapSwap_length] at hlt
  · have hkpar := heapParent_lt hk
    by_cases hki : k = i
    · rw [hki, heapAt_swap_left hi hp, heapAt_swap_right hi hp]
      exact ho.asymm hup
    rw [heapAt_swap_ne hi hp hki hkp]
    by_cases hpar : heapParent k = i
    · rw [hpar, heapAt_swap_left hi hp]
      exact hgrand k h0 hlt hk hpar
    by_cases hpar' : heapParent k = heapParent i
    · rw [hpar', heapAt_swap_right hi hp]
      exact ho.negTrans (hpar' ▸ hheap k hk hlt hki) (ho.asymm hup)
    · rw [heapAt_swap_ne hi hp hpar hpar']
      exact hheap k hk hlt hki
  · have hgp := heapParent_lt hp0
    have hkp : k ≠ heapParent i := fun e => absurd (heapParent_lt hk) (by omega)
    rw [heapAt_swap_ne hi hp (k := heapParent (heapParent i)) (by omega) (by omega)]
    have hup2 := hheap (heapParent i) hp0 hp (by omega)
    by_cases hki : k = i
    · rw [hki, heapAt_swap_left hi hp]
      exact hup2
    · rw [heapAt_swap_ne hi hp hki hkp]
      exact ho.negTrans (hparent ▸ hheap k hk hlt hki) hup2

theorem heapSiftUp_heap (fuel : Nat) (a : List Nat) (i : Nat) (h : HeapButUp o a i) (hi : i < a.length) (hfuel : i ≤ fuel) :
    HeapProperty o (heapSiftUp o fuel a i) := by
  induction fuel generalizing a i with
  | zero =>
    rw [heapSiftUp, heapProperty_iff]
    exact fun k hk hlt => h.1 k hk hlt (by omega)
  | succ fuel ih =>
    rw [heapSiftUp]
    split
    · rename_i hc
      have hpi := heapParent_lt hc.1
      rw [heapOutranks_eq hi (hpi.trans hi)] at hc
      exact ih _ _ (h.swap ho hi hc.1 hc.2) (by rw [heapSwap_length]; omega) (by omega)
    · rename_i hc
      rw [heapProperty_iff]
      intro k hk hlt
      by_cases hki : k = i
      · rw [hki] at hk ⊢
        rw [heapOutranks_eq hi ((heapParent_lt hk).trans hi)] at hc
        simpa [show i > 0 from hk] using hc
      · exact h.1 k hk hlt hki

/-! ### Sifting down (R123) -/

omit ho in
/-- A heap below place `n`, but that the children of `i` may outrank it. -/
def HeapButDown (o : Nat → Nat → Bool) (a : List Nat) (i n : Nat) : Prop :=
  (∀ k, 1 ≤ k → k < n → heapParent k ≠ i → o (heapAt a k) (heapAt a (heapParent k)) = false) ∧
    ∀ k, 1 ≤ k → k < n → heapParent k = i → 1 ≤ i → o (heapAt a k) (heapAt a (heapParent i)) = false

omit ho in
/-- The child a sift-down selects. -/
theorem heapChild_spec {a : List Nat} {i n : Nat} (hc : 2 * i + 1 < n) :
    heapParent (heapChild o a i n) = i ∧ i < heapChild o a i n ∧ heapChild o a i n < n := by
  rw [heapChild, heapParent]
  split <;> omega

/-- No child of `i` outranks the selected one. -/
theorem heapChild_best {a : List Nat} {i n : Nat} (hn : n ≤ a.length) {k : Nat} (hk : 1 ≤ k)
    (hlt : k < n) (hparent : heapParent k = i) : o (heapAt a k) (heapAt a (heapChild o a i n)) = false := by
  have hk : k = 2 * i + 1 ∨ k = 2 * i + 2 := by
    rw [heapParent] at hparent
    omega
  rw [heapChild]
  split
  · rename_i hright
    rw [heapOutranks_eq (by omega) (by omega)] at hright
    rcases hk with rfl | rfl
    · exact ho.asymm hright.2
    · exact ho.irrefl _
  · rename_i hleft
    rcases hk with rfl | rfl
    · exact ho.irrefl _
    · rw [heapOutranks_eq (by omega) (by omega)] at hleft
      simpa [hlt] using hleft

/-- A turn of the loop moves the place where the property may fail to the selected child. -/
theorem HeapButDown.swap {a : List Nat} {i n : Nat} (h : HeapButDown o a i n) (hn : n ≤ a.length) (hchild : 2 * i + 1 < n)
    (hup : o (heapAt a (heapChild o a i n)) (heapAt a i) = true) :
    HeapButDown o (heapSwap a (heapChild o a i n) i) (heapChild o a i n) n := by
  obtain ⟨hheap, hgrand⟩ := h
  have hbest {k : Nat} := heapChild_best ho hn (i := i) (k := k)
  obtain ⟨hparent, hic, hcn⟩ := heapChild_spec (o := o) (a := a) hchild
  generalize heapChild o a i n = c at *
  have hc : c < a.length := by omega
  have hi : i < a.length := by omega
  refine ⟨fun k hk hlt hkc => ?_, fun k hk hlt hkc hc0 => ?_⟩
  all_goals have hkpar := heapParent_lt hk
  · by_cases hki : k = i
    · subst hki
      rw [heapAt_swap_right hc hi, heapAt_swap_ne hc hi (k := heapParent k) hkc (by omega)]
      exact hgrand c (by omega) hcn hparent hk
    by_cases hkeq : k = c
    · rw [hkeq, hparent, heapAt_swap_left hc hi, heapAt_swap_right hc hi]
      exact ho.asymm hup
    rw [heapAt_swap_ne hc hi hkeq hki]
    by_cases hpar : heapParent k = i
    · rw [hpar, heapAt_swap_right hc hi]
      exact hbest hk hlt hpar
    · rw [heapAt_swap_ne hc hi hkc hpar]
      exact hheap k hk hlt hpar
  · rw [hparent, heapAt_swap_right hc hi, heapAt_swap_ne hc hi (k := k) (by omega) (by omega)]
    exact hkc ▸ hheap k hk hlt (by omega)

theorem heapSiftDown_heap (fuel : Nat) (a : List Nat) (i n : Nat) (h : HeapButDown o a i n) (hn : n ≤ a.length)
    (hfuel : n ≤ i + fuel) : HeapBelow o (heapSiftDown o fuel a i n) n := by
  induction fuel generalizing a i with
  | zero =>
    rw [heapSiftDown]
    exact fun k hk hlt => h.1 k hk hlt (by have := heapParent_lt hk; omega)
  | succ fuel ih =>
    rw [heapSiftDown]
    split
    · rename_i hleaf
      exact fun k hk hlt => h.1 k hk hlt (by rw [heapParent]; omega)
    · rename_i hchild
      have hchild := Nat.lt_of_not_le hchild
      obtain ⟨-, hic, hcn⟩ := heapChild_spec (o := o) (a := a) hchild
      rw [heapOutranks_eq (by omega) (by omega)]
      split
      · rename_i hup
        exact ih _ _ (h.swap ho hn hchild hup) (by rwa [heapSwap_length]) (by omega)
      · rename_i hup
        intro k hk hlt
        by_cases hpar : heapParent k = i
        · rw [hpar]
          exact ho.negTrans (heapChild_best ho hn hk hlt hpar) (by simpa using hup)
        · exact h.1 k hk hlt hpar

end

/-! ### What a sift keeps -/

section
variable (o : Nat → Nat → Bool)

theorem heapSiftUp_perm (fuel : Nat) (a : List Nat) (i : Nat) (hi : i < a.length) : (heapSiftUp o fuel a i).Perm a := by
  induction fuel generalizing a i with
  | zero => exact .refl a
  | succ fuel ih =>
    rw [heapSiftUp]
    split
    · rename_i hc
      have hp := (heapParent_lt hc.1).trans hi
      exact (ih _ _ (by rwa [heapSwap_length])).trans (heapSwap_perm hi hp)
    · exact .refl a

/-- What every swap of places below `n` keeps, a sift-down keeps. -/
theorem heapSiftDown_induct {P : List Nat → Prop} {n : Nat}
    (hswap : ∀ a i j, i < n → j < n → n ≤ a.length → P a → P (heapSwap a i j)) (fuel : Nat) (a : List Nat) (i : Nat)
    (hn : n ≤ a.length) (h : P a) : P (heapSiftDown o fuel a i n) := by
  induction fuel generalizing a i with
  | zero => exact h
  | succ fuel ih =>
    rw [heapSiftDown]
    split
    · exact h
    · rename_i hchild
      obtain ⟨-, hic, hcn⟩ := heapChild_spec (o := o) (a := a) (Nat.lt_of_not_le hchild)
      split
      · exact ih _ _ (by rwa [heapSwap_length]) (hswap a _ i hcn (by omega) hn h)
      · exact h

variable (fuel : Nat) {a : List Nat} (i : Nat) {n : Nat} (hn : n ≤ a.length)
include hn

theorem heapSiftDown_perm : (heapSiftDown o fuel a i n).Perm a :=
  heapSiftDown_induct o (P := fun b => b.Perm a)
    (fun _ _ _ hi hj hlen h => (heapSwap_perm (hi.trans_le hlen) (hj.trans_le hlen)).trans h) fuel a i hn (.refl a)

theorem heapSiftDown_length : (heapSiftDown o fuel a i n).length = a.length := (heapSiftDown_perm o fuel i hn).length_eq

/-- The places from `n` on stay as they are. -/
theorem heapAt_siftDown_of_ge {k : Nat} (hk : n ≤ k) : heapAt (heapSiftDown o fuel a i n) k = heapAt a k :=
  heapSiftDown_induct o (P := fun b => heapAt b k = heapAt a k)
    (fun _ _ _ hi hj hlen h =>
      (heapAt_swap_ne (hi.trans_le hlen) (hj.trans_le hlen) (by omega) (by omega)).trans h) fuel a i hn rfl

/-- What holds of all elements below `n` still does. -/
theorem heapAt_siftDown_of_forall {P : Nat → Prop} (h : ∀ k < n, P (heapAt a k)) :
    ∀ k < n, P (heapAt (heapSiftDown o fuel a i n) k) :=
  heapSiftDown_induct o (P := fun b => ∀ k < n, P (heapAt b k))
    (fun b i j hi hj hlen h k hk => by
      rw [heapAt_swap (hi.trans_le hlen) (hj.trans_le hlen)]
      split
      · exact h j hj
      · split
        · exact h i hi
        · exact h k hk) fuel a i hn h

end

/-! ### Push and pop -/

section
variable {o : Nat → Nat → Bool} (ho : RankOrder o) {a : List Nat} (ha : HeapProperty o a)
include ho ha

theorem heapPush_spec (x : Nat) : (heapPush o a x).Perm (x :: a) ∧ HeapProperty o (heapPush o a x) := by
  have hlen : a.length < (a ++ [x]).length := by simp
  refine ⟨(heapSiftUp_perm o _ _ _ hlen).trans (List.perm_append_singleton x a),
    heapSiftUp_heap ho _ _ _ ⟨fun k hk hlt hne => ?_, fun k _ hlt hk hparent => ?_⟩ hlen le_rfl⟩
  all_goals
    have hkpar := heapParent_lt hk
    rw [List.length_append, List.length_singleton] at hlt
  · have hold {j : Nat} (hj : j < a.length) : heapAt (a ++ [x]) j = heapAt a j := List.getD_append _ _ _ _ hj
    rw [hold (by omega), hold (by omega)]
    exact heapProperty_iff.1 ha k hk (by omega)
  · omega

end

/-- A heap with its root and its last element swapped is a heap before that place, but for the root. -/
theorem HeapBelow.swap_root {o : Nat → Nat → Bool} {a : List Nat} {n : Nat} (h : HeapBelow o a (n + 1))
    (hn : n < a.length) : HeapButDown o (heapSwap a 0 n) 0 n := by
  refine ⟨fun k hk hlt hparent => ?_, fun k _ _ _ h0 => absurd h0 (by decide)⟩
  have hkpar := heapParent_lt hk
  have hkeep {j : Nat} (hj0 : j ≠ 0) (hjn : j < n) : heapAt (heapSwap a 0 n) j = heapAt a j :=
    heapAt_swap_ne (by omega) hn hj0 (by omega)
  rw [hkeep (by omega) hlt, hkeep hparent (by omega)]
  exact h k hk (by omega)

theorem heapAt_take {a : List Nat} {n k : Nat} (hk : k < n) : heapAt (a.take n) k = heapAt a k := by
  simp [heapAt, hk]

theorem HeapButDown.take {o : Nat → Nat → Bool} {a : List Nat} {i n : Nat} (h : HeapButDown o a i n) (hi : i ≤ n) :
    HeapButDown o (a.take n) i n := by
  obtain ⟨hheap, hgrand⟩ := h
  refine ⟨fun k hk hlt hparent => ?_, fun k hk hlt hparent h0 => ?_⟩
  · have hkpar := heapParent_lt hk
    rw [heapAt_take hlt, heapAt_take (by omega)]
    exact hheap k hk hlt hparent
  · have hipar := heapParent_lt h0
    rw [heapAt_take hlt, heapAt_take (by omega)]
    exact hgrand k hk hlt hparent h0

/-- With the root at the last place, the array before that place holds the other elements. -/
theorem heapPop_perm (x : Nat) (rest : List Nat) :
    (x :: (heapSwap (x :: rest) 0 rest.length).take rest.length).Perm (x :: rest) := by
  have hlt : rest.length < (heapSwap (x :: rest) 0 rest.length).length := by simp
  have hsplit : (heapSwap (x :: rest) 0 rest.length).take rest.length ++ [x] = heapSwap (x :: rest) 0 rest.length := by
    have hlast := heapAt_swap_right (a := x :: rest) (i := 0) (j := rest.length) (by simp) (by simp)
    rw [heapAt_eq_getElem hlt] at hlast
    rw [show [x] = [(heapSwap (x :: rest) 0 rest.length)[rest.length]] from congrArg (fun y => [y]) hlast.symm,
      List.take_append_getElem, List.take_of_length_le (by simp)]
  calc (x :: (heapSwap (x :: rest) 0 rest.length).take rest.length)
    _ |>.Perm _ := (List.perm_append_singleton x _).symm
    _ = heapSwap (x :: rest) 0 rest.length := hsplit
    _ |>.Perm _ := heapSwap_perm (by simp) (by simp)

theorem heapPop_spec {o : Nat → Nat → Bool} (ho : RankOrder o) {a : List Nat} (ha : HeapProperty o a) (hne : a ≠ []) :
    ∃ x b, heapPop o a = some (x, b) ∧ a.Perm (x :: b) ∧ HeapProperty o b ∧ ∀ y, y ∈ a → o y x = false := by
  obtain ⟨x, rest, rfl⟩ := List.exists_cons_of_ne_nil hne
  have hheap := heapProperty_iff.1 ha
  have hlen : ((heapSwap (x :: rest) 0 rest.length).take rest.length).length = rest.length := by simp
  refine ⟨x, _, rfl, ?_, ?_, fun y hy => ?_⟩
  · exact (heapPop_perm x rest).symm.trans ((heapSiftDown_perm o _ 0 le_rfl).symm.cons x)
  · rw [heapProperty_iff, heapSiftDown_length o _ 0 le_rfl]
    refine heapSiftDown_heap ho _ _ 0 _ ?_ le_rfl (by omega)
    rw [hlen]
    exact (hheap.swap_root (by simp)).take (by omega)
  · obtain ⟨k, hk, rfl⟩ := List.mem_iff_getElem.1 hy
    rw [← heapAt_eq_getElem hk]
    exact hheap.root ho k hk

/-! ### Sorting (R125) -/

/-- No element from place `n` on is outranked by an earlier one. -/
def SortedFrom (o : Nat → Nat → Bool) (a : List Nat) (n : Nat) : Prop :=
  ∀ i j, i < j → n ≤ j → j < a.length → o (heapAt a i) (heapAt a j) = false

theorem heapSortLoop_perm (o : Nat → Nat → Bool) (stop : Nat) (a : List Nat) (h : stop < a.length ∨ stop = 0) :
    (heapSortLoop o stop a).Perm a := by
  induction stop generalizing a with
  | zero => exact .refl a
  | succ stop ih =>
    have hn : stop + 1 < a.length := by omega
    have hn' : stop + 1 ≤ (heapSwap a 0 (stop + 1)).length := by rw [heapSwap_length]; omega
    have hlen := heapSiftDown_length o (stop + 1) 0 hn'
    rw [heapSwap_length] at hlen
    exact (ih _ (by omega)).trans ((heapSiftDown_perm o _ 0 hn').trans (heapSwap_perm (by omega) hn))

section
variable {o : Nat → Nat → Bool} (ho : RankOrder o) {a : List Nat} {n : Nat} (hn : n < a.length)
include ho hn

/-- A turn of the loop takes the root of the heap to the front of the sorted part. -/
theorem SortedFrom.sortTurn (hheap : HeapBelow o a (n + 1)) (h : SortedFrom o a (n + 1)) :
    SortedFrom o (heapSiftDown o n (heapSwap a 0 n) 0 n) n := by
  have hlen : n ≤ (heapSwap a 0 n).length := by rw [heapSwap_length]; omega
  have h0 : 0 < a.length := by omega
  intro i j hij hnj hj
  rw [heapSiftDown_length o n 0 hlen, heapSwap_length] at hj
  have hbefore : ∀ k < n, o (heapAt (heapSwap a 0 n) k) (heapAt (heapSwap a 0 n) j) = false := by
    intro k hk
    obtain ⟨k', hk', heq⟩ : ∃ k' ≤ n, heapAt (heapSwap a 0 n) k = heapAt a k' := by
      by_cases hk0 : k = 0
      · exact ⟨n, le_rfl, by rw [hk0, heapAt_swap_left h0 hn]⟩
      · exact ⟨k, hk.le, heapAt_swap_ne h0 hn hk0 hk.ne⟩
    rw [heq]
    by_cases hjn : j = n
    · rw [hjn, heapAt_swap_right h0 hn]
      exact hheap.root ho k' (by omega)
    · rw [heapAt_swap_ne h0 hn (by omega) hjn]
      exact h k' j (by omega) (by omega) hj
  rw [heapAt_siftDown_of_ge o n 0 hlen hnj]
  by_cases hi : i < n
  · exact heapAt_siftDown_of_forall o n 0 hlen
      (P := fun x => o x (heapAt (heapSwap a 0 n) j) = false) hbefore i hi
  · rw [heapAt_siftDown_of_ge o n 0 hlen (by omega), heapAt_swap_ne h0 hn (k := j) (by omega) (by omega)]
    by_cases hin : i = n
    · rw [hin, heapAt_swap_right h0 hn]
      exact h 0 j (by omega) (by omega) hj
    · rw [heapAt_swap_ne h0 hn (by omega) hin]
      exact h i j hij (by omega) hj

end

theorem heapSortLoop_sorted {o : Nat → Nat → Bool} (ho : RankOrder o) (stop : Nat) (a : List Nat) (hlt : stop < a.length)
    (hheap : HeapBelow o a (stop + 1)) (h : SortedFrom o a (stop + 1)) : SortedFrom o (heapSortLoop o stop a) 1 := by
  induction stop generalizing a with
  | zero => exact h
  | succ stop ih =>
    have hlen : stop + 1 ≤ (heapSwap a 0 (stop + 1)).length := by rw [heapSwap_length]; omega
    refine ih _ ?_ ?_ (h.sortTurn ho hlt hheap)
    · rw [heapSiftDown_length o _ 0 hlen, heapSwap_length]
      omega
    · exact heapSiftDown_heap ho _ _ 0 _ (hheap.swap_root hlt) hlen (by omega)

theorem heapIntoSortedVec_perm (o : Nat → Nat → Bool) (a : List Nat) : (heapIntoSortedVec o a).Perm a :=
  heapSortLoop_perm o _ a (by omega)

theorem heapIntoSortedVec_sorted {o : Nat → Nat → Bool} (ho : RankOrder o) {a : List Nat} (ha : HeapProperty o a) :
    (heapIntoSortedVec o a).Pairwise fun x y => o x y = false := by
  by_cases hempty : a.length = 0
  · rw [List.eq_nil_of_length_eq_zero hempty]
    exact .nil
  have hlast : a.length - 1 + 1 = a.length := by omega
  have hsorted : SortedFrom o (heapIntoSortedVec o a) 1 :=
    heapSortLoop_sorted ho _ a (by omega) (hlast.symm ▸ heapProperty_iff.1 ha)
      fun i j _ hle hj => absurd hj (by omega)
  rw [List.pairwise_iff_getElem]
  intro i j hi hj hij
  rw [← heapAt_eq_getElem hi, ← heapAt_eq_getElem hj]
  exact hsorted i j hij (by omega) hj

/-- Settles O25: a push sifts up and a pop and each turn of the sort sift down, which restores the heap property from
its one failing place and only swaps elements. -/
theorem heapMeetsContract : Obligations.HeapMeetsContract := by
  unfold Obligations.HeapMeetsContract
  intro o a hirrefl htrans hweak ha
  have ho := rankOrder_of_strict hirrefl htrans hweak
  exact ⟨heapPush_spec ho ha, fun h => h ▸ rfl, heapPop_spec ho ha, heapIntoSortedVec_perm o a,
    heapIntoSortedVec_sorted ho ha⟩

end Sys2Proof.Machine
end
